-- ==== Sys2Proof/Word.lean ====
section
/-! DEFINITION. The word, byte and register-number types (R6, R7, R8, R20).
Words are 32-bit bit vectors; `+`, `-`, `&&&`, `|||`, `^^^` of BitVec are the operations of R8 (modulo 2^32 and bitwise). -/

namespace Sys2Proof

/-- A 32-bit word: a register, the pc, an address, an instruction (R6: XLEN = ILEN = 32). -/
abbrev Word := BitVec 32

/-- One byte of the memory buffer (R31). -/
abbrev Byte := BitVec 8

/-- The number of a general register, 0 to 31 (R20). -/
abbrev RegIdx := BitVec 5

end Sys2Proof
end

