-- ==== Sys2Proof/Syntax.lean ====
section
/-! DEFINITION. The instructions: one constructor for each row of spec/opcode_table.json (R3, R71, R201 to R203).
Operands are the fields of the formats of R62. Branch and JAL offsets are byte offsets with their bit 0 (always 0 in an
encoding, R65, R67) written out; WellFormed.lean says that it is 0. Bits that the decoder ignores (R73) are no operand
(log 6). -/

namespace Sys2Proof

inductive Instr where
  -- upper immediates (R110, R111)
  | lui (rd : RegIdx) (imm : BitVec 20)
  | auipc (rd : RegIdx) (imm : BitVec 20)
  -- jumps (R120, R121)
  | jal (rd : RegIdx) (off : BitVec 21)
  | jalr (rd rs1 : RegIdx) (imm : BitVec 12)
  -- branches (R131 to R136)
  | beq (rs1 rs2 : RegIdx) (off : BitVec 13)
  | bne (rs1 rs2 : RegIdx) (off : BitVec 13)
  | blt (rs1 rs2 : RegIdx) (off : BitVec 13)
  | bge (rs1 rs2 : RegIdx) (off : BitVec 13)
  | bltu (rs1 rs2 : RegIdx) (off : BitVec 13)
  | bgeu (rs1 rs2 : RegIdx) (off : BitVec 13)
  -- loads (R141 to R145)
  | lb (rd rs1 : RegIdx) (imm : BitVec 12)
  | lh (rd rs1 : RegIdx) (imm : BitVec 12)
  | lw (rd rs1 : RegIdx) (imm : BitVec 12)
  | lbu (rd rs1 : RegIdx) (imm : BitVec 12)
  | lhu (rd rs1 : RegIdx) (imm : BitVec 12)
  -- stores (R151 to R153), in the assembler's operand order rs2, imm(rs1)
  | sb (rs2 rs1 : RegIdx) (imm : BitVec 12)
  | sh (rs2 rs1 : RegIdx) (imm : BitVec 12)
  | sw (rs2 rs1 : RegIdx) (imm : BitVec 12)
  -- register-immediate (R161 to R169)
  | addi (rd rs1 : RegIdx) (imm : BitVec 12)
  | slti (rd rs1 : RegIdx) (imm : BitVec 12)
  | sltiu (rd rs1 : RegIdx) (imm : BitVec 12)
  | xori (rd rs1 : RegIdx) (imm : BitVec 12)
  | ori (rd rs1 : RegIdx) (imm : BitVec 12)
  | andi (rd rs1 : RegIdx) (imm : BitVec 12)
  | slli (rd rs1 : RegIdx) (shamt : BitVec 5)
  | srli (rd rs1 : RegIdx) (shamt : BitVec 5)
  | srai (rd rs1 : RegIdx) (shamt : BitVec 5)
  -- register-register (R171 to R180)
  | add (rd rs1 rs2 : RegIdx)
  | sub (rd rs1 rs2 : RegIdx)
  | sll (rd rs1 rs2 : RegIdx)
  | slt (rd rs1 rs2 : RegIdx)
  | sltu (rd rs1 rs2 : RegIdx)
  | xor (rd rs1 rs2 : RegIdx)
  | srl (rd rs1 rs2 : RegIdx)
  | sra (rd rs1 rs2 : RegIdx)
  | or (rd rs1 rs2 : RegIdx)
  | and (rd rs1 rs2 : RegIdx)
  -- no effect (R201 to R203); FENCE keeps the fields that the block does not interpret
  | fence (rd rs1 : RegIdx) (fm pred succ : BitVec 4)
  | ecall
  | ebreak
  deriving DecidableEq, Repr

/-- The words that no row of the opcode table matches. They are not illegal (R75): each kind has an effect of its own. -/
inductive Unlisted where
  /-- BRANCH with funct3 2 or 3 (R137). -/
  | reservedBranch
  /-- LOAD with funct3 3, 6 or 7, and its rd field (R146). -/
  | reservedLoad (rd : RegIdx)
  /-- STORE with funct3 3 to 7 (R154). -/
  | reservedStore
  /-- Every other word outside the nine opcodes of R70, and its rd field (R200, R204). -/
  | otherOpcode (rd : RegIdx)
  deriving DecidableEq, Repr

/-- What the decoder reads from a word: an instruction of the table, or a word outside it, by name. -/
inductive Decoded where
  | instr (i : Instr)
  | unlisted (u : Unlisted)
  deriving DecidableEq, Repr

/-- The classification of a fetched word on the `decode_status` output (R77). -/
inductive DecodeStatus where
  | ok
  | aliased
  | noEffect
  | unrecognized
  deriving DecidableEq, Repr

end Sys2Proof
end

