-- ==== Sys2Proof/WellFormed.lean ====
section
/-! DEFINITION. The instructions an encoding can hold. Every field has the width of its place in the word (R62), so the one
condition left is that branch and JAL offsets are even (R65, R67: "with bit 0 always 0"). -/

namespace Sys2Proof

/-- A branch offset is a multiple of 2 (R65). -/
def evenOffsetB (off : BitVec 13) : Bool := !off.getLsbD 0

/-- A JAL offset is a multiple of 2 (R67). -/
def evenOffsetJ (off : BitVec 21) : Bool := !off.getLsbD 0

/-- The instruction has an encoding. -/
def Instr.wf : Instr → Bool
  | .jal _ off => evenOffsetJ off
  | .beq _ _ off => evenOffsetB off
  | .bne _ _ off => evenOffsetB off
  | .blt _ _ off => evenOffsetB off
  | .bge _ _ off => evenOffsetB off
  | .bltu _ _ off => evenOffsetB off
  | .bgeu _ _ off => evenOffsetB off
  | .lui _ _ => true
  | .auipc _ _ => true
  | .jalr _ _ _ => true
  | .lb _ _ _ => true
  | .lh _ _ _ => true
  | .lw _ _ _ => true
  | .lbu _ _ _ => true
  | .lhu _ _ _ => true
  | .sb _ _ _ => true
  | .sh _ _ _ => true
  | .sw _ _ _ => true
  | .addi _ _ _ => true
  | .slti _ _ _ => true
  | .sltiu _ _ _ => true
  | .xori _ _ _ => true
  | .ori _ _ _ => true
  | .andi _ _ _ => true
  | .slli _ _ _ => true
  | .srli _ _ _ => true
  | .srai _ _ _ => true
  | .add _ _ _ => true
  | .sub _ _ _ => true
  | .sll _ _ _ => true
  | .slt _ _ _ => true
  | .sltu _ _ _ => true
  | .xor _ _ _ => true
  | .srl _ _ _ => true
  | .sra _ _ _ => true
  | .or _ _ _ => true
  | .and _ _ _ => true
  | .fence _ _ _ _ _ => true
  | .ecall => true
  | .ebreak => true

end Sys2Proof
end

