-- ==== Sys2Proof/Decode.lean ====
section
/-! DEFINITION. The instruction decoder, the immediate generator, decode_status and the encoder (spec/30_encoding.md).
The decoder depends on the word alone (R94) and is total: a word that no row of the opcode table matches is an `Unlisted`
word, by name. The positions that the spec takes from the standard encoding (D3) are followed as its rules state them
(log 11). -/

namespace Sys2Proof

/-! ### Fields (R61) -/

def fieldOpcode (w : Word) : BitVec 7 := w.extractLsb' 0 7
def fieldRd (w : Word) : RegIdx := w.extractLsb' 7 5
def fieldFunct3 (w : Word) : BitVec 3 := w.extractLsb' 12 3
def fieldRs1 (w : Word) : RegIdx := w.extractLsb' 15 5
def fieldRs2 (w : Word) : RegIdx := w.extractLsb' 20 5
def fieldFunct7 (w : Word) : BitVec 7 := w.extractLsb' 25 7
def fieldBit30 (w : Word) : Bool := w.getLsbD 30

/-! ### Immediate fields (R63 to R67) -/

/-- `inst[31:20]` (R63). -/
def fieldImmI (w : Word) : BitVec 12 := w.extractLsb' 20 12

/-- `inst[31:25] ++ inst[11:7]` (R64). -/
def fieldImmS (w : Word) : BitVec 12 := w.extractLsb' 25 7 ++ w.extractLsb' 7 5

/-- `inst[31] ++ inst[7] ++ inst[30:25] ++ inst[11:8] ++ 0` (R65). -/
def fieldImmB (w : Word) : BitVec 13 :=
  w.extractLsb' 31 1 ++ w.extractLsb' 7 1 ++ w.extractLsb' 25 6 ++ w.extractLsb' 8 4 ++ 0#1

/-- `inst[31:12]` (R66). -/
def fieldImmU (w : Word) : BitVec 20 := w.extractLsb' 12 20

/-- `inst[31] ++ inst[19:12] ++ inst[20] ++ inst[30:21] ++ 0` (R67). -/
def fieldImmJ (w : Word) : BitVec 21 :=
  w.extractLsb' 31 1 ++ w.extractLsb' 12 8 ++ w.extractLsb' 20 1 ++ w.extractLsb' 21 10 ++ 0#1

/-! ### Immediate generator: the fields widened to a word (R9, R63 to R67) -/

def sext12 (v : BitVec 12) : Word := v.signExtend 32
def sext13 (v : BitVec 13) : Word := v.signExtend 32
def sext21 (v : BitVec 21) : Word := v.signExtend 32

/-- `imm20 ++ 0^12` (R66). -/
def upper20 (v : BitVec 20) : Word := v ++ 0#12

def immI (w : Word) : Word := sext12 (fieldImmI w)
def immS (w : Word) : Word := sext12 (fieldImmS w)
def immB (w : Word) : Word := sext13 (fieldImmB w)
def immU (w : Word) : Word := upper20 (fieldImmU w)
def immJ (w : Word) : Word := sext21 (fieldImmJ w)

/-! ### Opcodes (R70; MISC-MEM R201) -/

def opLui : BitVec 7 := 0b0110111#7
def opAuipc : BitVec 7 := 0b0010111#7
def opJal : BitVec 7 := 0b1101111#7
def opJalr : BitVec 7 := 0b1100111#7
def opBranch : BitVec 7 := 0b1100011#7
def opLoad : BitVec 7 := 0b0000011#7
def opStore : BitVec 7 := 0b0100011#7
def opOpImm : BitVec 7 := 0b0010011#7
def opOp : BitVec 7 := 0b0110011#7
def opMiscMem : BitVec 7 := 0b0001111#7
def opSystem : BitVec 7 := 0b1110011#7

/-- The nine opcodes the decoder recognizes (R70, R200). -/
def recognizedOpcodes : List (BitVec 7) :=
  [opLui, opAuipc, opJal, opJalr, opBranch, opLoad, opStore, opOpImm, opOp]

/-! ### The arms of the decoder (R70, R71, R72) -/

/-- BRANCH (R71 column BRANCH; funct3 2 and 3 reserved, R137). -/
def decodeBranch (w : Word) : Decoded :=
  if fieldFunct3 w = 0#3 then .instr (.beq (fieldRs1 w) (fieldRs2 w) (fieldImmB w))
  else if fieldFunct3 w = 1#3 then .instr (.bne (fieldRs1 w) (fieldRs2 w) (fieldImmB w))
  else if fieldFunct3 w = 4#3 then .instr (.blt (fieldRs1 w) (fieldRs2 w) (fieldImmB w))
  else if fieldFunct3 w = 5#3 then .instr (.bge (fieldRs1 w) (fieldRs2 w) (fieldImmB w))
  else if fieldFunct3 w = 6#3 then .instr (.bltu (fieldRs1 w) (fieldRs2 w) (fieldImmB w))
  else if fieldFunct3 w = 7#3 then .instr (.bgeu (fieldRs1 w) (fieldRs2 w) (fieldImmB w))
  else .unlisted .reservedBranch

/-- LOAD (R71 column LOAD; funct3 3, 6 and 7 reserved, R146). -/
def decodeLoad (w : Word) : Decoded :=
  if fieldFunct3 w = 0#3 then .instr (.lb (fieldRd w) (fieldRs1 w) (fieldImmI w))
  else if fieldFunct3 w = 1#3 then .instr (.lh (fieldRd w) (fieldRs1 w) (fieldImmI w))
  else if fieldFunct3 w = 2#3 then .instr (.lw (fieldRd w) (fieldRs1 w) (fieldImmI w))
  else if fieldFunct3 w = 4#3 then .instr (.lbu (fieldRd w) (fieldRs1 w) (fieldImmI w))
  else if fieldFunct3 w = 5#3 then .instr (.lhu (fieldRd w) (fieldRs1 w) (fieldImmI w))
  else .unlisted (.reservedLoad (fieldRd w))

/-- STORE (R71 column STORE; funct3 3 to 7 reserved, R154). -/
def decodeStore (w : Word) : Decoded :=
  if fieldFunct3 w = 0#3 then .instr (.sb (fieldRs2 w) (fieldRs1 w) (fieldImmS w))
  else if fieldFunct3 w = 1#3 then .instr (.sh (fieldRs2 w) (fieldRs1 w) (fieldImmS w))
  else if fieldFunct3 w = 2#3 then .instr (.sw (fieldRs2 w) (fieldRs1 w) (fieldImmS w))
  else .unlisted .reservedStore

/-- OP-IMM (R71 column OP-IMM): bit 30 is read for funct3 5 only (R72); the other bits above a shift amount are ignored
(R73). -/
def decodeOpImm (w : Word) : Instr :=
  if fieldFunct3 w = 0#3 then .addi (fieldRd w) (fieldRs1 w) (fieldImmI w)
  else if fieldFunct3 w = 1#3 then .slli (fieldRd w) (fieldRs1 w) (fieldRs2 w)
  else if fieldFunct3 w = 2#3 then .slti (fieldRd w) (fieldRs1 w) (fieldImmI w)
  else if fieldFunct3 w = 3#3 then .sltiu (fieldRd w) (fieldRs1 w) (fieldImmI w)
  else if fieldFunct3 w = 4#3 then .xori (fieldRd w) (fieldRs1 w) (fieldImmI w)
  else if fieldFunct3 w = 5#3 then
    if fieldBit30 w then .srai (fieldRd w) (fieldRs1 w) (fieldRs2 w)
    else .srli (fieldRd w) (fieldRs1 w) (fieldRs2 w)
  else if fieldFunct3 w = 6#3 then .ori (fieldRd w) (fieldRs1 w) (fieldImmI w)
  else .andi (fieldRd w) (fieldRs1 w) (fieldImmI w)

/-- OP (R71 column OP): bit 30 is read for funct3 0 and 5 only (R72); the other funct7 bits are ignored (R73). -/
def decodeOp (w : Word) : Instr :=
  if fieldFunct3 w = 0#3 then
    if fieldBit30 w then .sub (fieldRd w) (fieldRs1 w) (fieldRs2 w)
    else .add (fieldRd w) (fieldRs1 w) (fieldRs2 w)
  else if fieldFunct3 w = 1#3 then .sll (fieldRd w) (fieldRs1 w) (fieldRs2 w)
  else if fieldFunct3 w = 2#3 then .slt (fieldRd w) (fieldRs1 w) (fieldRs2 w)
  else if fieldFunct3 w = 3#3 then .sltu (fieldRd w) (fieldRs1 w) (fieldRs2 w)
  else if fieldFunct3 w = 4#3 then .xor (fieldRd w) (fieldRs1 w) (fieldRs2 w)
  else if fieldFunct3 w = 5#3 then
    if fieldBit30 w then .sra (fieldRd w) (fieldRs1 w) (fieldRs2 w)
    else .srl (fieldRd w) (fieldRs1 w) (fieldRs2 w)
  else if fieldFunct3 w = 6#3 then .or (fieldRd w) (fieldRs1 w) (fieldRs2 w)
  else .and (fieldRd w) (fieldRs1 w) (fieldRs2 w)

/-- The words outside the nine opcodes: FENCE (R201), the words ECALL and EBREAK (R202, R203), and everything else
(R204). -/
def decodeOther (w : Word) : Decoded :=
  if fieldOpcode w = opMiscMem ∧ fieldFunct3 w = 0#3 then
    .instr (.fence (fieldRd w) (fieldRs1 w) (w.extractLsb' 28 4) (w.extractLsb' 24 4) (w.extractLsb' 20 4))
  else if w = 0x00000073#32 then .instr .ecall
  else if w = 0x00100073#32 then .instr .ebreak
  else .unlisted (.otherOpcode (fieldRd w))

/-- The decoder (R70): exactly one arm for every word. -/
def decode (w : Word) : Decoded :=
  if fieldOpcode w = opLui then .instr (.lui (fieldRd w) (fieldImmU w))
  else if fieldOpcode w = opAuipc then .instr (.auipc (fieldRd w) (fieldImmU w))
  else if fieldOpcode w = opJal then .instr (.jal (fieldRd w) (fieldImmJ w))
  else if fieldOpcode w = opJalr then .instr (.jalr (fieldRd w) (fieldRs1 w) (fieldImmI w))
  else if fieldOpcode w = opBranch then decodeBranch w
  else if fieldOpcode w = opLoad then decodeLoad w
  else if fieldOpcode w = opStore then decodeStore w
  else if fieldOpcode w = opOpImm then .instr (decodeOpImm w)
  else if fieldOpcode w = opOp then .instr (decodeOp w)
  else decodeOther w

/-- The word that four bytes at rising addresses make, least significant first (R47). -/
def wordOfBytes (b0 b1 b2 b3 : Byte) : Word := b3 ++ b2 ++ b1 ++ b0

/-- Byte `k` (0 to 3) of a word, bits `8k+7 : 8k` (R44). -/
def byteOfWord (w : Word) (k : Nat) : Byte := w.extractLsb' (8 * k) 8

/-- The decoder on the four bytes of an instruction as they lie in memory. -/
def decodeBytes (b0 b1 b2 b3 : Byte) : Decoded := decode (wordOfBytes b0 b1 b2 b3)

/-- The instruction read from a word numbered as spec/opcode_table.json numbers it; bits from `nbits` up are 0. -/
def decodeTableWord (nbits w : Nat) : Option Instr :=
  let v : Word := BitVec.ofNat 32 (w % 2 ^ nbits)
  match decodeBytes (byteOfWord v 0) (byteOfWord v 1) (byteOfWord v 2) (byteOfWord v 3) with
  | .instr i => some i
  | .unlisted _ => none

/-! ### The opcode table and decode_status (R77) -/

/-- The row's mnemonic of each instruction. -/
def Instr.mnemonic : Instr → String
  | .lui _ _ => "LUI"
  | .auipc _ _ => "AUIPC"
  | .jal _ _ => "JAL"
  | .jalr _ _ _ => "JALR"
  | .beq _ _ _ => "BEQ"
  | .bne _ _ _ => "BNE"
  | .blt _ _ _ => "BLT"
  | .bge _ _ _ => "BGE"
  | .bltu _ _ _ => "BLTU"
  | .bgeu _ _ _ => "BGEU"
  | .lb _ _ _ => "LB"
  | .lh _ _ _ => "LH"
  | .lw _ _ _ => "LW"
  | .lbu _ _ _ => "LBU"
  | .lhu _ _ _ => "LHU"
  | .sb _ _ _ => "SB"
  | .sh _ _ _ => "SH"
  | .sw _ _ _ => "SW"
  | .addi _ _ _ => "ADDI"
  | .slti _ _ _ => "SLTI"
  | .sltiu _ _ _ => "SLTIU"
  | .xori _ _ _ => "XORI"
  | .ori _ _ _ => "ORI"
  | .andi _ _ _ => "ANDI"
  | .slli _ _ _ => "SLLI"
  | .srli _ _ _ => "SRLI"
  | .srai _ _ _ => "SRAI"
  | .add _ _ _ => "ADD"
  | .sub _ _ _ => "SUB"
  | .sll _ _ _ => "SLL"
  | .slt _ _ _ => "SLT"
  | .sltu _ _ _ => "SLTU"
  | .xor _ _ _ => "XOR"
  | .srl _ _ _ => "SRL"
  | .sra _ _ _ => "SRA"
  | .or _ _ _ => "OR"
  | .and _ _ _ => "AND"
  | .fence _ _ _ _ _ => "FENCE"
  | .ecall => "ECALL"
  | .ebreak => "EBREAK"

/-- A row of spec/opcode_table.json: what the block's decoder tests, and the standard encoding. -/
structure OpRow where
  mnemonic : String
  value : Word
  mask : Word
  stdValue : Word
  stdMask : Word
  deriving DecidableEq, Repr

def OpRow.matchesBlock (r : OpRow) (w : Word) : Bool := w &&& r.mask == r.value
def OpRow.matchesStd (r : OpRow) (w : Word) : Bool := w &&& r.stdMask == r.stdValue

def rowsUpperAndJump : List OpRow :=
  [ ⟨"LUI", 0x00000037#32, 0x0000007F#32, 0x00000037#32, 0x0000007F#32⟩
  , ⟨"AUIPC", 0x00000017#32, 0x0000007F#32, 0x00000017#32, 0x0000007F#32⟩
  , ⟨"JAL", 0x0000006F#32, 0x0000007F#32, 0x0000006F#32, 0x0000007F#32⟩
  , ⟨"JALR", 0x00000067#32, 0x0000007F#32, 0x00000067#32, 0x0000707F#32⟩ ]

def rowsBranch : List OpRow :=
  [ ⟨"BEQ", 0x00000063#32, 0x0000707F#32, 0x00000063#32, 0x0000707F#32⟩
  , ⟨"BNE", 0x00001063#32, 0x0000707F#32, 0x00001063#32, 0x0000707F#32⟩
  , ⟨"BLT", 0x00004063#32, 0x0000707F#32, 0x00004063#32, 0x0000707F#32⟩
  , ⟨"BGE", 0x00005063#32, 0x0000707F#32, 0x00005063#32, 0x0000707F#32⟩
  , ⟨"BLTU", 0x00006063#32, 0x0000707F#32, 0x00006063#32, 0x0000707F#32⟩
  , ⟨"BGEU", 0x00007063#32, 0x0000707F#32, 0x00007063#32, 0x0000707F#32⟩ ]

def rowsLoad : List OpRow :=
  [ ⟨"LB", 0x00000003#32, 0x0000707F#32, 0x00000003#32, 0x0000707F#32⟩
  , ⟨"LH", 0x00001003#32, 0x0000707F#32, 0x00001003#32, 0x0000707F#32⟩
  , ⟨"LW", 0x00002003#32, 0x0000707F#32, 0x00002003#32, 0x0000707F#32⟩
  , ⟨"LBU", 0x00004003#32, 0x0000707F#32, 0x00004003#32, 0x0000707F#32⟩
  , ⟨"LHU", 0x00005003#32, 0x0000707F#32, 0x00005003#32, 0x0000707F#32⟩ ]

def rowsStore : List OpRow :=
  [ ⟨"SB", 0x00000023#32, 0x0000707F#32, 0x00000023#32, 0x0000707F#32⟩
  , ⟨"SH", 0x00001023#32, 0x0000707F#32, 0x00001023#32, 0x0000707F#32⟩
  , ⟨"SW", 0x00002023#32, 0x0000707F#32, 0x00002023#32, 0x0000707F#32⟩ ]

def rowsOpImm : List OpRow :=
  [ ⟨"ADDI", 0x00000013#32, 0x0000707F#32, 0x00000013#32, 0x0000707F#32⟩
  , ⟨"SLTI", 0x00002013#32, 0x0000707F#32, 0x00002013#32, 0x0000707F#32⟩
  , ⟨"SLTIU", 0x00003013#32, 0x0000707F#32, 0x00003013#32, 0x0000707F#32⟩
  , ⟨"XORI", 0x00004013#32, 0x0000707F#32, 0x00004013#32, 0x0000707F#32⟩
  , ⟨"ORI", 0x00006013#32, 0x0000707F#32, 0x00006013#32, 0x0000707F#32⟩
  , ⟨"ANDI", 0x00007013#32, 0x0000707F#32, 0x00007013#32, 0x0000707F#32⟩
  , ⟨"SLLI", 0x00001013#32, 0x0000707F#32, 0x00001013#32, 0xFE00707F#32⟩
  , ⟨"SRLI", 0x00005013#32, 0x4000707F#32, 0x00005013#32, 0xFE00707F#32⟩
  , ⟨"SRAI", 0x40005013#32, 0x4000707F#32, 0x40005013#32, 0xFE00707F#32⟩ ]

def rowsOp : List OpRow :=
  [ ⟨"ADD", 0x00000033#32, 0x4000707F#32, 0x00000033#32, 0xFE00707F#32⟩
  , ⟨"SUB", 0x40000033#32, 0x4000707F#32, 0x40000033#32, 0xFE00707F#32⟩
  , ⟨"SLL", 0x00001033#32, 0x0000707F#32, 0x00001033#32, 0xFE00707F#32⟩
  , ⟨"SLT", 0x00002033#32, 0x0000707F#32, 0x00002033#32, 0xFE00707F#32⟩
  , ⟨"SLTU", 0x00003033#32, 0x0000707F#32, 0x00003033#32, 0xFE00707F#32⟩
  , ⟨"XOR", 0x00004033#32, 0x0000707F#32, 0x00004033#32, 0xFE00707F#32⟩
  , ⟨"SRL", 0x00005033#32, 0x4000707F#32, 0x00005033#32, 0xFE00707F#32⟩
  , ⟨"SRA", 0x40005033#32, 0x4000707F#32, 0x40005033#32, 0xFE00707F#32⟩
  , ⟨"OR", 0x00006033#32, 0x0000707F#32, 0x00006033#32, 0xFE00707F#32⟩
  , ⟨"AND", 0x00007033#32, 0x0000707F#32, 0x00007033#32, 0xFE00707F#32⟩ ]

def rowsNoEffect : List OpRow :=
  [ ⟨"FENCE", 0x0000000F#32, 0x0000707F#32, 0x0000000F#32, 0x0000707F#32⟩
  , ⟨"ECALL", 0x00000073#32, 0xFFFFFFFF#32, 0x00000073#32, 0xFFFFFFFF#32⟩
  , ⟨"EBREAK", 0x00100073#32, 0xFFFFFFFF#32, 0x00100073#32, 0xFFFFFFFF#32⟩ ]

/-- The 37 rows whose rule is in files 41 to 46. -/
def rows37 : List OpRow :=
  rowsUpperAndJump ++ rowsBranch ++ rowsLoad ++ rowsStore ++ rowsOpImm ++ rowsOp

/-- All 40 rows. -/
def opRows : List OpRow := rows37 ++ rowsNoEffect

/-- `decode_status` (R77): no state depends on it. -/
def decodeStatus (w : Word) : DecodeStatus :=
  if rows37.any (fun r => r.matchesStd w) then .ok
  else if rows37.any (fun r => r.matchesBlock w) then .aliased
  else if w &&& 0x0000707F#32 = 0x0000000F#32 ∨ w = 0x00000073#32 ∨ w = 0x00100073#32 then .noEffect
  else .unrecognized

/-! ### The encoder: the formats of R62 -/

def encR (funct7 : BitVec 7) (rs2 rs1 : RegIdx) (funct3 : BitVec 3) (rd : RegIdx) (opcode : BitVec 7) : Word :=
  funct7 ++ rs2 ++ rs1 ++ funct3 ++ rd ++ opcode

def encI (imm : BitVec 12) (rs1 : RegIdx) (funct3 : BitVec 3) (rd : RegIdx) (opcode : BitVec 7) : Word :=
  imm ++ rs1 ++ funct3 ++ rd ++ opcode

def encS (imm : BitVec 12) (rs2 rs1 : RegIdx) (funct3 : BitVec 3) (opcode : BitVec 7) : Word :=
  imm.extractLsb' 5 7 ++ rs2 ++ rs1 ++ funct3 ++ imm.extractLsb' 0 5 ++ opcode

def encB (off : BitVec 13) (rs2 rs1 : RegIdx) (funct3 : BitVec 3) (opcode : BitVec 7) : Word :=
  off.extractLsb' 12 1 ++ off.extractLsb' 5 6 ++ rs2 ++ rs1 ++ funct3 ++ off.extractLsb' 1 4 ++ off.extractLsb' 11 1
    ++ opcode

def encU (imm : BitVec 20) (rd : RegIdx) (opcode : BitVec 7) : Word := imm ++ rd ++ opcode

def encJ (off : BitVec 21) (rd : RegIdx) (opcode : BitVec 7) : Word :=
  off.extractLsb' 20 1 ++ off.extractLsb' 1 10 ++ off.extractLsb' 11 1 ++ off.extractLsb' 12 8 ++ rd ++ opcode

/-- FENCE, an I-type word whose immediate is fm, pred, succ (R201 and its row). -/
def encFence (rd rs1 : RegIdx) (fm pred succ : BitVec 4) : Word :=
  fm ++ pred ++ succ ++ rs1 ++ 0#3 ++ rd ++ opMiscMem

/-- The standard word of an instruction: the ignored bits (R73) have their standard values (`std_match`). -/
def encode : Instr → Word
  | .lui rd imm => encU imm rd opLui
  | .auipc rd imm => encU imm rd opAuipc
  | .jal rd off => encJ off rd opJal
  | .jalr rd rs1 imm => encI imm rs1 0#3 rd opJalr
  | .beq rs1 rs2 off => encB off rs2 rs1 0#3 opBranch
  | .bne rs1 rs2 off => encB off rs2 rs1 1#3 opBranch
  | .blt rs1 rs2 off => encB off rs2 rs1 4#3 opBranch
  | .bge rs1 rs2 off => encB off rs2 rs1 5#3 opBranch
  | .bltu rs1 rs2 off => encB off rs2 rs1 6#3 opBranch
  | .bgeu rs1 rs2 off => encB off rs2 rs1 7#3 opBranch
  | .lb rd rs1 imm => encI imm rs1 0#3 rd opLoad
  | .lh rd rs1 imm => encI imm rs1 1#3 rd opLoad
  | .lw rd rs1 imm => encI imm rs1 2#3 rd opLoad
  | .lbu rd rs1 imm => encI imm rs1 4#3 rd opLoad
  | .lhu rd rs1 imm => encI imm rs1 5#3 rd opLoad
  | .sb rs2 rs1 imm => encS imm rs2 rs1 0#3 opStore
  | .sh rs2 rs1 imm => encS imm rs2 rs1 1#3 opStore
  | .sw rs2 rs1 imm => encS imm rs2 rs1 2#3 opStore
  | .addi rd rs1 imm => encI imm rs1 0#3 rd opOpImm
  | .slti rd rs1 imm => encI imm rs1 2#3 rd opOpImm
  | .sltiu rd rs1 imm => encI imm rs1 3#3 rd opOpImm
  | .xori rd rs1 imm => encI imm rs1 4#3 rd opOpImm
  | .ori rd rs1 imm => encI imm rs1 6#3 rd opOpImm
  | .andi rd rs1 imm => encI imm rs1 7#3 rd opOpImm
  | .slli rd rs1 shamt => encR 0b0000000#7 shamt rs1 1#3 rd opOpImm
  | .srli rd rs1 shamt => encR 0b0000000#7 shamt rs1 5#3 rd opOpImm
  | .srai rd rs1 shamt => encR 0b0100000#7 shamt rs1 5#3 rd opOpImm
  | .add rd rs1 rs2 => encR 0b0000000#7 rs2 rs1 0#3 rd opOp
  | .sub rd rs1 rs2 => encR 0b0100000#7 rs2 rs1 0#3 rd opOp
  | .sll rd rs1 rs2 => encR 0b0000000#7 rs2 rs1 1#3 rd opOp
  | .slt rd rs1 rs2 => encR 0b0000000#7 rs2 rs1 2#3 rd opOp
  | .sltu rd rs1 rs2 => encR 0b0000000#7 rs2 rs1 3#3 rd opOp
  | .xor rd rs1 rs2 => encR 0b0000000#7 rs2 rs1 4#3 rd opOp
  | .srl rd rs1 rs2 => encR 0b0000000#7 rs2 rs1 5#3 rd opOp
  | .sra rd rs1 rs2 => encR 0b0100000#7 rs2 rs1 5#3 rd opOp
  | .or rd rs1 rs2 => encR 0b0000000#7 rs2 rs1 6#3 rd opOp
  | .and rd rs1 rs2 => encR 0b0000000#7 rs2 rs1 7#3 rd opOp
  | .fence rd rs1 fm pred succ => encFence rd rs1 fm pred succ
  | .ecall => 0x00000073#32
  | .ebreak => 0x00100073#32

end Sys2Proof
end

