-- ==== Sys2Proof/Machine/Flags.lean ====
section
/-! DEFINITION. The comparisons. The block has no flags, condition codes or predicate registers (R28): a comparison delivers
a word to rd or the taken decision of a branch, and nothing is kept. -/

namespace Sys2Proof.Machine

/-- `a <s b` (R8): the two's-complement integers compared. -/
def ltSigned (a b : Word) : Bool := decide (a.toInt < b.toInt)

/-- `a <u b` (R8): the unsigned integers compared. -/
def ltUnsigned (a b : Word) : Bool := decide (a.toNat < b.toNat)

/-- `bool(c)` (R8): the word 1 when `c` holds, else 0. -/
def boolWord (c : Bool) : Word := if c then 1#32 else 0#32

/-- The branch comparator by funct3 (R130); the reserved values 2 and 3 are never taken (R137). -/
def branchTaken (funct3 : BitVec 3) (a b : Word) : Bool :=
  if funct3 = 0#3 then a == b
  else if funct3 = 1#3 then a != b
  else if funct3 = 4#3 then ltSigned a b
  else if funct3 = 5#3 then !ltSigned a b
  else if funct3 = 6#3 then ltUnsigned a b
  else if funct3 = 7#3 then !ltUnsigned a b
  else false

end Sys2Proof.Machine
end

