-- ==== Sys2Proof/Machine/Alu.lean ====
section
/-! DEFINITION. The ALU (R96) and its operation select (R97). -/

namespace Sys2Proof.Machine

/-- The ten operations (R96). -/
inductive AluOp where
  | add
  | sub
  | sll
  | slt
  | sltu
  | xor
  | srl
  | sra
  | or
  | and
  deriving DecidableEq, Repr

/-- The shift amount: the low 5 bits of the second operand (R68). -/
def shiftAmount (b : Word) : Nat := (b.extractLsb' 0 5).toNat

/-- `alu(op, a, b)` (R96). -/
def alu : AluOp → Word → Word → Word
  | .add, a, b => a + b
  | .sub, a, b => a - b
  | .sll, a, b => a <<< shiftAmount b
  | .slt, a, b => boolWord (ltSigned a b)
  | .sltu, a, b => boolWord (ltUnsigned a b)
  | .xor, a, b => a ^^^ b
  | .srl, a, b => a >>> shiftAmount b
  | .sra, a, b => a.sshiftRight (shiftAmount b)
  | .or, a, b => a ||| b
  | .and, a, b => a &&& b

/-- The operation select of OP and OP-IMM from funct3 and bit 30 (R97); `isOp` is true for OP, whose funct3 0 reads
bit 30 (R72). -/
def aluSelect (isOp : Bool) (funct3 : BitVec 3) (bit30 : Bool) : AluOp :=
  if funct3 = 0#3 then (if isOp && bit30 then .sub else .add)
  else if funct3 = 1#3 then .sll
  else if funct3 = 2#3 then .slt
  else if funct3 = 3#3 then .sltu
  else if funct3 = 4#3 then .xor
  else if funct3 = 5#3 then (if bit30 then .sra else .srl)
  else if funct3 = 6#3 then .or
  else .and

end Sys2Proof.Machine
end

