-- ==== Sys2Proof/Config.lean ====
section
/-! DEFINITION. What the spec leaves to the configuration (R6): the values State.reset takes.
Every state carries its own BASE and MEM_SIZE (R31), so only statements about State.reset depend on these two. -/

namespace Sys2Proof.Config

/-- BASE in `State.reset`. DESIGN CHOICE (log 1): BASE is an OPEN parameter (R6, D18) with no value in the spec;
0x00010000 is the example value of spec/95_test_vectors.md. Nonzero and even, as R6 requires.
Unsafe for a statement about `State.reset` alone. -/
def base : Word := 0x00010000#32

/-- MEM_SIZE in `State.reset`: the reference value 64 MiB (R6, D19; log 3). -/
def memSize : Nat := 0x04000000

/-- The premises R6 puts on the two parameters: BASE nonzero and even, 4 <= MEM_SIZE <= 2^32. -/
def legal (base : Word) (memSize : Nat) : Bool :=
  base != 0#32 && !base.getLsbD 0 && decide (4 ≤ memSize) && decide (memSize ≤ 4294967296)

end Sys2Proof.Config
end

