-- ==== Sys2Proof/Machine/State.lean ====
section
/-! DEFINITION. The machine state (spec/10_state.md) and the reasons a step can stop. The state is the Machine State record
of the source, whole: register file, program counter, memory buffer, base and size (R20, R25, R31); there is no other
state (R28, R29, R30, R32). -/

namespace Sys2Proof.Machine

/-- The memory buffer (R31) as a sparse list of (buffer index, byte), indices strictly rising, no byte equal to what an
unlisted index reads as (`Memory.wf` in Machine/Memory.lean). Every content of the buffer is one such list. Keys are buffer
indices, not architectural addresses (log 4). -/
abbrev Memory := List Host.Cell

structure State where
  /-- x0 to x31 (R20); cell 0 is x0's storage cell (R21). -/
  regs : Vector Word 32
  /-- The address of the next instruction to fetch (R25). -/
  pc : Word
  /-- The bytes of the buffer (R31). -/
  mem : Memory
  /-- BASE: the architectural address of buffer byte 0, fixed for a run (R31). -/
  base : Word
  /-- MEM_SIZE: how many bytes the buffer has, fixed for a run (R31). -/
  memSize : Nat
  deriving DecidableEq, Repr

/-- Which access an `OutOfBounds` fault is about (R211, `fault_kind`). -/
inductive AccessKind where
  | fetch
  | load
  | store
  deriving DecidableEq, Repr

/-- The faults. -/
inductive Fault where
  /-- `OutOfBounds(kind, addr)` (R211): raised by the fetch of every step and by the data access of LB, LH, LW, LBU, LHU, SB,
  SH, SW when the access is not wholly inside the buffer. The state is the one before the step (R212; log 5). Safe: the
  model stops as the spec says; the reference's behaviour is undefined there. -/
  | outOfBounds (kind : AccessKind) (addr : Word)
  deriving DecidableEq, Repr

/-- The refusals. -/
inductive Refusal where
  /-- Raised by an arm of `exec` whose instruction has no meaning yet: none here. Safe: the model only says less. -/
  | notModelled (mnemonic : String)
  deriving DecidableEq, Repr

/-- The state right after `rst` on a buffer with nothing listed (R230): every register 0, pc at BASE. BASE and MEM_SIZE are
Config's (log 1, log 3); what the buffer holds is log 2. -/
def State.reset : State where
  regs := Vector.replicate 32 0#32
  pc := Config.base
  mem := []
  base := Config.base
  memSize := Config.memSize

end Sys2Proof.Machine
end

