-- ==== Sys2Proof/Machine/Memory.lean ====
section
/-! DEFINITION. The memory buffer by buffer index: one byte read and written, the canonical form, and the little-endian
multi-byte read and write (R31, R43, R44, R47, R48). Byte order is decided here once. -/

namespace Sys2Proof.Machine

/-- What an unlisted buffer index reads as. DESIGN CHOICE (log 2): the spec leaves the launch content unspecified (D20,
R231). Unsafe only for statements about a memory with nothing listed, such as `State.reset`'s. -/
def unlistedByte : Byte := 0#8

/-- The byte at a buffer index. -/
def Memory.read : Memory → Nat → Byte
  | [], _ => unlistedByte
  | (k, b) :: rest, i => if k = i then b else Memory.read rest i

/-- Put an entry in front of larger indices, unless its byte is what an unlisted index reads as. -/
def Memory.put (i : Nat) (v : Byte) (rest : Memory) : Memory :=
  if v = unlistedByte then rest else (i, v) :: rest

/-- Write one byte, keeping the canonical form. -/
def Memory.write : Memory → Nat → Byte → Memory
  | [], i, v => Memory.put i v []
  | (k, b) :: rest, i, v =>
    if k < i then (k, b) :: Memory.write rest i v
    else if k = i then Memory.put i v rest
    else Memory.put i v ((k, b) :: rest)

/-- Every index listed is above `lo`, rising, and no byte is the unlisted one. -/
def Memory.wfFrom : Option Nat → Memory → Bool
  | _, [] => true
  | lo, (k, b) :: rest =>
    (match lo with
      | none => true
      | some l => decide (l < k))
    && (b != unlistedByte) && Memory.wfFrom (some k) rest

/-- The canonical form: indices strictly rising, no byte equal to what an unlisted index reads as. -/
def Memory.wf (m : Memory) : Bool := Memory.wfFrom none m

/-- Every listed index is a byte of the buffer (R31). -/
def Memory.within (size : Nat) (m : Memory) : Bool := m.all (fun c => decide (c.1 < size))

/-- `n` bytes from index `i`, least significant first, padded with zeros to a word (R43, R57 `ls_rdata`). -/
def Memory.readLE (m : Memory) (i : Nat) : Nat → Word
  | 0 => 0#32
  | n + 1 => (Memory.read m i).setWidth 32 ||| (Memory.readLE m (i + 1) n <<< 8)

/-- The low `8n` bits of `v` to `n` bytes from index `i`, least significant first (R44). -/
def Memory.writeLE (m : Memory) (i : Nat) : Nat → Word → Memory
  | 0, _ => m
  | n + 1, v => Memory.writeLE (Memory.write m i (v.setWidth 8)) (i + 1) n (v >>> 8)

end Sys2Proof.Machine
end

