-- ==== Sys2Proof/Machine/Ops.lean ====
section
/-! DEFINITION. The shared operations over registers, pc and memory (spec/10_state.md, 20_memory.md, 40_step_engine.md).
The spec has no exception, no trap entry and no trap return (R210, R216, R217): the one way a step can end without a next
state is the `OutOfBounds` fault, raised in one place, `raiseOutOfBounds` (R211, R212). -/

namespace Sys2Proof.Machine

/-- The outcome of a step. -/
abbrev Result := Host.Outcome State Fault Refusal

/-! ### Registers (R20, R21, R23) -/

/-- The cell of a register in the register file. -/
def regCell (r : RegIdx) (s : State) : Word := s.regs[r.toNat]'(r.isLt)

/-- A register read: x0 reads 0 (R21). -/
def readReg (r : RegIdx) (s : State) : Word := if r = 0#5 then 0#32 else regCell r s

/-- The write port: a write addressed to x0 has no effect (R23). -/
def writeReg (r : RegIdx) (v : Word) (s : State) : State :=
  if r = 0#5 then s else { s with regs := s.regs.set r.toNat v r.isLt }

/-- `pc <- target` (R101). -/
def setPc (target : Word) (s : State) : State := { s with pc := target }

/-- `pc + 4` modulo 2^32 (R26). -/
def pcPlus4 (s : State) : Word := s.pc + 4#32

/-- The commit of a step without a store (R92, R103): the write-back to a nonzero `wd`, and the next pc. -/
def commit (wd : RegIdx) (result next : Word) (s : State) : State := setPc next (writeReg wd result s)

/-! ### Address translation and bounds (R41, R42) -/

/-- The buffer index of an address, `(addr - BASE) mod 2^32` (R41). -/
def translate (s : State) (addr : Word) : Nat := (addr - s.base).toNat

/-- All `n` bytes at `addr` lie in the buffer: `Translate(addr) <= MEM_SIZE - n` (R42), written without a natural-number
subtraction (log 12). -/
def inBounds (s : State) (addr : Word) (n : Nat) : Bool := decide (translate s addr + n ≤ s.memSize)

/-- The size of the text region, the buffer index at which the stack region begins: `MEM_SIZE / 2` (R6 TEXT_SIZE, R50). DESIGN
CHOICE (log 14): for an odd MEM_SIZE the spec gives no rounding and the model rounds down, so the middle index
`floor(MEM_SIZE / 2)` counts as stack. No step reads this: the split is not enforced by the block. -/
def textSize (memSize : Nat) : Nat := memSize / 2

/-- `raise OutOfBounds(kind, addr)` (R10, R211, R212): the step ends and commits nothing. -/
def raiseOutOfBounds (kind : AccessKind) (addr : Word) : Result := .fault (.outOfBounds kind addr)

/-- The byte at an architectural address, where the buffer backs it (R40, R42). -/
def byteAt (s : State) (addr : Word) : Option Byte :=
  if inBounds s addr 1 then some (Memory.read s.mem (translate s addr)) else none

/-! ### The load/store interface (R43, R44, R45, R57) -/

/-- The width of a data access (R45). -/
inductive AccessSize where
  | byte
  | half
  | word
  deriving DecidableEq, Repr

def AccessSize.bytes : AccessSize → Nat
  | .byte => 1
  | .half => 2
  | .word => 4

/-- The unextended value of an in-bounds read of `n` bytes (R43). -/
def memValue (s : State) (addr : Word) (n : Nat) : Word := Memory.readLE s.mem (translate s addr) n

/-- `Fetch(pc)` (R47): the instruction word, or nothing when the pc is out of bounds. -/
def fetchWord (s : State) : Option Word :=
  if inBounds s s.pc 4 then some (memValue s s.pc 4) else none

/-- A load (R140): bounds check, read, extension, write-back, pc + 4. With rd = x0 the read still happens (R147). -/
def loadTo (size : AccessSize) (ext : Word → Word) (rd : RegIdx) (addr : Word) (s : State) : Result :=
  if inBounds s addr size.bytes then .next (commit rd (ext (memValue s addr size.bytes)) (pcPlus4 s) s)
  else raiseOutOfBounds .load addr

/-- `MemWrite(addr, n, v)` of an in-bounds access (R44). -/
def storeBytes (addr : Word) (n : Nat) (v : Word) (s : State) : State :=
  { s with mem := Memory.writeLE s.mem (translate s addr) n v }

/-- A store (R150): bounds check, write, pc + 4; no register is written. -/
def storeFrom (size : AccessSize) (addr v : Word) (s : State) : Result :=
  if inBounds s addr size.bytes then .next (setPc (pcPlus4 s) (storeBytes addr size.bytes v s))
  else raiseOutOfBounds .store addr

/-- Place an instruction word at the pc; a pc that cannot be fetched from is first put at BASE (log 10). -/
def placeWordAtPc (s : State) (w : Word) : State :=
  if inBounds s s.pc 4 then storeBytes s.pc 4 w s else storeBytes s.base 4 w (setPc s.base s)

/-! ### The other shapes of a step -/

/-- The write-back of a computed word, then pc + 4 (R92, R99). -/
def writeBack (rd : RegIdx) (result : Word) (s : State) : Result := .next (commit rd result (pcPlus4 s) s)

/-- The link `pc + 4` to rd, and a jump (R120, R121). -/
def linkAndJump (rd : RegIdx) (target : Word) (s : State) : Result := .next (commit rd (pcPlus4 s) target s)

/-- A branch (R130): no write-back; the target when taken, else pc + 4. -/
def branchTo (taken : Bool) (target : Word) (s : State) : Result :=
  .next (setPc (if taken then target else pcPlus4 s) s)

/-- Only the pc advances. -/
def advance (s : State) : Result := .next (setPc (pcPlus4 s) s)

end Sys2Proof.Machine
end

