-- ==== Sys2Proof/Machine/Operands.lean ====
section
/-! DEFINITION. The operand forms (R98): a register, a widened immediate, a shift amount, the pc; and the effective address
of loads and stores, base register plus signed 12-bit displacement, with no update of the base (R140, R150). Operands are
read from the state at the start of the step (R22, R102). -/

namespace Sys2Proof.Machine

/-- A register operand (R98). -/
def regOperand (r : RegIdx) (s : State) : Word := readReg r s

/-- The sign-extended 12-bit immediate of JALR, LOAD, OP-IMM and STORE (R63, R64). -/
def immOperand (imm : BitVec 12) : Word := sext12 imm

/-- The second operand of SLLI, SRLI, SRAI: its low 5 bits are the shift amount (R68). -/
def shamtOperand (shamt : BitVec 5) : Word := shamt.setWidth 32

/-- The 32-bit upper immediate of LUI and AUIPC (R66). -/
def upperOperand (imm : BitVec 20) : Word := upper20 imm

/-- The widened branch offset (R65). -/
def branchOffset (off : BitVec 13) : Word := sext13 off

/-- The widened JAL offset (R67). -/
def jalOffset (off : BitVec 21) : Word := sext21 off

/-- The effective address `x[rs1] + imm` modulo 2^32 (R140, R150). -/
def effectiveAddress (rs1 : RegIdx) (imm : BitVec 12) (s : State) : Word :=
  alu .add (regOperand rs1 s) (immOperand imm)

/-- The JALR target: `x[rs1] + immI` with bit 0 cleared (R101, R121). -/
def jalrTarget (rs1 : RegIdx) (imm : BitVec 12) (s : State) : Word :=
  alu .add (regOperand rs1 s) (immOperand imm) &&& 0xFFFFFFFE#32

/-- The load extensions (R69) of a value zero-padded to a word. -/
def extByteSigned (v : Word) : Word := (v.setWidth 8).signExtend 32
def extHalfSigned (v : Word) : Word := (v.setWidth 16).signExtend 32
def extWord (v : Word) : Word := v
def extByteUnsigned (v : Word) : Word := (v.setWidth 8).setWidth 32
def extHalfUnsigned (v : Word) : Word := (v.setWidth 16).setWidth 32

end Sys2Proof.Machine
end

