-- ==== Sys2Proof/Machine/Branches.lean ====
section
/-! DEFINITION. The meanings of the six branches and of the reserved BRANCH words (spec/43_branches.md). No branch accesses memory (R138). -/

namespace Sys2Proof.Machine

/-- BEQ (R131). -/
def execBeq (rs1 rs2 : RegIdx) (off : BitVec 13) (s : State) : Result :=
  branchTo (regOperand rs1 s == regOperand rs2 s) (s.pc + branchOffset off) s

/-- BNE (R132). -/
def execBne (rs1 rs2 : RegIdx) (off : BitVec 13) (s : State) : Result :=
  branchTo (regOperand rs1 s != regOperand rs2 s) (s.pc + branchOffset off) s

/-- BLT (R133). -/
def execBlt (rs1 rs2 : RegIdx) (off : BitVec 13) (s : State) : Result :=
  branchTo (ltSigned (regOperand rs1 s) (regOperand rs2 s)) (s.pc + branchOffset off) s

/-- BGE (R134). -/
def execBge (rs1 rs2 : RegIdx) (off : BitVec 13) (s : State) : Result :=
  branchTo (!ltSigned (regOperand rs1 s) (regOperand rs2 s)) (s.pc + branchOffset off) s

/-- BLTU (R135). -/
def execBltu (rs1 rs2 : RegIdx) (off : BitVec 13) (s : State) : Result :=
  branchTo (ltUnsigned (regOperand rs1 s) (regOperand rs2 s)) (s.pc + branchOffset off) s

/-- BGEU (R136). -/
def execBgeu (rs1 rs2 : RegIdx) (off : BitVec 13) (s : State) : Result :=
  branchTo (!ltUnsigned (regOperand rs1 s) (regOperand rs2 s)) (s.pc + branchOffset off) s

/-- BRANCH with funct3 2 or 3 (R137): never taken, no register written, no memory access. -/
def execReservedBranch (s : State) : Result := advance s

end Sys2Proof.Machine
end

