-- ==== Sys2Proof/Machine/IntegerImmediate.lean ====
section
/-! DEFINITION. The meanings of the register-immediate group (spec/46_integer_ops.md section 1; R160). -/

namespace Sys2Proof.Machine

/-- ADDI (R161). -/
def execAddi (rd rs1 : RegIdx) (imm : BitVec 12) (s : State) : Result :=
  writeBack rd (alu .add (regOperand rs1 s) (immOperand imm)) s

/-- SLTI (R162). -/
def execSlti (rd rs1 : RegIdx) (imm : BitVec 12) (s : State) : Result :=
  writeBack rd (alu .slt (regOperand rs1 s) (immOperand imm)) s

/-- SLTIU (R163). -/
def execSltiu (rd rs1 : RegIdx) (imm : BitVec 12) (s : State) : Result :=
  writeBack rd (alu .sltu (regOperand rs1 s) (immOperand imm)) s

/-- XORI (R164). -/
def execXori (rd rs1 : RegIdx) (imm : BitVec 12) (s : State) : Result :=
  writeBack rd (alu .xor (regOperand rs1 s) (immOperand imm)) s

/-- ORI (R165). -/
def execOri (rd rs1 : RegIdx) (imm : BitVec 12) (s : State) : Result :=
  writeBack rd (alu .or (regOperand rs1 s) (immOperand imm)) s

/-- ANDI (R166). -/
def execAndi (rd rs1 : RegIdx) (imm : BitVec 12) (s : State) : Result :=
  writeBack rd (alu .and (regOperand rs1 s) (immOperand imm)) s

/-- SLLI (R167). -/
def execSlli (rd rs1 : RegIdx) (shamt : BitVec 5) (s : State) : Result :=
  writeBack rd (alu .sll (regOperand rs1 s) (shamtOperand shamt)) s

/-- SRLI (R168). -/
def execSrli (rd rs1 : RegIdx) (shamt : BitVec 5) (s : State) : Result :=
  writeBack rd (alu .srl (regOperand rs1 s) (shamtOperand shamt)) s

/-- SRAI (R169). -/
def execSrai (rd rs1 : RegIdx) (shamt : BitVec 5) (s : State) : Result :=
  writeBack rd (alu .sra (regOperand rs1 s) (shamtOperand shamt)) s

end Sys2Proof.Machine
end

