-- ==== Sys2Proof/Machine/IntegerRegister.lean ====
section
/-! DEFINITION. The meanings of the register-register group (spec/46_integer_ops.md section 2; R170). The M-extension words
and every other funct7 value decode to these instructions (R73, R182). -/

namespace Sys2Proof.Machine

/-- ADD (R171). -/
def execAdd (rd rs1 rs2 : RegIdx) (s : State) : Result :=
  writeBack rd (alu .add (regOperand rs1 s) (regOperand rs2 s)) s

/-- SUB (R172). -/
def execSub (rd rs1 rs2 : RegIdx) (s : State) : Result :=
  writeBack rd (alu .sub (regOperand rs1 s) (regOperand rs2 s)) s

/-- SLL (R173). -/
def execSll (rd rs1 rs2 : RegIdx) (s : State) : Result :=
  writeBack rd (alu .sll (regOperand rs1 s) (regOperand rs2 s)) s

/-- SLT (R174). -/
def execSlt (rd rs1 rs2 : RegIdx) (s : State) : Result :=
  writeBack rd (alu .slt (regOperand rs1 s) (regOperand rs2 s)) s

/-- SLTU (R175). -/
def execSltu (rd rs1 rs2 : RegIdx) (s : State) : Result :=
  writeBack rd (alu .sltu (regOperand rs1 s) (regOperand rs2 s)) s

/-- XOR (R176). -/
def execXor (rd rs1 rs2 : RegIdx) (s : State) : Result :=
  writeBack rd (alu .xor (regOperand rs1 s) (regOperand rs2 s)) s

/-- SRL (R177). -/
def execSrl (rd rs1 rs2 : RegIdx) (s : State) : Result :=
  writeBack rd (alu .srl (regOperand rs1 s) (regOperand rs2 s)) s

/-- SRA (R178). -/
def execSra (rd rs1 rs2 : RegIdx) (s : State) : Result :=
  writeBack rd (alu .sra (regOperand rs1 s) (regOperand rs2 s)) s

/-- OR (R179). -/
def execOr (rd rs1 rs2 : RegIdx) (s : State) : Result :=
  writeBack rd (alu .or (regOperand rs1 s) (regOperand rs2 s)) s

/-- AND (R180). -/
def execAnd (rd rs1 rs2 : RegIdx) (s : State) : Result :=
  writeBack rd (alu .and (regOperand rs1 s) (regOperand rs2 s)) s

end Sys2Proof.Machine
end

