-- ==== Sys2Proof/Machine/Jumps.lean ====
section
/-! DEFINITION. The meanings of JAL and JALR (spec/42_jumps.md). -/

namespace Sys2Proof.Machine

/-- JAL (R120). -/
def execJal (rd : RegIdx) (off : BitVec 21) (s : State) : Result := linkAndJump rd (s.pc + jalOffset off) s

/-- JALR (R121): the target is computed from the old `x[rs1]` (R102). -/
def execJalr (rd rs1 : RegIdx) (imm : BitVec 12) (s : State) : Result := linkAndJump rd (jalrTarget rs1 imm s) s

end Sys2Proof.Machine
end

