-- ==== Sys2Proof/Machine/Loads.lean ====
section
/-! DEFINITION. The meanings of the loads and of the reserved LOAD words (spec/44_loads.md). No alignment is required (R46). -/

namespace Sys2Proof.Machine

/-- LB (R141, R69). -/
def execLb (rd rs1 : RegIdx) (imm : BitVec 12) (s : State) : Result :=
  loadTo .byte extByteSigned rd (effectiveAddress rs1 imm s) s

/-- LH (R142, R69). -/
def execLh (rd rs1 : RegIdx) (imm : BitVec 12) (s : State) : Result :=
  loadTo .half extHalfSigned rd (effectiveAddress rs1 imm s) s

/-- LW (R143, R69). -/
def execLw (rd rs1 : RegIdx) (imm : BitVec 12) (s : State) : Result :=
  loadTo .word extWord rd (effectiveAddress rs1 imm s) s

/-- LBU (R144, R69). -/
def execLbu (rd rs1 : RegIdx) (imm : BitVec 12) (s : State) : Result :=
  loadTo .byte extByteUnsigned rd (effectiveAddress rs1 imm s) s

/-- LHU (R145, R69). -/
def execLhu (rd rs1 : RegIdx) (imm : BitVec 12) (s : State) : Result :=
  loadTo .half extHalfUnsigned rd (effectiveAddress rs1 imm s) s

/-- LOAD with funct3 3, 6 or 7 (R146): no memory access, 0 to rd. -/
def execReservedLoad (rd : RegIdx) (s : State) : Result := writeBack rd 0#32 s

end Sys2Proof.Machine
end

