-- ==== Sys2Proof/Machine/Stores.lean ====
section
/-! DEFINITION. The meanings of the stores and of the reserved STORE words (spec/45_stores.md). No alignment is required (R46). -/

namespace Sys2Proof.Machine

/-- SB (R151). -/
def execSb (rs2 rs1 : RegIdx) (imm : BitVec 12) (s : State) : Result :=
  storeFrom .byte (effectiveAddress rs1 imm s) (regOperand rs2 s) s

/-- SH (R152). -/
def execSh (rs2 rs1 : RegIdx) (imm : BitVec 12) (s : State) : Result :=
  storeFrom .half (effectiveAddress rs1 imm s) (regOperand rs2 s) s

/-- SW (R153). -/
def execSw (rs2 rs1 : RegIdx) (imm : BitVec 12) (s : State) : Result :=
  storeFrom .word (effectiveAddress rs1 imm s) (regOperand rs2 s) s

/-- STORE with funct3 3 to 7 (R154): no memory write, no register written. -/
def execReservedStore (s : State) : Result := advance s

end Sys2Proof.Machine
end

