-- ==== Sys2Proof/Machine/NoEffect.lean ====
section
/-! DEFINITION. The meanings of FENCE, ECALL, EBREAK and of the words outside the opcode table (spec/47_no_effect.md; R137, R146,
R154 for the reserved funct3 values). Nothing traps (R75, R200). -/

namespace Sys2Proof.Machine

/-- The unrecognized path (R200): 0 to a nonzero rd field, pc + 4; no memory access. -/
def unrecognizedPath (rd : RegIdx) (s : State) : Result := writeBack rd 0#32 s

/-- FENCE (R201): the unrecognized path. The rs1, fm, pred and succ fields are not interpreted. -/
def execFence (rd : RegIdx) (s : State) : Result := unrecognizedPath rd s

/-- ECALL (R202): the unrecognized path with rd = 0. -/
def execEcall (s : State) : Result := unrecognizedPath 0#5 s

/-- EBREAK (R203): the unrecognized path with rd = 0. -/
def execEbreak (s : State) : Result := unrecognizedPath 0#5 s

/-- Every other opcode outside the nine (R200, R204, R205). -/
def execOtherOpcode (rd : RegIdx) (s : State) : Result := unrecognizedPath rd s

/-- The effect of a word that no row of the opcode table matches. -/
def execUnlisted (u : Unlisted) (s : State) : Result :=
  match u with
  | .reservedBranch => execReservedBranch s
  | .reservedLoad rd => execReservedLoad rd s
  | .reservedStore => execReservedStore s
  | .otherOpcode rd => execOtherOpcode rd s

end Sys2Proof.Machine
end

