-- ==== Sys2Proof/Machine/UpperImmediate.lean ====
section
/-! DEFINITION. The meanings of LUI and AUIPC (spec/41_upper_immediate.md). -/

namespace Sys2Proof.Machine

/-- LUI (R110). -/
def execLui (rd : RegIdx) (imm : BitVec 20) (s : State) : Result := writeBack rd (upperOperand imm) s

/-- AUIPC (R111): the pc is this instruction's own address. -/
def execAuipc (rd : RegIdx) (imm : BitVec 20) (s : State) : Result :=
  writeBack rd (alu .add s.pc (upperOperand imm)) s

end Sys2Proof.Machine
end

