-- ==== Sys2Proof/Machine/Step.lean ====
section
/-! DEFINITION. One activation of `step` (R92): fetch, decode, run one instruction. -/

namespace Sys2Proof.Machine

/-- What a fetched word does (R92 stages 2 to 5). -/
def execDecoded (d : Decoded) (s : State) : Host.Outcome State Fault Refusal :=
  match d with
  | .instr i => exec i s
  | .unlisted u => execUnlisted u s

/-- One step (R92). An out-of-bounds fetch faults before anything is decoded (R93, R214). The block does not test for
halting (R105). -/
def step (s : State) : Host.Outcome State Fault Refusal :=
  match fetchWord s with
  | none => raiseOutOfBounds .fetch s.pc
  | some w => execDecoded (decode w) s

/-- The state in which `step` fetches the table word `w` (bits from `nbits` up are 0): its four bytes stand at the pc. This
is the Image Loader's act for one word (R232; log 10). Where the pc cannot be fetched from, it is first put at BASE. -/
def State.withFetchWord (s : State) (nbits w : Nat) : State :=
  placeWordAtPc s (BitVec.ofNat 32 (w % 2 ^ nbits))

end Sys2Proof.Machine
end

