-- ==== Sys2Proof/Machine/Driver.lean ====
section
/-! DEFINITION. The run driver and the state reporter (R213, R235, R237, D22): collaborators outside the core, modelled from
their contracts. The block itself never tests for halting (R105). -/

namespace Sys2Proof.Machine

/-- How a driven run stands after some steps (R235). -/
inductive RunStatus where
  /-- pc = 0 before a step: normal halt, the state is final. -/
  | halted (s : State)
  /-- A step faulted; the state is the one before it (R212). -/
  | faulted (s : State) (f : Fault)
  /-- A step was refused: no step of this model is. -/
  | refused (s : State) (r : Refusal)
  /-- Neither yet. -/
  | running (s : State)
  deriving DecidableEq, Repr

/-- At most `n` steps of the run driver: the test pc = 0 stands before every step, the first included (R235, D22). -/
def drive : Nat → State → RunStatus
  | 0, s => if s.pc = 0#32 then .halted s else .running s
  | n + 1, s =>
    if s.pc = 0#32 then .halted s
    else
      match step s with
      | .next t => drive n t
      | .fault f => .faulted s f
      | .refused r => .refused s r

/-- The pc is in the text region, the lower half of the buffer (R50). DESIGN CHOICE (log 14): with an odd MEM_SIZE the middle
index counts as stack (`textSize` rounds down). -/
def inText (s : State) : Bool := decide (translate s s.pc < textSize s.memSize)

/-- The buffer index lies in the stack region (R50; log 14). -/
def inStack (memSize i : Nat) : Bool := decide (textSize memSize ≤ i) && decide (i < memSize)

/-- The stack dump (R237): the bytes of the whole stack region, by buffer index, in the form memory has. DESIGN CHOICE (log 15):
the spec says "a best-effort stack dump" and gives neither its extent nor its form. -/
def stackDump (s : State) : Memory := s.mem.filter (fun c => inStack s.memSize c.1)

/-- What the state reporter renders (R237). -/
structure Report where
  pc : Word
  /-- The instruction word at `pc`, if `pc` is within the text region. -/
  word : Option Word
  regs : Vector Word 32
  stack : Memory
  deriving DecidableEq, Repr

/-- The report of a state (R237): it reads and changes nothing. -/
def report (s : State) : Report where
  pc := s.pc
  word := if inText s then fetchWord s else none
  regs := s.regs
  stack := stackDump s

/-- The run driver with the reporter invoked after each step (R235, R237): the reports in order, and how the run stands. A
faulting step is a step too: its report shows the state it leaves, the unchanged one (R212). -/
def driveReporting : Nat → State → List Report × RunStatus
  | 0, s => ([], if s.pc = 0#32 then .halted s else .running s)
  | n + 1, s =>
    if s.pc = 0#32 then ([], .halted s)
    else
      match step s with
      | .next t => (report t :: (driveReporting n t).1, (driveReporting n t).2)
      | .fault f => ([report s], .faulted s f)
      | .refused r => ([], .refused s r)

end Sys2Proof.Machine
end

