-- ==== Sys2Proof/Machine/Launch.lean ====
section
/-! DEFINITION. Reset and launch (spec/70_reset_and_hazards.md section 1, R33). The collaborators are outside the core (R5);
what they leave in the state before the first step is modelled here from their contracts (R230 to R234, R236). -/

namespace Sys2Proof.Machine

/-- The `rst` input (R230): every register 0, pc at BASE; the buffer is not touched. -/
def State.rst (s : State) : State := { s with regs := Vector.replicate 32 0#32, pc := s.base }

/-- Bytes to consecutive buffer indices. -/
def Memory.writeBytes (m : Memory) (i : Nat) : List Byte → Memory
  | [] => m
  | b :: bs => Memory.writeBytes (Memory.write m i b) (i + 1) bs

/-- The Image Loader (R232): the image's bytes from BASE, buffer index 0. -/
def loadImage (image : List Byte) (s : State) : State := { s with mem := Memory.writeBytes s.mem 0 image }

/-- What the Argument Marshaler leaves (R233). Register numbers, addresses, layout and stack pointer are OPEN (D21), so they
are launch inputs (log 9). -/
structure Arguments where
  spReg : RegIdx
  spInit : Word
  argcReg : RegIdx
  argvReg : RegIdx
  argvAddr : Word
  /-- The marshaled words with the addresses they are written at. -/
  words : List (Word × Word)
  deriving DecidableEq, Repr

/-- The argument words into the buffer. -/
def writeArgWords : List (Word × Word) → State → State
  | [], s => s
  | (addr, v) :: rest, s => writeArgWords rest (storeBytes addr 4 v s)

/-- The Argument Marshaler (R233, R33): the words, then the argument count, argument vector and stack pointer registers. -/
def marshalArguments (a : Arguments) (s : State) : State :=
  writeReg a.spReg a.spInit
    (writeReg a.argvReg a.argvAddr
      (writeReg a.argcReg (BitVec.ofNat 32 a.words.length) (writeArgWords a.words s)))

/-- A run's launch inputs: the parameters, what the buffer holds before the loader (unspecified, R231), the image and the
arguments. -/
structure Launch where
  base : Word
  memSize : Nat
  content : Memory
  image : List Byte
  args : Option Arguments
  deriving DecidableEq, Repr

/-- The created Machine State (R234 step 1). -/
def Launch.created (l : Launch) : State :=
  State.rst { regs := Vector.replicate 32 0#32, pc := l.base, mem := l.content, base := l.base, memSize := l.memSize }

/-- The state before the first step (R33, R234): created, image loaded, arguments marshaled. -/
def Launch.state (l : Launch) : State :=
  match l.args with
  | none => loadImage l.image l.created
  | some a => marshalArguments a (loadImage l.image l.created)

/-- An argument word lies in the stack region, the upper half of the buffer (R50, R233). DESIGN CHOICE (log 14): with an odd
MEM_SIZE the middle index counts as stack (`textSize` rounds down). -/
def Launch.argInStack (l : Launch) (addr : Word) : Bool :=
  decide (textSize l.memSize ≤ translate l.created addr) && inBounds l.created addr 4

/-- The launch premises (R6, R234), and that the unspecified content is a content of the buffer. ARG_MAX is OPEN. -/
def Launch.ok (argMax : Nat) (l : Launch) : Bool :=
  Config.legal l.base l.memSize && l.content.wf && l.content.within l.memSize
    && decide (l.image.length ≤ textSize l.memSize)
    && (match l.args with
      | none => true
      | some a => decide (a.words.length ≤ argMax) && a.words.all (fun w => l.argInStack w.1))

end Sys2Proof.Machine
end

