-- ==== Sys2Proof/Machine/Datapath.lean ====
section
/-! DEFINITION. The block seen as its sub-units (R90): what the decoder selects for a word (R94, R97 to R101, R57), and the
step computed by the datapath from those selections (R92). It is written from the rules of spec/40_step_engine.md over the
raw word, apart from the meanings of the instructions, so that the two can be proved equal. -/

namespace Sys2Proof.Machine

/-- Operand A (R98). -/
inductive OperandA where
  | rs1
  | pc
  deriving DecidableEq, Repr

/-- Operand B (R98). -/
inductive OperandB where
  | rs2
  | immI
  | immS
  | immU
  deriving DecidableEq, Repr

/-- The result multiplexer (R100); `none` is for BRANCH and STORE, which have no result. -/
inductive ResultSource where
  | none
  | immU
  | aluOut
  | pcPlus4
  | loadData
  | zero
  deriving DecidableEq, Repr

/-- The next-pc source (R101). -/
inductive NextSource where
  | pcPlus4
  | jal
  | jalr
  | branch
  deriving DecidableEq, Repr

/-- The data request (R57). -/
structure DataControl where
  we : Bool
  size : AccessSize
  deriving DecidableEq, Repr

/-- What the decoder selects for a word (R94). -/
structure Control where
  aluOp : Option AluOp
  operandA : OperandA
  operandB : OperandB
  /-- The resolved destination is `inst[11:7]`, or cleared to 0 (R99). -/
  keepsRd : Bool
  result : ResultSource
  next : NextSource
  data : Option DataControl
  deriving DecidableEq, Repr

/-- The width of a LOAD, where funct3 has a row (R69). -/
def loadSize (funct3 : BitVec 3) : Option AccessSize :=
  if funct3 = 0#3 ∨ funct3 = 4#3 then some .byte
  else if funct3 = 1#3 ∨ funct3 = 5#3 then some .half
  else if funct3 = 2#3 then some .word
  else none

/-- The width of a STORE, where funct3 has a row (R150). -/
def storeSize (funct3 : BitVec 3) : Option AccessSize :=
  if funct3 = 0#3 then some .byte
  else if funct3 = 1#3 then some .half
  else if funct3 = 2#3 then some .word
  else none

/-- The sign extender of the load path (R69). -/
def loadExtend (funct3 : BitVec 3) (v : Word) : Word :=
  if funct3 = 0#3 then extByteSigned v
  else if funct3 = 1#3 then extHalfSigned v
  else if funct3 = 4#3 then extByteUnsigned v
  else if funct3 = 5#3 then extHalfUnsigned v
  else v

/-- A word that computes nothing: result 0 (R99, R200). -/
def controlZero : Control := ⟨none, .rs1, .rs2, true, .zero, .pcPlus4, none⟩

/-- The control signals of a word (R70, R97 to R101). -/
def controlOf (w : Word) : Control :=
  if fieldOpcode w = opLui then ⟨none, .rs1, .immU, true, .immU, .pcPlus4, none⟩
  else if fieldOpcode w = opAuipc then ⟨some .add, .pc, .immU, true, .aluOut, .pcPlus4, none⟩
  else if fieldOpcode w = opJal then ⟨none, .rs1, .rs2, true, .pcPlus4, .jal, none⟩
  else if fieldOpcode w = opJalr then ⟨some .add, .rs1, .immI, true, .pcPlus4, .jalr, none⟩
  else if fieldOpcode w = opBranch then ⟨none, .rs1, .rs2, false, .none, .branch, none⟩
  else if fieldOpcode w = opLoad then
    match loadSize (fieldFunct3 w) with
    | some size => ⟨some .add, .rs1, .immI, true, .loadData, .pcPlus4, some ⟨false, size⟩⟩
    | none => controlZero
  else if fieldOpcode w = opStore then
    ⟨some .add, .rs1, .immS, false, .none, .pcPlus4, (storeSize (fieldFunct3 w)).map (fun size => ⟨true, size⟩)⟩
  else if fieldOpcode w = opOpImm then
    ⟨some (aluSelect false (fieldFunct3 w) (fieldBit30 w)), .rs1, .immI, true, .aluOut, .pcPlus4, none⟩
  else if fieldOpcode w = opOp then
    ⟨some (aluSelect true (fieldFunct3 w) (fieldBit30 w)), .rs1, .rs2, true, .aluOut, .pcPlus4, none⟩
  else controlZero

def operandAValue (a : OperandA) (w : Word) (s : State) : Word :=
  match a with
  | .rs1 => readReg (fieldRs1 w) s
  | .pc => s.pc

def operandBValue (b : OperandB) (w : Word) (s : State) : Word :=
  match b with
  | .rs2 => readReg (fieldRs2 w) s
  | .immI => immI w
  | .immS => immS w
  | .immU => immU w

/-- The ALU output; where the ALU is not used (R97) nothing selects it. -/
def aluOutput (w : Word) (s : State) : Word :=
  match (controlOf w).aluOp with
  | some op => alu op (operandAValue (controlOf w).operandA w s) (operandBValue (controlOf w).operandB w s)
  | none => 0#32

/-- The resolved destination index `wd` (R99). -/
def resolvedRd (w : Word) : RegIdx := if (controlOf w).keepsRd then fieldRd w else 0#5

/-- The result value (R100), 0 where there is none. -/
def resultValue (w : Word) (s : State) : Word :=
  match (controlOf w).result with
  | .none => 0#32
  | .immU => immU w
  | .aluOut => aluOutput w s
  | .pcPlus4 => pcPlus4 s
  | .loadData =>
    match (controlOf w).data with
    | some d => loadExtend (fieldFunct3 w) (memValue s (aluOutput w s) d.size.bytes)
    | none => 0#32
  | .zero => 0#32

/-- The next pc (R101). -/
def nextPcValue (w : Word) (s : State) : Word :=
  match (controlOf w).next with
  | .pcPlus4 => pcPlus4 s
  | .jal => s.pc + immJ w
  | .jalr => aluOutput w s &&& 0xFFFFFFFE#32
  | .branch =>
    if branchTaken (fieldFunct3 w) (readReg (fieldRs1 w) s) (readReg (fieldRs2 w) s) then s.pc + immB w else pcPlus4 s

/-- The commit of stages 4 and 5, all together (R92, R103). -/
def commitWord (w : Word) (s : State) : State :=
  let stored : State :=
    match (controlOf w).data with
    | some d => if d.we then storeBytes (aluOutput w s) d.size.bytes (readReg (fieldRs2 w) s) s else s
    | none => s
  setPc (nextPcValue w s) (writeReg (resolvedRd w) (resultValue w s) stored)

/-- The words that read the rs1 port (R24). -/
def readsRs1 (w : Word) : Bool :=
  fieldOpcode w == opJalr || fieldOpcode w == opOpImm || fieldOpcode w == opOp
    || (fieldOpcode w == opBranch && fieldFunct3 w != 2#3 && fieldFunct3 w != 3#3)
    || (fieldOpcode w == opLoad && (loadSize (fieldFunct3 w)).isSome)
    || (fieldOpcode w == opStore && (storeSize (fieldFunct3 w)).isSome)

/-- The words that read the rs2 port (R24). -/
def readsRs2 (w : Word) : Bool :=
  fieldOpcode w == opOp
    || (fieldOpcode w == opBranch && fieldFunct3 w != 2#3 && fieldFunct3 w != 3#3)
    || (fieldOpcode w == opStore && (storeSize (fieldFunct3 w)).isSome)

/-- One step computed by the datapath (R92). -/
def datapathStep (s : State) : Result :=
  match fetchWord s with
  | none => raiseOutOfBounds .fetch s.pc
  | some w =>
    match (controlOf w).data with
    | some d =>
      if inBounds s (aluOutput w s) d.size.bytes then .next (commitWord w s)
      else raiseOutOfBounds (if d.we then .store else .load) (aluOutput w s)
    | none => .next (commitWord w s)

end Sys2Proof.Machine
end

