-- ==== Sys2Proof/Machine/Ports.lean ====
section
/-! DEFINITION. The output ports of one step (R57, R77, R91, R211, R212). They are functions of the state before the step,
not state (R32; log 8). A signal that the spec gives a value only sometimes is an Option. -/

namespace Sys2Proof.Machine

/-- The data request of a step, present when `ls_req` is 1 (R57, R91 `ls_index`). -/
structure DataRequest where
  we : Bool
  size : AccessSize
  addr : Word
  index : Nat
  wdata : Word
  /-- The unextended value read, for an in-bounds load. -/
  rdata : Option Word
  oob : Bool
  deriving DecidableEq, Repr

structure Outputs where
  /-- `f_index` (R91). -/
  fIndex : Nat
  /-- `f_data`, for a fetch in bounds (R91). -/
  fData : Option Word
  /-- `decode_status` of the fetched word (R77). -/
  status : Option DecodeStatus
  /-- The load/store interface (R57). -/
  data : Option DataRequest
  /-- `retired`: the step completed without fault (R91). -/
  retired : Bool
  /-- `fault_kind` and `fault_addr`, present when `fault` is 1 (R211). -/
  fault : Option (BitVec 2 × Word)
  deriving DecidableEq, Repr

/-- The number of a kind on `fault_kind` (R211). -/
def AccessKind.number : AccessKind → BitVec 2
  | .fetch => 0#2
  | .load => 1#2
  | .store => 2#2

/-- The data request of a fetched word (R57). -/
def dataRequest (w : Word) (s : State) : Option DataRequest :=
  match (controlOf w).data with
  | none => none
  | some d =>
    let addr := aluOutput w s
    let ok := inBounds s addr d.size.bytes
    some
      { we := d.we, size := d.size, addr := addr, index := translate s addr, wdata := readReg (fieldRs2 w) s,
        rdata := if ok && !d.we then some (memValue s addr d.size.bytes) else none, oob := !ok }

/-- The outputs of the step taken from `s`. -/
def outputs (s : State) : Outputs where
  fIndex := translate s s.pc
  fData := fetchWord s
  status := (fetchWord s).map decodeStatus
  data := (fetchWord s).bind (fun w => dataRequest w s)
  retired :=
    match step s with
    | .next _ => true
    | .fault _ => false
    | .refused _ => false
  fault :=
    match step s with
    | .next _ => none
    | .fault (.outOfBounds kind addr) => some (kind.number, addr)
    | .refused _ => none

end Sys2Proof.Machine
end

