-- ==== Sys2Proof/Safety.lean ====
section
/-! DEFINITION. What counts as a good state and a safe run, and the words claims use for what a step changes. -/

namespace Sys2Proof.Machine

/-- The pc is a multiple of 2 (R27). -/
def pcEven (s : State) : Bool := !s.pc.getLsbD 0

/-- The states a run can be in: legal parameters (R6), canonical memory inside the buffer (R31), x0's cell 0 (R21), an even
pc (R27). -/
structure Inv (s : State) : Prop where
  legal : Config.legal s.base s.memSize = true
  memWf : s.mem.wf = true
  memWithin : s.mem.within s.memSize = true
  zeroCell : regCell 0#5 s = 0#32
  pcEven : pcEven s = true

/-- `n` steps from `s` all complete. -/
def SafeFor : Nat → State → Prop
  | 0, _ => True
  | n + 1, s => ∃ t, step s = .next t ∧ SafeFor n t

/-- A safe run: it never faults and is never refused. -/
def Safe (s : State) : Prop := ∀ n, SafeFor n s

/-- BASE and MEM_SIZE are the same (R31). -/
def SameConfig (s t : State) : Prop := t.base = s.base ∧ t.memSize = s.memSize

/-- Every byte of memory reads as before. -/
def SameBytes (s t : State) : Prop := ∀ a, byteAt t a = byteAt s a

/-- Every register reads as before, and x0's cell is the same. -/
def SameRegs (s t : State) : Prop := (∀ r, readReg r t = readReg r s) ∧ regCell 0#5 t = regCell 0#5 s

/-- `t` is `s` with the value `v` in register `rd` and the pc at `next`, and nothing else changed: every other register, x0's
cell, every byte of memory, BASE and MEM_SIZE are as before. With rd = x0 no register changes. -/
def Retires (s t : State) (rd : RegIdx) (v next : Word) : Prop :=
  t.pc = next ∧ (∀ r, readReg r t = if r = 0#5 then 0#32 else if r = rd then v else readReg r s)
    ∧ regCell 0#5 t = regCell 0#5 s ∧ SameBytes s t ∧ SameConfig s t

/-- `t` is `s` with the pc at `next`, and nothing else changed. -/
def OnlyPc (s t : State) (next : Word) : Prop :=
  t.pc = next ∧ SameRegs s t ∧ SameBytes s t ∧ SameConfig s t

/-- `t` is `s` with bytes 0 to `n - 1` of `v` at `addr`, `addr + 1`, ... and the pc at `next`, and nothing else changed: every
other byte, every register, BASE and MEM_SIZE are as before. -/
def Stores (s t : State) (addr : Word) (n : Nat) (v next : Word) : Prop :=
  t.pc = next ∧ SameRegs s t ∧ SameConfig s t
    ∧ (∀ k, k < n → byteAt t (addr + BitVec.ofNat 32 k) = some (byteOfWord v k))
    ∧ (∀ a, (∀ k, k < n → a ≠ addr + BitVec.ofNat 32 k) → byteAt t a = byteAt s a)

end Sys2Proof.Machine
end

