-- ==== Sys2Proof/Certificates/Slice0/Obligations.lean ====
section
/-! DEFINITION. The statements for the provers. Each formalises rules of spec/; the docstring names them. The words Retires,
OnlyPc, Stores, SameBytes, SameConfig (Sys2Proof/Safety.lean) say the whole frame: what is not named as changed is as
before. -/

open Sys2Proof Sys2Proof.Machine

/-! ### Encoding -/

/-- Decoding the encoding of a well-formed instruction gives it back, at every value of every operand (R62 to R73; the
positions that the spec takes from the standard encoding are its decision D3, log 11). -/
def Obligations.DecodeOfEncodeIsTheInstruction : Prop :=
  ∀ i : Instr, i.wf = true → decode (encode i) = .instr i

/-- A word that decodes to an instruction of the table and is no alias (decode_status OK or NO_EFFECT, R77) is the word the
encoder writes for that instruction: the decoder drops no bit of a standard word. -/
def Obligations.EncodeOfDecodeIsTheStandardWord : Prop :=
  ∀ (w : Word) (i : Instr), decode w = .instr i → (decodeStatus w = .ok ∨ decodeStatus w = .noEffect) → encode i = w

/-- Whatever the decoder answers is well-formed: branch and JAL offsets are even (R65, R67). -/
def Obligations.DecodedInstructionsAreWellFormed : Prop :=
  ∀ (w : Word) (i : Instr), decode w = .instr i → i.wf = true

/-- The decoder and the opcode table agree: a word decodes to an instruction of a row exactly when it matches the row's mask
and value (spec/opcode_table.json). -/
def Obligations.DecoderAgreesWithTheOpcodeTable : Prop :=
  ∀ w : Word,
    (∀ i, decode w = .instr i → ∃ r ∈ opRows, r.mnemonic = i.mnemonic ∧ r.matchesBlock w = true)
    ∧ (∀ r ∈ opRows, r.matchesBlock w = true → ∃ i, decode w = .instr i ∧ i.mnemonic = r.mnemonic)

/-- decode_status (R77) against the decoder: UNRECOGNIZED exactly on the words no row matches, NO_EFFECT exactly on FENCE,
ECALL and EBREAK (decode_status is the spec's decision D11, log 11). -/
def Obligations.DecodeStatusAgreesWithTheDecoder : Prop :=
  ∀ w : Word,
    (decodeStatus w = .unrecognized ↔ ∃ u, decode w = .unlisted u)
    ∧ (decodeStatus w = .noEffect
        ↔ ∃ i, decode w = .instr i ∧ (i.mnemonic = "FENCE" ∨ i.mnemonic = "ECALL" ∨ i.mnemonic = "EBREAK"))

/-- The bits the decoder ignores (R73; the spec's decision D15, log 11): two words that differ only in them decode alike. OP
and OP-IMM funct3 5 and OP funct3 0 read bit 30; the other OP words and SLLI ignore bits 31 to 25; JALR ignores funct3. -/
def Obligations.IgnoredBitsDoNotChangeDecoding : Prop :=
  ∀ w v : Word,
    (fieldOpcode w = opOp → (fieldFunct3 w = 0#3 ∨ fieldFunct3 w = 5#3) → w &&& 0x41FFFFFF#32 = v &&& 0x41FFFFFF#32 →
      decode v = decode w)
    ∧ (fieldOpcode w = opOp → fieldFunct3 w ≠ 0#3 → fieldFunct3 w ≠ 5#3 → w &&& 0x01FFFFFF#32 = v &&& 0x01FFFFFF#32 →
      decode v = decode w)
    ∧ (fieldOpcode w = opOpImm → fieldFunct3 w = 1#3 → w &&& 0x01FFFFFF#32 = v &&& 0x01FFFFFF#32 → decode v = decode w)
    ∧ (fieldOpcode w = opOpImm → fieldFunct3 w = 5#3 → w &&& 0x41FFFFFF#32 = v &&& 0x41FFFFFF#32 → decode v = decode w)
    ∧ (fieldOpcode w = opJalr → w &&& 0xFFFF8FFF#32 = v &&& 0xFFFF8FFF#32 → decode v = decode w)

/-- The eight M-extension words (funct7 0000001) decode to base operations and are aliases (R182; D15, log 11). -/
def Obligations.MultiplyWordsAliasBaseOperations : Prop :=
  ∀ rd rs1 rs2 : RegIdx,
    decode (encR 1#7 rs2 rs1 0#3 rd opOp) = .instr (.add rd rs1 rs2)
    ∧ decode (encR 1#7 rs2 rs1 1#3 rd opOp) = .instr (.sll rd rs1 rs2)
    ∧ decode (encR 1#7 rs2 rs1 2#3 rd opOp) = .instr (.slt rd rs1 rs2)
    ∧ decode (encR 1#7 rs2 rs1 3#3 rd opOp) = .instr (.sltu rd rs1 rs2)
    ∧ decode (encR 1#7 rs2 rs1 4#3 rd opOp) = .instr (.xor rd rs1 rs2)
    ∧ decode (encR 1#7 rs2 rs1 5#3 rd opOp) = .instr (.srl rd rs1 rs2)
    ∧ decode (encR 1#7 rs2 rs1 6#3 rd opOp) = .instr (.or rd rs1 rs2)
    ∧ decode (encR 1#7 rs2 rs1 7#3 rd opOp) = .instr (.and rd rs1 rs2)
    ∧ ∀ funct3 : BitVec 3, decodeStatus (encR 1#7 rs2 rs1 funct3 rd opOp) = .aliased

/-- The B-, U- and J-immediates bit by bit, and the ranges of the two offsets (R65, R66, R67). -/
def Obligations.OffsetAndUpperImmediateBits : Prop :=
  ∀ w : Word,
    (∀ k, k < 32 → (immB w).getLsbD k =
      if k = 0 then false else if k < 5 then w.getLsbD (k + 7) else if k < 11 then w.getLsbD (k + 20)
      else if k = 11 then w.getLsbD 7 else w.getLsbD 31)
    ∧ -4096 ≤ (immB w).toInt ∧ (immB w).toInt ≤ 4094 ∧ (immB w).toInt % 2 = 0
    ∧ (∀ k, k < 32 → (immU w).getLsbD k = if k < 12 then false else w.getLsbD k)
    ∧ immU w = w &&& 0xFFFFF000#32
    ∧ (∀ k, k < 32 → (immJ w).getLsbD k =
      if k = 0 then false else if k < 11 then w.getLsbD (k + 20) else if k = 11 then w.getLsbD 20
      else if k < 20 then w.getLsbD k else w.getLsbD 31)
    ∧ -1048576 ≤ (immJ w).toInt ∧ (immJ w).toInt ≤ 1048574 ∧ (immJ w).toInt % 2 = 0

/-- The I- and S-immediates bit by bit and their range (R63, R64; their positions are the spec's decision D3, log 11), and
the shift amount of the immediate shifts, bits 24:20 (R68). -/
def Obligations.SignedTwelveBitImmediateBits : Prop :=
  ∀ w : Word,
    (∀ k, k < 32 → (immI w).getLsbD k = if k < 11 then w.getLsbD (k + 20) else w.getLsbD 31)
    ∧ -2048 ≤ (immI w).toInt ∧ (immI w).toInt ≤ 2047
    ∧ (∀ k, k < 32 → (immS w).getLsbD k =
      if k < 5 then w.getLsbD (k + 7) else if k < 11 then w.getLsbD (k + 20) else w.getLsbD 31)
    ∧ -2048 ≤ (immS w).toInt ∧ (immS w).toInt ≤ 2047
    ∧ shiftAmount (immI w) = (fieldRs2 w).toNat

/-- Words of spec/95_test_vectors.md, one for each family, decode to the instructions they stand for. -/
def Obligations.SampleWordsDecodeAsWritten : Prop :=
  decode 0x123452B7#32 = .instr (.lui 5#5 0x12345#20)
  ∧ decode 0xFFDFF06F#32 = .instr (.jal 0#5 (BitVec.ofInt 21 (-4)))
  ∧ decode 0x806280E3#32 = .instr (.beq 5#5 6#5 (BitVec.ofInt 13 (-2048)))
  ∧ decode 0x00135283#32 = .instr (.lhu 5#5 6#5 1#12)
  ∧ decode 0xFE732E23#32 = .instr (.sw 7#5 6#5 (BitVec.ofInt 12 (-4)))
  ∧ decode 0x41F35293#32 = .instr (.srai 5#5 6#5 31#5)
  ∧ decode 0x407302B3#32 = .instr (.sub 5#5 6#5 7#5)
  ∧ decode 0x8330000F#32 = .instr (.fence 0#5 0#5 8#4 3#4 3#4)
  ∧ decode 0x0062A863#32 = .unlisted .reservedBranch
  ∧ decode 0xFFFFFFFF#32 = .unlisted (.otherOpcode 31#5)

/-! ### Registers, ALU, memory -/

/-- x0 reads 0, a write to it changes nothing, and no step mutates its cell (R21, R23). -/
def Obligations.ZeroRegisterIsNeverMutated : Prop :=
  ∀ s : State, readReg 0#5 s = 0#32 ∧ (∀ v, writeReg 0#5 v s = s)
    ∧ ∀ t, step s = .next t → regCell 0#5 t = regCell 0#5 s ∧ readReg 0#5 t = 0#32

/-- A step writes at most one register, the resolved destination: inst[11:7], or none for BRANCH and STORE; a nonzero
destination receives the result value, and with destination 0 nothing is written (R23, R99, R100; the result value rests on
the spec's decisions D3, D10, D12, D16, D17, log 11). -/
def Obligations.StepWritesOnlyTheResolvedRegister : Prop :=
  ∀ (s t : State) (w : Word), fetchWord s = some w → step s = .next t →
    (∀ r : RegIdx, (fieldOpcode w = opBranch ∨ fieldOpcode w = opStore ∨ r ≠ fieldRd w) → readReg r t = readReg r s)
    ∧ ((fieldOpcode w = opBranch ∨ fieldOpcode w = opStore ∨ fieldRd w = 0#5) → t.regs = s.regs)
    ∧ (fieldOpcode w ≠ opBranch → fieldOpcode w ≠ opStore → fieldRd w ≠ 0#5 → readReg (fieldRd w) t = resultValue w s)

/-- The ALU's ten operations over the integers (R96; the values 1 and 0 and the 5-bit amount of right shifts are the spec's
own decisions D17 and D16, log 11): sums and differences modulo 2^32, comparisons of the signed and unsigned integers, shifts
by the low 5 bits as multiplication and floor division, bitwise operations bit by bit. -/
def Obligations.AluComputesTheStatedFunctions : Prop :=
  ∀ a b : Word,
    (alu .add a b).toNat = (a.toNat + b.toNat) % 2 ^ 32
    ∧ ((alu .sub a b).toNat : Int) = ((a.toNat : Int) - b.toNat) % 2 ^ 32
    ∧ (alu .sll a b).toNat = a.toNat * 2 ^ (b.toNat % 32) % 2 ^ 32
    ∧ alu .slt a b = (if a.toInt < b.toInt then 1#32 else 0#32)
    ∧ alu .sltu a b = (if a.toNat < b.toNat then 1#32 else 0#32)
    ∧ (alu .srl a b).toNat = a.toNat / 2 ^ (b.toNat % 32)
    ∧ (alu .sra a b).toInt = a.toInt / 2 ^ (b.toNat % 32)
    ∧ ∀ k, k < 32 →
      (alu .xor a b).getLsbD k = (a.getLsbD k != b.getLsbD k)
      ∧ (alu .or a b).getLsbD k = (a.getLsbD k || b.getLsbD k)
      ∧ (alu .and a b).getLsbD k = (a.getLsbD k && b.getLsbD k)

/-- Translation is subtraction of BASE modulo 2^32 (R41; D7, log 11; the form of the check is log 12), and an access of 1, 2
or 4 bytes is in bounds exactly when Translate(addr) <= MEM_SIZE - n, that is when all its bytes lie in the buffer (R42). -/
def Obligations.BoundsCheckIsTheStatedOne : Prop :=
  ∀ (s : State) (a : Word) (size : AccessSize),
    (translate s a : Int) = ((a.toNat : Int) - s.base.toNat) % 2 ^ 32
    ∧ (4 ≤ s.memSize → (inBounds s a size.bytes = true ↔ translate s a ≤ s.memSize - size.bytes))
    ∧ (inBounds s a size.bytes = true ↔ ∀ k, k < size.bytes → translate s a + k < s.memSize)

/-- A data read assembles consecutive bytes, least significant first (R43): out of bounds it raises OutOfBounds(Load) (D8,
log 11); in bounds byte k of the value is the byte at addr + k and the bits above are 0. -/
def Obligations.ReadAssemblesBytesLeastSignificantFirst : Prop :=
  ∀ (s : State) (a : Word) (size : AccessSize) (ext : Word → Word) (rd : RegIdx), s.memSize ≤ 2 ^ 32 →
    (inBounds s a size.bytes = false → loadTo size ext rd a s = .fault (.outOfBounds .load a))
    ∧ (inBounds s a size.bytes = true →
      (∀ k, k < size.bytes → byteAt s (a + BitVec.ofNat 32 k) = some (byteOfWord (memValue s a size.bytes) k))
      ∧ (∀ k, size.bytes ≤ k → byteOfWord (memValue s a size.bytes) k = 0#8))

/-- A data write stores the low 8n bits least significant byte first and changes no other byte (R44; the fault is D8, log
11), and a load of the same width at the same address reads the value back truncated to n bytes. -/
def Obligations.WriteStoresBytesAndReadsBack : Prop :=
  ∀ (s : State) (a v : Word) (size : AccessSize), s.mem.wf = true → s.memSize ≤ 2 ^ 32 →
    (inBounds s a size.bytes = false → storeFrom size a v s = .fault (.outOfBounds .store a))
    ∧ (inBounds s a size.bytes = true →
      ∃ t, storeFrom size a v s = .next t ∧ Stores s t a size.bytes v (s.pc + 4#32)
        ∧ inBounds t a size.bytes = true ∧ (memValue t a size.bytes).toNat = v.toNat % 2 ^ (8 * size.bytes))

/-- The source's round trip through memory by instruction: SB then LBU, SH then LHU, SW then LW at one effective address, and
the signed loads of the same bytes (R44, R141 to R145, R151 to R153; S4 of spec/95_test_vectors.md). -/
def Obligations.StoreThenLoadReturnsTheStoredValue : Prop :=
  ∀ (s t : State) (rs2 rs1 rd : RegIdx) (imm : BitVec 12), s.mem.wf = true → s.memSize ≤ 2 ^ 32 → rd ≠ 0#5 →
    (exec (.sb rs2 rs1 imm) s = .next t →
      (∃ u, exec (.lbu rd rs1 imm) t = .next u ∧ readReg rd u = (readReg rs2 s) &&& 0xFF#32)
      ∧ (∃ u, exec (.lb rd rs1 imm) t = .next u ∧ readReg rd u = ((readReg rs2 s).setWidth 8).signExtend 32))
    ∧ (exec (.sh rs2 rs1 imm) s = .next t →
      (∃ u, exec (.lhu rd rs1 imm) t = .next u ∧ readReg rd u = (readReg rs2 s) &&& 0xFFFF#32)
      ∧ (∃ u, exec (.lh rd rs1 imm) t = .next u ∧ readReg rd u = ((readReg rs2 s).setWidth 16).signExtend 32))
    ∧ (exec (.sw rs2 rs1 imm) s = .next t → ∃ u, exec (.lw rd rs1 imm) t = .next u ∧ readReg rd u = readReg rs2 s)

/-- A word stored at A and read back byte by byte: bits 7:0 at A, 15:8 at A+1, 23:16 at A+2, 31:24 at A+3; a halfword read at
A+1 gives the two middle bytes (R48). -/
def Obligations.WordStoreReadsBackAsBytes : Prop :=
  ∀ (s t : State) (rs2 rs1 rd r : RegIdx) (imm off : BitVec 12) (k : Nat), s.mem.wf = true → s.memSize ≤ 2 ^ 32 → rd ≠ 0#5 →
    exec (.sw rs2 rs1 imm) s = .next t →
    (k < 4 → effectiveAddress r off t = effectiveAddress rs1 imm s + BitVec.ofNat 32 k →
      ∃ u, exec (.lbu rd r off) t = .next u ∧ readReg rd u = (byteOfWord (readReg rs2 s) k).setWidth 32)
    ∧ (effectiveAddress r off t = effectiveAddress rs1 imm s + 1#32 →
      ∃ u, exec (.lhu rd r off) t = .next u ∧ readReg rd u = ((readReg rs2 s).extractLsb' 8 16).setWidth 32)

/-! ### The step -/

/-- Fetch reads four bytes at the pc, least significant first, with no alignment (R47; the spec's decisions D4 and D6, log
11). -/
def Obligations.FetchReadsFourBytesAtThePc : Prop :=
  ∀ s : State, s.memSize ≤ 2 ^ 32 →
    (inBounds s s.pc 4 = false → fetchWord s = none)
    ∧ (inBounds s s.pc 4 = true → ∃ b0 b1 b2 b3 : Byte,
      byteAt s s.pc = some b0 ∧ byteAt s (s.pc + 1#32) = some b1 ∧ byteAt s (s.pc + 2#32) = some b2
      ∧ byteAt s (s.pc + 3#32) = some b3 ∧ fetchWord s = some (b3 ++ b2 ++ b1 ++ b0))

/-- When the four bytes at the pc decode to an instruction, the step is exec of it; when they decode to a word outside the
table, the step is that word's effect. The step adds nothing around it (R92; fetch order D4, log 11). -/
def Obligations.StepRunsTheDecodedInstruction : Prop :=
  ∀ (s : State) (b0 b1 b2 b3 : Byte), s.memSize ≤ 2 ^ 32 → inBounds s s.pc 4 = true →
    byteAt s s.pc = some b0 → byteAt s (s.pc + 1#32) = some b1 → byteAt s (s.pc + 2#32) = some b2 →
    byteAt s (s.pc + 3#32) = some b3 →
    (∀ i, decodeBytes b0 b1 b2 b3 = .instr i → step s = exec i s)
    ∧ (∀ u, decodeBytes b0 b1 b2 b3 = .unlisted u → step s = execUnlisted u s)

/-- The step by instructions and the step by the datapath of R90 to R101 are the same function. -/
def Obligations.StepEqualsTheDatapathStep : Prop :=
  ∀ s : State, step s = datapathStep s

/-- No step is refused: every word has an effect (R75, R210). -/
def Obligations.StepNeverRefuses : Prop :=
  ∀ (s : State) (r : Refusal), step s ≠ .refused r

/-- A step faults exactly when its fetch, or the data access of the load or store it fetched, is out of bounds, with the kind
and address of R211; the fetch comes first (R214; D8, D9, log 11). -/
def Obligations.StepFaultsExactlyOnOutOfBoundsAccess : Prop :=
  ∀ (s : State) (f : Fault), step s = .fault f ↔
    (fetchWord s = none ∧ f = .outOfBounds .fetch s.pc)
    ∨ ∃ w, fetchWord s = some w ∧
      ((fieldOpcode w = opLoad ∧ f = .outOfBounds .load (readReg (fieldRs1 w) s + immI w)
        ∧ ∃ size, loadSize (fieldFunct3 w) = some size ∧ inBounds s (readReg (fieldRs1 w) s + immI w) size.bytes = false)
      ∨ (fieldOpcode w = opStore ∧ f = .outOfBounds .store (readReg (fieldRs1 w) s + immS w)
        ∧ ∃ size, storeSize (fieldFunct3 w) = some size
          ∧ inBounds s (readReg (fieldRs1 w) s + immS w) size.bytes = false))

/-- The next pc (R26, R101): pc + 4, but for JAL pc + immJ, for JALR x[rs1] + immI with bit 0 cleared, for a taken branch pc
+ immB; all modulo 2^32 (the branch funct3 numbers and field positions are D3's, log 11). -/
def Obligations.NextPcIsTheStatedOne : Prop :=
  ∀ (s t : State) (w : Word), fetchWord s = some w → step s = .next t →
    t.pc = if fieldOpcode w = opJal then s.pc + immJ w
      else if fieldOpcode w = opJalr then (readReg (fieldRs1 w) s + immI w) &&& ~~~1#32
      else if fieldOpcode w = opBranch
          ∧ branchTaken (fieldFunct3 w) (readReg (fieldRs1 w) s) (readReg (fieldRs2 w) s) = true then s.pc + immB w
      else s.pc + 4#32

/-- BASE and MEM_SIZE never change (R31). -/
def Obligations.StepKeepsBaseAndSize : Prop :=
  ∀ s t : State, step s = .next t → t.base = s.base ∧ t.memSize = s.memSize

/-- Only SB, SH and SW change memory: after a step of any other word all of memory is as before (R40, R57). -/
def Obligations.OnlyStoresChangeMemory : Prop :=
  ∀ (s t : State) (w : Word), fetchWord s = some w → step s = .next t →
    (fieldOpcode w ≠ opStore ∨ storeSize (fieldFunct3 w) = none) → t.mem = s.mem ∧ SameBytes s t

/-- A step depends on the registers of its read ports only (R24): changing another register before the step gives the same
fault, or the same next state but for that register, which is overwritten if it is the destination. -/
def Obligations.UnreadRegistersDoNotMatter : Prop :=
  ∀ (s : State) (w v : Word) (r : RegIdx), fetchWord s = some w →
    (readsRs1 w = true → fieldRs1 w ≠ r) → (readsRs2 w = true → fieldRs2 w ≠ r) →
    (∀ f, step s = .fault f → step (writeReg r v s) = .fault f)
    ∧ (∀ t, step s = .next t →
      step (writeReg r v s) = .next (if resolvedRd w = r then t else writeReg r v t))

/-- Fetch is coherent with stores (R55, R239): a word stored by SW is the word fetched at that address from then on. -/
def Obligations.FetchSeesAnEarlierStore : Prop :=
  ∀ (s t : State) (rs2 rs1 : RegIdx) (imm : BitVec 12), s.mem.wf = true →
    exec (.sw rs2 rs1 imm) s = .next t →
    fetchWord (setPc (effectiveAddress rs1 imm s) t) = some (readReg rs2 s)

/-! ### Invariant, reset, launch, run driver, ports -/

/-- Every step keeps the invariant: legal parameters, canonical memory inside the buffer, x0's cell 0, an even pc (R6, R21,
R27, R31). -/
def Obligations.StepKeepsTheInvariant : Prop :=
  ∀ s t : State, Inv s → step s = .next t → Inv t

/-- The reset state satisfies the invariant. Its BASE, MEM_SIZE and memory are the model's choices (log 1, 2, 3). -/
def Obligations.ResetSatisfiesTheInvariant : Prop := Inv State.reset

/-- `rst` (R230): every register becomes 0 and pc becomes BASE; memory, BASE and MEM_SIZE are not touched (the reset input is
the spec's decision D1, log 11). -/
def Obligations.RstZeroesRegistersAndJumpsToBase : Prop :=
  ∀ s : State, (∀ r, readReg r s.rst = 0#32) ∧ (∀ r, regCell r s.rst = 0#32) ∧ s.rst.pc = s.base ∧ SameBytes s s.rst
    ∧ s.rst.mem = s.mem ∧ SameConfig s s.rst

/-- Every launch state that meets the launch premises satisfies the invariant (R33, R234). -/
def Obligations.LaunchStatesSatisfyTheInvariant : Prop :=
  ∀ (argMax : Nat) (l : Launch), l.ok argMax = true → Inv l.state

/-- The launch state (R33, R230 to R234): pc at BASE, the image's bytes from BASE, every register that the marshaler does not
prime 0 and, with three distinct registers none of which is x0, the primed registers as the marshaler sets them (the order of
the priming writes is the model's choice, log 9; MEM_SIZE's range and D20, D21 are log 11's). -/
def Obligations.LaunchStateHoldsTheImage : Prop :=
  ∀ (argMax : Nat) (l : Launch), l.ok argMax = true →
    l.state.pc = l.base
    ∧ (∀ k (h : k < l.image.length), byteAt l.state (l.base + BitVec.ofNat 32 k) = some l.image[k])
    ∧ (∀ r, (∀ a, l.args = some a → r ≠ a.spReg ∧ r ≠ a.argcReg ∧ r ≠ a.argvReg) → readReg r l.state = 0#32)
    ∧ (∀ a, l.args = some a → a.spReg ≠ 0#5 → a.argcReg ≠ 0#5 → a.argvReg ≠ 0#5 →
      a.spReg ≠ a.argcReg → a.spReg ≠ a.argvReg → a.argcReg ≠ a.argvReg →
      readReg a.spReg l.state = a.spInit ∧ readReg a.argvReg l.state = a.argvAddr
      ∧ readReg a.argcReg l.state = BitVec.ofNat 32 a.words.length)

/-- The run driver (R235; D22, log 11): when it halts it stands in a state with pc = 0 reached by steps that all completed;
when it stops on a fault it stands in the state before the faulting step, whose pc is not 0; when it is still going it has
taken all its steps and is not at pc = 0. It is never refused. -/
def Obligations.DriverStopsAtZeroPcOrFirstFault : Prop :=
  ∀ (n : Nat) (s t : State),
    (drive n s = .halted t → t.pc = 0#32 ∧ ∃ k, k ≤ n ∧ Host.Core.run core k s = .next t)
    ∧ (∀ f, drive n s = .faulted t f →
      t.pc ≠ 0#32 ∧ step t = .fault f ∧ ∃ k, k < n ∧ Host.Core.run core k s = .next t)
    ∧ (drive n s = .running t → t.pc ≠ 0#32 ∧ Host.Core.run core n s = .next t)
    ∧ (∀ r, drive n s ≠ .refused t r)

/-- A fault is final (R213): however many more steps the driver is given, the run stands at the same state and fault; and it
faults again at once from there. A halted run stays halted. -/
def Obligations.FaultedAndHaltedRunsStayAsTheyAre : Prop :=
  ∀ (n m : Nat) (s t : State), n ≤ m →
    (∀ f, drive n s = .faulted t f → drive m s = .faulted t f ∧ drive (m + 1) t = .faulted t f)
    ∧ (drive n s = .halted t → drive m s = .halted t)

/-- The output ports of a step (R57, R77, R91, R211, R212; D1, log 11; that a signal without a value is absent is log 8): the
fetch port and `decode_status`; `retired` exactly when the step completes; the fault outputs exactly when it faults; and a
data request exactly for LB, LH, LW, LBU, LHU, SB, SH, SW, with the width of funct3 as `ls_size`, the effective address as
`ls_addr`, and `ls_rdata` for an in-bounds load only. -/
def Obligations.OutputPortsReportTheStep : Prop :=
  ∀ s : State,
    ((outputs s).fIndex = translate s s.pc ∧ (outputs s).fData = fetchWord s
      ∧ (outputs s).status = (fetchWord s).map decodeStatus)
    ∧ ((outputs s).retired = true ↔ ∃ t, step s = .next t)
    ∧ (∀ n a, (outputs s).fault = some (n, a) ↔ ∃ kind, step s = .fault (.outOfBounds kind a) ∧ n = kind.number)
    ∧ (fetchWord s = none → (outputs s).data = none)
    ∧ (∀ w, fetchWord s = some w →
      ((outputs s).data.isSome = true
        ↔ (fieldOpcode w = opLoad ∧ (loadSize (fieldFunct3 w)).isSome = true)
          ∨ (fieldOpcode w = opStore ∧ (storeSize (fieldFunct3 w)).isSome = true))
      ∧ (∀ d, (outputs s).data = some d →
        (d.we = true ↔ fieldOpcode w = opStore)
        ∧ (fieldOpcode w = opLoad → loadSize (fieldFunct3 w) = some d.size)
        ∧ (fieldOpcode w = opStore → storeSize (fieldFunct3 w) = some d.size)
        ∧ d.addr = readReg (fieldRs1 w) s + (if d.we then immS w else immI w)
        ∧ d.wdata = readReg (fieldRs2 w) s ∧ d.index = translate s d.addr
        ∧ (d.oob = true ↔ inBounds s d.addr d.size.bytes = false)
        ∧ (d.oob = false → d.we = false → d.rdata = some (memValue s d.addr d.size.bytes))
        ∧ (d.oob = true ∨ d.we = true → d.rdata = none)))

/-! ### The instructions: encoding and effect -/

/-- LUI (R110). -/
def Obligations.LuiLoadsTheUpperImmediate : Prop :=
  (∀ w : Word, w &&& 0x0000007F#32 = 0x00000037#32 → decode w = .instr (.lui (w.extractLsb' 7 5) (w.extractLsb' 12 20)))
  ∧ ∀ (rd : RegIdx) (imm : BitVec 20) (s : State),
    ∃ t, exec (.lui rd imm) s = .next t ∧ Retires s t rd (imm ++ 0#12) (s.pc + 4#32)

/-- AUIPC (R111): the pc added is this instruction's own address. -/
def Obligations.AuipcAddsTheUpperImmediateToThePc : Prop :=
  (∀ w : Word, w &&& 0x0000007F#32 = 0x00000017#32 → decode w = .instr (.auipc (w.extractLsb' 7 5) (w.extractLsb' 12 20)))
  ∧ ∀ (rd : RegIdx) (imm : BitVec 20) (s : State),
    ∃ t, exec (.auipc rd imm) s = .next t ∧ Retires s t rd (s.pc + (imm ++ 0#12)) (s.pc + 4#32)

/-- JAL (R120): the link to rd, the pc to pc + immJ. -/
def Obligations.JalLinksAndJumpsRelative : Prop :=
  (∀ w : Word, w &&& 0x0000007F#32 = 0x0000006F#32 →
    ∃ off, decode w = .instr (.jal (w.extractLsb' 7 5) off) ∧ off.signExtend 32 = immJ w)
  ∧ ∀ (rd : RegIdx) (off : BitVec 21) (s : State),
    ∃ t, exec (.jal rd off) s = .next t ∧ Retires s t rd (s.pc + 4#32) (s.pc + off.signExtend 32)

/-- JALR (R121): the target from the old x[rs1], bit 0 cleared; funct3 is ignored (the positions of rs1 and the immediate are
D3's, log 11). -/
def Obligations.JalrLinksAndJumpsToRegister : Prop :=
  (∀ w : Word, w &&& 0x0000007F#32 = 0x00000067#32 →
    decode w = .instr (.jalr (w.extractLsb' 7 5) (w.extractLsb' 15 5) (w.extractLsb' 20 12)))
  ∧ ∀ (rd rs1 : RegIdx) (imm : BitVec 12) (s : State),
    ∃ t, exec (.jalr rd rs1 imm) s = .next t
      ∧ Retires s t rd (s.pc + 4#32) ((readReg rs1 s + imm.signExtend 32) &&& 0xFFFFFFFE#32)

/-- The call and return round trip (R122): JAL with a nonzero rd at an even pc, then JALR x0, 0(rd), comes back to the
instruction after the JAL. -/
def Obligations.JalThenJalrReturnsAfterTheCall : Prop :=
  ∀ (s t : State) (rd : RegIdx) (off : BitVec 21), pcEven s = true → rd ≠ 0#5 → exec (.jal rd off) s = .next t →
    ∃ u, exec (.jalr 0#5 rd 0#12) t = .next u ∧ OnlyPc t u (s.pc + 4#32)

/-- The six branches (R130 to R136): the decision over the integers the operands denote, the target or pc + 4, and nothing
else changed; the branch funct3 numbers and the positions of funct3, rs1, rs2 are D3's (log 11). -/
def Obligations.BranchesCompareAndJump : Prop :=
  (∀ w : Word,
    (w &&& 0x0000707F#32 = 0x00000063#32 → ∃ off, decode w = .instr (.beq (w.extractLsb' 15 5) (w.extractLsb' 20 5) off) ∧ off.signExtend 32 = immB w)
    ∧ (w &&& 0x0000707F#32 = 0x00001063#32 → ∃ off, decode w = .instr (.bne (w.extractLsb' 15 5) (w.extractLsb' 20 5) off) ∧ off.signExtend 32 = immB w)
    ∧ (w &&& 0x0000707F#32 = 0x00004063#32 → ∃ off, decode w = .instr (.blt (w.extractLsb' 15 5) (w.extractLsb' 20 5) off) ∧ off.signExtend 32 = immB w)
    ∧ (w &&& 0x0000707F#32 = 0x00005063#32 → ∃ off, decode w = .instr (.bge (w.extractLsb' 15 5) (w.extractLsb' 20 5) off) ∧ off.signExtend 32 = immB w)
    ∧ (w &&& 0x0000707F#32 = 0x00006063#32 → ∃ off, decode w = .instr (.bltu (w.extractLsb' 15 5) (w.extractLsb' 20 5) off) ∧ off.signExtend 32 = immB w)
    ∧ (w &&& 0x0000707F#32 = 0x00007063#32 → ∃ off, decode w = .instr (.bgeu (w.extractLsb' 15 5) (w.extractLsb' 20 5) off) ∧ off.signExtend 32 = immB w))
  ∧ ∀ (rs1 rs2 : RegIdx) (off : BitVec 13) (s : State),
    (∃ t, exec (.beq rs1 rs2 off) s = .next t
      ∧ OnlyPc s t (if readReg rs1 s = readReg rs2 s then s.pc + off.signExtend 32 else s.pc + 4#32))
    ∧ (∃ t, exec (.bne rs1 rs2 off) s = .next t
      ∧ OnlyPc s t (if readReg rs1 s ≠ readReg rs2 s then s.pc + off.signExtend 32 else s.pc + 4#32))
    ∧ (∃ t, exec (.blt rs1 rs2 off) s = .next t
      ∧ OnlyPc s t (if (readReg rs1 s).toInt < (readReg rs2 s).toInt then s.pc + off.signExtend 32 else s.pc + 4#32))
    ∧ (∃ t, exec (.bge rs1 rs2 off) s = .next t
      ∧ OnlyPc s t (if (readReg rs1 s).toInt ≥ (readReg rs2 s).toInt then s.pc + off.signExtend 32 else s.pc + 4#32))
    ∧ (∃ t, exec (.bltu rs1 rs2 off) s = .next t
      ∧ OnlyPc s t (if (readReg rs1 s).toNat < (readReg rs2 s).toNat then s.pc + off.signExtend 32 else s.pc + 4#32))
    ∧ (∃ t, exec (.bgeu rs1 rs2 off) s = .next t
      ∧ OnlyPc s t (if (readReg rs1 s).toNat ≥ (readReg rs2 s).toNat then s.pc + off.signExtend 32 else s.pc + 4#32))

/-- No branch word accesses memory (R138): its step always completes, whatever its registers and immediate bits hold, makes
no data request and leaves memory as it was. -/
def Obligations.BranchesNeverAccessMemory : Prop :=
  ∀ (s : State) (w : Word), fetchWord s = some w → fieldOpcode w = opBranch →
    ∃ t, step s = .next t ∧ t.mem = s.mem ∧ (outputs s).data = none ∧ (outputs s).fault = none

/-- BRANCH with funct3 2 or 3 (R137; D14, log 11): never taken, only the pc advances. -/
def Obligations.ReservedBranchesAreNeverTaken : Prop :=
  ∀ (s : State) (w : Word), fetchWord s = some w → fieldOpcode w = opBranch →
    (fieldFunct3 w = 2#3 ∨ fieldFunct3 w = 3#3) →
    decodeStatus w = .unrecognized ∧ ∃ t, step s = .next t ∧ OnlyPc s t (s.pc + 4#32)

/-- The loads (R141 to R145): in bounds the extended bytes go to rd and nothing else changes; out of bounds the load faults,
with rd = x0 too (R147). No alignment is asked (D5; the fault is D8, the field positions D3; log 11). -/
def Obligations.LoadsReadAndExtend : Prop :=
  (∀ w : Word,
    (w &&& 0x0000707F#32 = 0x00000003#32 → decode w = .instr (.lb (w.extractLsb' 7 5) (w.extractLsb' 15 5) (w.extractLsb' 20 12)))
    ∧ (w &&& 0x0000707F#32 = 0x00001003#32 → decode w = .instr (.lh (w.extractLsb' 7 5) (w.extractLsb' 15 5) (w.extractLsb' 20 12)))
    ∧ (w &&& 0x0000707F#32 = 0x00002003#32 → decode w = .instr (.lw (w.extractLsb' 7 5) (w.extractLsb' 15 5) (w.extractLsb' 20 12)))
    ∧ (w &&& 0x0000707F#32 = 0x00004003#32 → decode w = .instr (.lbu (w.extractLsb' 7 5) (w.extractLsb' 15 5) (w.extractLsb' 20 12)))
    ∧ (w &&& 0x0000707F#32 = 0x00005003#32 → decode w = .instr (.lhu (w.extractLsb' 7 5) (w.extractLsb' 15 5) (w.extractLsb' 20 12))))
  ∧ ∀ (rd rs1 : RegIdx) (imm : BitVec 12) (s : State) (a : Word), s.memSize ≤ 2 ^ 32 →
    a = readReg rs1 s + imm.signExtend 32 →
    (inBounds s a 1 = true → ∃ b t t', byteAt s a = some b
      ∧ exec (.lb rd rs1 imm) s = .next t ∧ Retires s t rd (b.signExtend 32) (s.pc + 4#32)
      ∧ exec (.lbu rd rs1 imm) s = .next t' ∧ Retires s t' rd (b.setWidth 32) (s.pc + 4#32))
    ∧ (inBounds s a 2 = true → ∃ b0 b1 t t', byteAt s a = some b0 ∧ byteAt s (a + 1#32) = some b1
      ∧ exec (.lh rd rs1 imm) s = .next t ∧ Retires s t rd ((b1 ++ b0).signExtend 32) (s.pc + 4#32)
      ∧ exec (.lhu rd rs1 imm) s = .next t' ∧ Retires s t' rd ((b1 ++ b0).setWidth 32) (s.pc + 4#32))
    ∧ (inBounds s a 4 = true → ∃ b0 b1 b2 b3 t, byteAt s a = some b0 ∧ byteAt s (a + 1#32) = some b1
      ∧ byteAt s (a + 2#32) = some b2 ∧ byteAt s (a + 3#32) = some b3
      ∧ exec (.lw rd rs1 imm) s = .next t ∧ Retires s t rd (b3 ++ b2 ++ b1 ++ b0) (s.pc + 4#32))
    ∧ (inBounds s a 1 = false → exec (.lb rd rs1 imm) s = .fault (.outOfBounds .load a)
      ∧ exec (.lbu rd rs1 imm) s = .fault (.outOfBounds .load a))
    ∧ (inBounds s a 2 = false → exec (.lh rd rs1 imm) s = .fault (.outOfBounds .load a)
      ∧ exec (.lhu rd rs1 imm) s = .fault (.outOfBounds .load a))
    ∧ (inBounds s a 4 = false → exec (.lw rd rs1 imm) s = .fault (.outOfBounds .load a))

/-- LOAD with funct3 3, 6 or 7 (R146; D12, log 11): no memory access, 0 to rd, pc + 4, wherever its address points. -/
def Obligations.ReservedLoadsWriteZero : Prop :=
  ∀ (s : State) (w : Word), fetchWord s = some w → fieldOpcode w = opLoad →
    (fieldFunct3 w = 3#3 ∨ fieldFunct3 w = 6#3 ∨ fieldFunct3 w = 7#3) →
    decodeStatus w = .unrecognized ∧ (outputs s).data = none
    ∧ ∃ t, step s = .next t ∧ Retires s t (w.extractLsb' 7 5) 0#32 (s.pc + 4#32)

/-- The stores (R151 to R153): in bounds the low bytes of x[rs2] go to the effective address and nothing else changes but the
pc; out of bounds the store faults. No alignment is asked (D5; the fault is D8, the field positions D3; log 11). -/
def Obligations.StoresWriteTheLowBytes : Prop :=
  (∀ w : Word,
    (w &&& 0x0000707F#32 = 0x00000023#32 → decode w = .instr (.sb (w.extractLsb' 20 5) (w.extractLsb' 15 5) (w.extractLsb' 25 7 ++ w.extractLsb' 7 5)))
    ∧ (w &&& 0x0000707F#32 = 0x00001023#32 → decode w = .instr (.sh (w.extractLsb' 20 5) (w.extractLsb' 15 5) (w.extractLsb' 25 7 ++ w.extractLsb' 7 5)))
    ∧ (w &&& 0x0000707F#32 = 0x00002023#32 → decode w = .instr (.sw (w.extractLsb' 20 5) (w.extractLsb' 15 5) (w.extractLsb' 25 7 ++ w.extractLsb' 7 5))))
  ∧ ∀ (rs2 rs1 : RegIdx) (imm : BitVec 12) (s : State) (a : Word), s.mem.wf = true → s.memSize ≤ 2 ^ 32 →
    a = readReg rs1 s + imm.signExtend 32 →
    (inBounds s a 1 = true →
      ∃ t, exec (.sb rs2 rs1 imm) s = .next t ∧ Stores s t a 1 (readReg rs2 s) (s.pc + 4#32))
    ∧ (inBounds s a 2 = true →
      ∃ t, exec (.sh rs2 rs1 imm) s = .next t ∧ Stores s t a 2 (readReg rs2 s) (s.pc + 4#32))
    ∧ (inBounds s a 4 = true →
      ∃ t, exec (.sw rs2 rs1 imm) s = .next t ∧ Stores s t a 4 (readReg rs2 s) (s.pc + 4#32))
    ∧ (inBounds s a 1 = false → exec (.sb rs2 rs1 imm) s = .fault (.outOfBounds .store a))
    ∧ (inBounds s a 2 = false → exec (.sh rs2 rs1 imm) s = .fault (.outOfBounds .store a))
    ∧ (inBounds s a 4 = false → exec (.sw rs2 rs1 imm) s = .fault (.outOfBounds .store a))

/-- STORE with funct3 3 to 7 (R154; D13, log 11): no memory write, no register write, only the pc advances. -/
def Obligations.ReservedStoresOnlyAdvance : Prop :=
  ∀ (s : State) (w : Word), fetchWord s = some w → fieldOpcode w = opStore →
    fieldFunct3 w ≠ 0#3 → fieldFunct3 w ≠ 1#3 → fieldFunct3 w ≠ 2#3 →
    decodeStatus w = .unrecognized ∧ (outputs s).data = none ∧ ∃ t, step s = .next t ∧ OnlyPc s t (s.pc + 4#32)

/-- ADDI, SLTI, SLTIU, XORI, ORI, ANDI (R161 to R166): the immediate is sign-extended in all six (field positions D3, the
values 1 and 0 D17; log 11). -/
def Obligations.ImmediateOperationsCompute : Prop :=
  (∀ w : Word,
    (w &&& 0x0000707F#32 = 0x00000013#32 → decode w = .instr (.addi (w.extractLsb' 7 5) (w.extractLsb' 15 5) (w.extractLsb' 20 12)))
    ∧ (w &&& 0x0000707F#32 = 0x00002013#32 → decode w = .instr (.slti (w.extractLsb' 7 5) (w.extractLsb' 15 5) (w.extractLsb' 20 12)))
    ∧ (w &&& 0x0000707F#32 = 0x00003013#32 → decode w = .instr (.sltiu (w.extractLsb' 7 5) (w.extractLsb' 15 5) (w.extractLsb' 20 12)))
    ∧ (w &&& 0x0000707F#32 = 0x00004013#32 → decode w = .instr (.xori (w.extractLsb' 7 5) (w.extractLsb' 15 5) (w.extractLsb' 20 12)))
    ∧ (w &&& 0x0000707F#32 = 0x00006013#32 → decode w = .instr (.ori (w.extractLsb' 7 5) (w.extractLsb' 15 5) (w.extractLsb' 20 12)))
    ∧ (w &&& 0x0000707F#32 = 0x00007013#32 → decode w = .instr (.andi (w.extractLsb' 7 5) (w.extractLsb' 15 5) (w.extractLsb' 20 12))))
  ∧ ∀ (rd rs1 : RegIdx) (imm : BitVec 12) (s : State) (m : Word), m = imm.signExtend 32 →
    (∃ t, exec (.addi rd rs1 imm) s = .next t ∧ Retires s t rd (readReg rs1 s + m) (s.pc + 4#32))
    ∧ (∃ t, exec (.slti rd rs1 imm) s = .next t
      ∧ Retires s t rd (if (readReg rs1 s).toInt < m.toInt then 1#32 else 0#32) (s.pc + 4#32))
    ∧ (∃ t, exec (.sltiu rd rs1 imm) s = .next t
      ∧ Retires s t rd (if (readReg rs1 s).toNat < m.toNat then 1#32 else 0#32) (s.pc + 4#32))
    ∧ (∃ t, exec (.xori rd rs1 imm) s = .next t ∧ Retires s t rd (readReg rs1 s ^^^ m) (s.pc + 4#32))
    ∧ (∃ t, exec (.ori rd rs1 imm) s = .next t ∧ Retires s t rd (readReg rs1 s ||| m) (s.pc + 4#32))
    ∧ (∃ t, exec (.andi rd rs1 imm) s = .next t ∧ Retires s t rd (readReg rs1 s &&& m) (s.pc + 4#32))

/-- SLLI, SRLI, SRAI (R167 to R169): the shift by the shamt field; the other bits above it are ignored (D3, D15, D16; log
11). -/
def Obligations.ImmediateShiftsCompute : Prop :=
  (∀ w : Word,
    (w &&& 0x0000707F#32 = 0x00001013#32 → decode w = .instr (.slli (w.extractLsb' 7 5) (w.extractLsb' 15 5) (w.extractLsb' 20 5)))
    ∧ (w &&& 0x4000707F#32 = 0x00005013#32 → decode w = .instr (.srli (w.extractLsb' 7 5) (w.extractLsb' 15 5) (w.extractLsb' 20 5)))
    ∧ (w &&& 0x4000707F#32 = 0x40005013#32 → decode w = .instr (.srai (w.extractLsb' 7 5) (w.extractLsb' 15 5) (w.extractLsb' 20 5))))
  ∧ ∀ (rd rs1 : RegIdx) (shamt : BitVec 5) (s : State),
    (∃ t, exec (.slli rd rs1 shamt) s = .next t ∧ Retires s t rd (readReg rs1 s <<< shamt.toNat) (s.pc + 4#32))
    ∧ (∃ t, exec (.srli rd rs1 shamt) s = .next t ∧ Retires s t rd (readReg rs1 s >>> shamt.toNat) (s.pc + 4#32))
    ∧ (∃ t, exec (.srai rd rs1 shamt) s = .next t
      ∧ Retires s t rd ((readReg rs1 s).sshiftRight shamt.toNat) (s.pc + 4#32))

/-- ADD, SUB, SLT, SLTU, XOR, OR, AND (R171, R172, R174, R175, R176, R179, R180; field positions D3, the values 1 and 0 D17;
log 11). -/
def Obligations.RegisterOperationsCompute : Prop :=
  (∀ w : Word,
    (w &&& 0x4000707F#32 = 0x00000033#32 → decode w = .instr (.add (w.extractLsb' 7 5) (w.extractLsb' 15 5) (w.extractLsb' 20 5)))
    ∧ (w &&& 0x4000707F#32 = 0x40000033#32 → decode w = .instr (.sub (w.extractLsb' 7 5) (w.extractLsb' 15 5) (w.extractLsb' 20 5)))
    ∧ (w &&& 0x0000707F#32 = 0x00002033#32 → decode w = .instr (.slt (w.extractLsb' 7 5) (w.extractLsb' 15 5) (w.extractLsb' 20 5)))
    ∧ (w &&& 0x0000707F#32 = 0x00003033#32 → decode w = .instr (.sltu (w.extractLsb' 7 5) (w.extractLsb' 15 5) (w.extractLsb' 20 5)))
    ∧ (w &&& 0x0000707F#32 = 0x00004033#32 → decode w = .instr (.xor (w.extractLsb' 7 5) (w.extractLsb' 15 5) (w.extractLsb' 20 5)))
    ∧ (w &&& 0x0000707F#32 = 0x00006033#32 → decode w = .instr (.or (w.extractLsb' 7 5) (w.extractLsb' 15 5) (w.extractLsb' 20 5)))
    ∧ (w &&& 0x0000707F#32 = 0x00007033#32 → decode w = .instr (.and (w.extractLsb' 7 5) (w.extractLsb' 15 5) (w.extractLsb' 20 5))))
  ∧ ∀ (rd rs1 rs2 : RegIdx) (s : State) (a b : Word), a = readReg rs1 s → b = readReg rs2 s →
    (∃ t, exec (.add rd rs1 rs2) s = .next t ∧ Retires s t rd (a + b) (s.pc + 4#32))
    ∧ (∃ t, exec (.sub rd rs1 rs2) s = .next t ∧ Retires s t rd (a - b) (s.pc + 4#32))
    ∧ (∃ t, exec (.slt rd rs1 rs2) s = .next t
      ∧ Retires s t rd (if a.toInt < b.toInt then 1#32 else 0#32) (s.pc + 4#32))
    ∧ (∃ t, exec (.sltu rd rs1 rs2) s = .next t
      ∧ Retires s t rd (if a.toNat < b.toNat then 1#32 else 0#32) (s.pc + 4#32))
    ∧ (∃ t, exec (.xor rd rs1 rs2) s = .next t ∧ Retires s t rd (a ^^^ b) (s.pc + 4#32))
    ∧ (∃ t, exec (.or rd rs1 rs2) s = .next t ∧ Retires s t rd (a ||| b) (s.pc + 4#32))
    ∧ (∃ t, exec (.and rd rs1 rs2) s = .next t ∧ Retires s t rd (a &&& b) (s.pc + 4#32))

/-- SLL, SRL, SRA (R173, R177, R178; D3, D16, log 11): the amount is the low 5 bits of x[rs2], so 32 shifts by 0. -/
def Obligations.RegisterShiftsCompute : Prop :=
  (∀ w : Word,
    (w &&& 0x0000707F#32 = 0x00001033#32 → decode w = .instr (.sll (w.extractLsb' 7 5) (w.extractLsb' 15 5) (w.extractLsb' 20 5)))
    ∧ (w &&& 0x4000707F#32 = 0x00005033#32 → decode w = .instr (.srl (w.extractLsb' 7 5) (w.extractLsb' 15 5) (w.extractLsb' 20 5)))
    ∧ (w &&& 0x4000707F#32 = 0x40005033#32 → decode w = .instr (.sra (w.extractLsb' 7 5) (w.extractLsb' 15 5) (w.extractLsb' 20 5))))
  ∧ ∀ (rd rs1 rs2 : RegIdx) (s : State) (k : Nat), k = (readReg rs2 s).toNat % 32 →
    (∃ t, exec (.sll rd rs1 rs2) s = .next t ∧ Retires s t rd (readReg rs1 s <<< k) (s.pc + 4#32))
    ∧ (∃ t, exec (.srl rd rs1 rs2) s = .next t ∧ Retires s t rd (readReg rs1 s >>> k) (s.pc + 4#32))
    ∧ (∃ t, exec (.sra rd rs1 rs2) s = .next t ∧ Retires s t rd ((readReg rs1 s).sshiftRight k) (s.pc + 4#32))

/-- Every word of OP-IMM and OP, aliases too, runs the ALU operation that funct3 and bit 30 select on x[rs1] and the
immediate or x[rs2], writes it to rd and advances (R160, R170; the operation select is R97's; D3, D15, log 11). -/
def Obligations.IntegerWordsRunTheSelectedOperation : Prop :=
  ∀ (s : State) (w : Word), fetchWord s = some w →
    (fieldOpcode w = opOpImm → ∃ t, step s = .next t
      ∧ Retires s t (fieldRd w)
        (alu (aluSelect false (fieldFunct3 w) (fieldBit30 w)) (readReg (fieldRs1 w) s) (immI w)) (s.pc + 4#32))
    ∧ (fieldOpcode w = opOp → ∃ t, step s = .next t
      ∧ Retires s t (fieldRd w)
        (alu (aluSelect true (fieldFunct3 w) (fieldBit30 w)) (readReg (fieldRs1 w) s) (readReg (fieldRs2 w) s))
        (s.pc + 4#32))

/-- FENCE, ECALL, EBREAK (R201 to R203): FENCE zeroes the register its rd field names, the standard forms and ECALL and
EBREAK change only the pc; there is no exception (their words are D3's kind of general knowledge, the effect D10's; log 11).
-/
def Obligations.FenceEcallEbreakOnlyAdvance : Prop :=
  (∀ w : Word, w &&& 0x0000707F#32 = 0x0000000F#32 → decode w = .instr (.fence (w.extractLsb' 7 5) (w.extractLsb' 15 5)
    (w.extractLsb' 28 4) (w.extractLsb' 24 4) (w.extractLsb' 20 4)))
  ∧ decode 0x00000073#32 = .instr .ecall ∧ decode 0x00100073#32 = .instr .ebreak
  ∧ ∀ (rd rs1 : RegIdx) (fm pred succ : BitVec 4) (s : State),
    (∃ t, exec (.fence rd rs1 fm pred succ) s = .next t ∧ Retires s t rd 0#32 (s.pc + 4#32))
    ∧ (∃ t, exec (.fence 0#5 rs1 fm pred succ) s = .next t ∧ OnlyPc s t (s.pc + 4#32))
    ∧ (∃ t, exec .ecall s = .next t ∧ OnlyPc s t (s.pc + 4#32))
    ∧ (∃ t, exec .ebreak s = .next t ∧ OnlyPc s t (s.pc + 4#32))

/-- The unrecognized path (R200, R204; D10, log 11): every word outside the nine opcodes, FENCE, ECALL and EBREAK among them,
writes 0 to the register its rd field names (none when it is 0), advances the pc and does nothing else. -/
def Obligations.UnrecognizedWordsZeroRdAndAdvance : Prop :=
  ∀ (s : State) (w : Word), fetchWord s = some w →
    w.extractLsb' 0 7 ∉ [0b0110111#7, 0b0010111#7, 0b1101111#7, 0b1100111#7, 0b1100011#7, 0b0000011#7, 0b0100011#7,
      0b0010011#7, 0b0110011#7] →
    (outputs s).data = none ∧ (decodeStatus w = .noEffect ∨ decodeStatus w = .unrecognized)
    ∧ ∃ t, step s = .next t ∧ Retires s t (w.extractLsb' 7 5) 0#32 (s.pc + 4#32)

/-- The corner words (R205): all zeros changes only the pc, so a run into zero-filled memory slides forward; all ones zeroes
x31 (D10, log 11). -/
def Obligations.AllZeroAndAllOneWords : Prop :=
  ∀ s : State,
    (fetchWord s = some 0x00000000#32 → ∃ t, step s = .next t ∧ OnlyPc s t (s.pc + 4#32))
    ∧ (fetchWord s = some 0xFFFFFFFF#32 → ∃ t, step s = .next t ∧ Retires s t 31#5 0#32 (s.pc + 4#32))

/-! ### The state reporter -/

/-- The report of a state (R237): the pc, the word at the pc exactly when the pc is in the text region, the 32 registers, and
every byte of the stack region; the dump is in canonical form when memory is. The dump's extent and form and the
reading of the word are the model's choice (log 15), and so is the rounding of MEM_SIZE / 2 (log 14). -/
def Obligations.ReportShowsTheState : Prop :=
  ∀ s : State,
    (report s).pc = s.pc
    ∧ (translate s s.pc < s.memSize / 2 → (report s).word = fetchWord s)
    ∧ (s.memSize / 2 ≤ translate s s.pc → (report s).word = none)
    ∧ (∀ r : RegIdx, r ≠ 0#5 → (report s).regs[r.toNat]'r.isLt = readReg r s)
    ∧ (∀ a, s.memSize / 2 ≤ translate s a → inBounds s a 1 = true →
      byteAt s a = some (Memory.read (report s).stack (translate s a)))
    ∧ (∀ c ∈ (report s).stack, s.memSize / 2 ≤ c.1 ∧ c.1 < s.memSize)
    ∧ (s.mem.wf = true → (report s).stack.wf = true)

/-- The reporter is invoked after each step and changes nothing (R237): the run with it stands as the run without it; there is
a report k exactly when the driver activates step k (the first is step 0: k < n, the steps before it all completed and no
state up to it had pc = 0), and it shows the state that step leaves, the next state or, on a fault, the unchanged one (R212).
The driver's test is D22, log 11. -/
def Obligations.ReporterFollowsEachStepAndChangesNothing : Prop :=
  ∀ (n : Nat) (s : State),
    (driveReporting n s).2 = drive n s
    ∧ (∀ k, k < (driveReporting n s).1.length
        ↔ k < n ∧ ∀ j, j ≤ k → ∃ t, Host.Core.run core j s = .next t ∧ t.pc ≠ 0#32)
    ∧ (∀ k (h : k < (driveReporting n s).1.length) (t : State), Host.Core.run core k s = .next t →
      (∃ u, step t = .next u ∧ (driveReporting n s).1[k] = report u)
      ∨ (∃ f, step t = .fault f ∧ (driveReporting n s).1[k] = report t))
end

