-- ==== Sys2Proof/Laws/Alu.lean ====
section
/-! SUPPORT. The comparisons as propositions, the shift amount as a number (Machine/Flags.lean, Machine/Alu.lean). -/

namespace Sys2Proof.Machine

@[simp] theorem ltSigned_iff (a b : Word) : ltSigned a b = true ↔ a.toInt < b.toInt := decide_eq_true_iff
@[simp] theorem ltUnsigned_iff (a b : Word) : ltUnsigned a b = true ↔ a.toNat < b.toNat := decide_eq_true_iff

@[simp] theorem ltSigned_eq_false (a b : Word) : ltSigned a b = false ↔ b.toInt ≤ a.toInt := by
  rw [ltSigned, decide_eq_false_iff_not, Int.not_lt]

@[simp] theorem ltUnsigned_eq_false (a b : Word) : ltUnsigned a b = false ↔ b.toNat ≤ a.toNat := by
  rw [ltUnsigned, decide_eq_false_iff_not, Nat.not_lt]

theorem boolWord_ltSigned (a b : Word) : boolWord (ltSigned a b) = if a.toInt < b.toInt then 1#32 else 0#32 :=
  if_congr (ltSigned_iff a b) rfl rfl

theorem boolWord_ltUnsigned (a b : Word) : boolWord (ltUnsigned a b) = if a.toNat < b.toNat then 1#32 else 0#32 :=
  if_congr (ltUnsigned_iff a b) rfl rfl

theorem shiftAmount_eq (b : Word) : shiftAmount b = b.toNat % 32 := by simp [shiftAmount]

theorem shiftAmount_lt (b : Word) : shiftAmount b < 32 := by rw [shiftAmount_eq]; omega

/-- The shift amount of SLLI, SRLI, SRAI is the shamt field. -/
@[simp] theorem shiftAmount_shamtOperand (shamt : BitVec 5) : shiftAmount (shamtOperand shamt) = shamt.toNat := by
  rw [shiftAmount_eq, shamtOperand, BitVec.toNat_setWidth]; have := shamt.isLt; omega

end Sys2Proof.Machine
end

