-- ==== Sys2Proof/Laws/Decode.lean ====
section
/-! SUPPORT. The encoder's formats (R62) bit by bit, the fields the decoder reads back from an encoded word, the encoded word
rebuilt from a word's own fields, and what a table row's mask and value fix of a word's fields. Proofs about decode and encode
cite these and never unfold a format. -/

namespace Sys2Proof

/-! ### The formats bit by bit -/

theorem encR_getLsbD (funct7 : BitVec 7) (rs2 : RegIdx) (rs1 : RegIdx) (funct3 : BitVec 3) (rd : RegIdx) (opcode : BitVec 7) (i : Nat) :
    (encR funct7 rs2 rs1 funct3 rd opcode).getLsbD i =
      if i < 7 then opcode.getLsbD i
      else if i < 12 then rd.getLsbD (i - 7)
      else if i < 15 then funct3.getLsbD (i - 12)
      else if i < 20 then rs1.getLsbD (i - 15)
      else if i < 25 then rs2.getLsbD (i - 20)
      else funct7.getLsbD (i - 25) := by
  show @BitVec.getLsbD (7 + 5 + 5 + 3 + 5 + 7) (funct7 ++ rs2 ++ rs1 ++ funct3 ++ rd ++ opcode) i = _
  simp only [BitVec.getLsbD_append]
  grind

theorem encI_getLsbD (imm : BitVec 12) (rs1 : RegIdx) (funct3 : BitVec 3) (rd : RegIdx) (opcode : BitVec 7) (i : Nat) :
    (encI imm rs1 funct3 rd opcode).getLsbD i =
      if i < 7 then opcode.getLsbD i
      else if i < 12 then rd.getLsbD (i - 7)
      else if i < 15 then funct3.getLsbD (i - 12)
      else if i < 20 then rs1.getLsbD (i - 15)
      else imm.getLsbD (i - 20) := by
  show @BitVec.getLsbD (12 + 5 + 3 + 5 + 7) (imm ++ rs1 ++ funct3 ++ rd ++ opcode) i = _
  simp only [BitVec.getLsbD_append]
  grind

theorem encS_getLsbD (imm : BitVec 12) (rs2 : RegIdx) (rs1 : RegIdx) (funct3 : BitVec 3) (opcode : BitVec 7) (i : Nat) :
    (encS imm rs2 rs1 funct3 opcode).getLsbD i =
      if i < 7 then opcode.getLsbD i
      else if i < 12 then (imm.extractLsb' 0 5).getLsbD (i - 7)
      else if i < 15 then funct3.getLsbD (i - 12)
      else if i < 20 then rs1.getLsbD (i - 15)
      else if i < 25 then rs2.getLsbD (i - 20)
      else (imm.extractLsb' 5 7).getLsbD (i - 25) := by
  show @BitVec.getLsbD (7 + 5 + 5 + 3 + 5 + 7) (imm.extractLsb' 5 7 ++ rs2 ++ rs1 ++ funct3 ++ imm.extractLsb' 0 5 ++ opcode) i = _
  simp only [BitVec.getLsbD_append]
  grind

theorem encB_getLsbD (off : BitVec 13) (rs2 : RegIdx) (rs1 : RegIdx) (funct3 : BitVec 3) (opcode : BitVec 7) (i : Nat) :
    (encB off rs2 rs1 funct3 opcode).getLsbD i =
      if i < 7 then opcode.getLsbD i
      else if i < 8 then (off.extractLsb' 11 1).getLsbD (i - 7)
      else if i < 12 then (off.extractLsb' 1 4).getLsbD (i - 8)
      else if i < 15 then funct3.getLsbD (i - 12)
      else if i < 20 then rs1.getLsbD (i - 15)
      else if i < 25 then rs2.getLsbD (i - 20)
      else if i < 31 then (off.extractLsb' 5 6).getLsbD (i - 25)
      else (off.extractLsb' 12 1).getLsbD (i - 31) := by
  show @BitVec.getLsbD (1 + 6 + 5 + 5 + 3 + 4 + 1 + 7) (off.extractLsb' 12 1 ++ off.extractLsb' 5 6 ++ rs2 ++ rs1 ++ funct3 ++ off.extractLsb' 1 4 ++ off.extractLsb' 11 1 ++ opcode) i = _
  simp only [BitVec.getLsbD_append]
  grind

theorem encU_getLsbD (imm : BitVec 20) (rd : RegIdx) (opcode : BitVec 7) (i : Nat) :
    (encU imm rd opcode).getLsbD i =
      if i < 7 then opcode.getLsbD i
      else if i < 12 then rd.getLsbD (i - 7)
      else imm.getLsbD (i - 12) := by
  show @BitVec.getLsbD (20 + 5 + 7) (imm ++ rd ++ opcode) i = _
  simp only [BitVec.getLsbD_append]
  grind

theorem encJ_getLsbD (off : BitVec 21) (rd : RegIdx) (opcode : BitVec 7) (i : Nat) :
    (encJ off rd opcode).getLsbD i =
      if i < 7 then opcode.getLsbD i
      else if i < 12 then rd.getLsbD (i - 7)
      else if i < 20 then (off.extractLsb' 12 8).getLsbD (i - 12)
      else if i < 21 then (off.extractLsb' 11 1).getLsbD (i - 20)
      else if i < 31 then (off.extractLsb' 1 10).getLsbD (i - 21)
      else (off.extractLsb' 20 1).getLsbD (i - 31) := by
  show @BitVec.getLsbD (1 + 10 + 1 + 8 + 5 + 7) (off.extractLsb' 20 1 ++ off.extractLsb' 1 10 ++ off.extractLsb' 11 1 ++ off.extractLsb' 12 8 ++ rd ++ opcode) i = _
  simp only [BitVec.getLsbD_append]
  grind

theorem encFence_getLsbD (rd : RegIdx) (rs1 : RegIdx) (fm : BitVec 4) (pred : BitVec 4) (succ : BitVec 4) (i : Nat) :
    (encFence rd rs1 fm pred succ).getLsbD i =
      if i < 7 then opMiscMem.getLsbD i
      else if i < 12 then rd.getLsbD (i - 7)
      else if i < 15 then BitVec.getLsbD 0#3 (i - 12)
      else if i < 20 then rs1.getLsbD (i - 15)
      else if i < 24 then succ.getLsbD (i - 20)
      else if i < 28 then pred.getLsbD (i - 24)
      else fm.getLsbD (i - 28) := by
  show @BitVec.getLsbD (4 + 4 + 4 + 5 + 3 + 5 + 7) (fm ++ pred ++ succ ++ rs1 ++ 0#3 ++ rd ++ opMiscMem) i = _
  simp only [BitVec.getLsbD_append]
  grind

/-! ### The fields of an encoded word -/

@[simp] theorem fieldOpcode_encR (funct7 : BitVec 7) (rs2 : RegIdx) (rs1 : RegIdx) (funct3 : BitVec 3) (rd : RegIdx) (opcode : BitVec 7) :
    fieldOpcode (encR funct7 rs2 rs1 funct3 rd opcode) = opcode := by
  apply BitVec.eq_of_getLsbD_eq
  intro i hi
  simp only [fieldOpcode, BitVec.getLsbD_extractLsb', encR_getLsbD]
  grind

@[simp] theorem fieldRd_encR (funct7 : BitVec 7) (rs2 : RegIdx) (rs1 : RegIdx) (funct3 : BitVec 3) (rd : RegIdx) (opcode : BitVec 7) :
    fieldRd (encR funct7 rs2 rs1 funct3 rd opcode) = rd := by
  apply BitVec.eq_of_getLsbD_eq
  intro i hi
  simp only [fieldRd, BitVec.getLsbD_extractLsb', encR_getLsbD]
  grind

@[simp] theorem fieldFunct3_encR (funct7 : BitVec 7) (rs2 : RegIdx) (rs1 : RegIdx) (funct3 : BitVec 3) (rd : RegIdx) (opcode : BitVec 7) :
    fieldFunct3 (encR funct7 rs2 rs1 funct3 rd opcode) = funct3 := by
  apply BitVec.eq_of_getLsbD_eq
  intro i hi
  simp only [fieldFunct3, BitVec.getLsbD_extractLsb', encR_getLsbD]
  grind

@[simp] theorem fieldRs1_encR (funct7 : BitVec 7) (rs2 : RegIdx) (rs1 : RegIdx) (funct3 : BitVec 3) (rd : RegIdx) (opcode : BitVec 7) :
    fieldRs1 (encR funct7 rs2 rs1 funct3 rd opcode) = rs1 := by
  apply BitVec.eq_of_getLsbD_eq
  intro i hi
  simp only [fieldRs1, BitVec.getLsbD_extractLsb', encR_getLsbD]
  grind

@[simp] theorem fieldRs2_encR (funct7 : BitVec 7) (rs2 : RegIdx) (rs1 : RegIdx) (funct3 : BitVec 3) (rd : RegIdx) (opcode : BitVec 7) :
    fieldRs2 (encR funct7 rs2 rs1 funct3 rd opcode) = rs2 := by
  apply BitVec.eq_of_getLsbD_eq
  intro i hi
  simp only [fieldRs2, BitVec.getLsbD_extractLsb', encR_getLsbD]
  grind

@[simp] theorem fieldFunct7_encR (funct7 : BitVec 7) (rs2 : RegIdx) (rs1 : RegIdx) (funct3 : BitVec 3) (rd : RegIdx) (opcode : BitVec 7) :
    fieldFunct7 (encR funct7 rs2 rs1 funct3 rd opcode) = funct7 := by
  apply BitVec.eq_of_getLsbD_eq
  intro i hi
  simp only [fieldFunct7, BitVec.getLsbD_extractLsb', encR_getLsbD]
  grind

@[simp] theorem fieldOpcode_encI (imm : BitVec 12) (rs1 : RegIdx) (funct3 : BitVec 3) (rd : RegIdx) (opcode : BitVec 7) :
    fieldOpcode (encI imm rs1 funct3 rd opcode) = opcode := by
  apply BitVec.eq_of_getLsbD_eq
  intro i hi
  simp only [fieldOpcode, BitVec.getLsbD_extractLsb', encI_getLsbD]
  grind

@[simp] theorem fieldRd_encI (imm : BitVec 12) (rs1 : RegIdx) (funct3 : BitVec 3) (rd : RegIdx) (opcode : BitVec 7) :
    fieldRd (encI imm rs1 funct3 rd opcode) = rd := by
  apply BitVec.eq_of_getLsbD_eq
  intro i hi
  simp only [fieldRd, BitVec.getLsbD_extractLsb', encI_getLsbD]
  grind

@[simp] theorem fieldFunct3_encI (imm : BitVec 12) (rs1 : RegIdx) (funct3 : BitVec 3) (rd : RegIdx) (opcode : BitVec 7) :
    fieldFunct3 (encI imm rs1 funct3 rd opcode) = funct3 := by
  apply BitVec.eq_of_getLsbD_eq
  intro i hi
  simp only [fieldFunct3, BitVec.getLsbD_extractLsb', encI_getLsbD]
  grind

@[simp] theorem fieldRs1_encI (imm : BitVec 12) (rs1 : RegIdx) (funct3 : BitVec 3) (rd : RegIdx) (opcode : BitVec 7) :
    fieldRs1 (encI imm rs1 funct3 rd opcode) = rs1 := by
  apply BitVec.eq_of_getLsbD_eq
  intro i hi
  simp only [fieldRs1, BitVec.getLsbD_extractLsb', encI_getLsbD]
  grind

@[simp] theorem fieldOpcode_encS (imm : BitVec 12) (rs2 : RegIdx) (rs1 : RegIdx) (funct3 : BitVec 3) (opcode : BitVec 7) :
    fieldOpcode (encS imm rs2 rs1 funct3 opcode) = opcode := by
  apply BitVec.eq_of_getLsbD_eq
  intro i hi
  simp only [fieldOpcode, BitVec.getLsbD_extractLsb', encS_getLsbD]
  grind

@[simp] theorem fieldFunct3_encS (imm : BitVec 12) (rs2 : RegIdx) (rs1 : RegIdx) (funct3 : BitVec 3) (opcode : BitVec 7) :
    fieldFunct3 (encS imm rs2 rs1 funct3 opcode) = funct3 := by
  apply BitVec.eq_of_getLsbD_eq
  intro i hi
  simp only [fieldFunct3, BitVec.getLsbD_extractLsb', encS_getLsbD]
  grind

@[simp] theorem fieldRs1_encS (imm : BitVec 12) (rs2 : RegIdx) (rs1 : RegIdx) (funct3 : BitVec 3) (opcode : BitVec 7) :
    fieldRs1 (encS imm rs2 rs1 funct3 opcode) = rs1 := by
  apply BitVec.eq_of_getLsbD_eq
  intro i hi
  simp only [fieldRs1, BitVec.getLsbD_extractLsb', encS_getLsbD]
  grind

@[simp] theorem fieldRs2_encS (imm : BitVec 12) (rs2 : RegIdx) (rs1 : RegIdx) (funct3 : BitVec 3) (opcode : BitVec 7) :
    fieldRs2 (encS imm rs2 rs1 funct3 opcode) = rs2 := by
  apply BitVec.eq_of_getLsbD_eq
  intro i hi
  simp only [fieldRs2, BitVec.getLsbD_extractLsb', encS_getLsbD]
  grind

@[simp] theorem fieldOpcode_encB (off : BitVec 13) (rs2 : RegIdx) (rs1 : RegIdx) (funct3 : BitVec 3) (opcode : BitVec 7) :
    fieldOpcode (encB off rs2 rs1 funct3 opcode) = opcode := by
  apply BitVec.eq_of_getLsbD_eq
  intro i hi
  simp only [fieldOpcode, BitVec.getLsbD_extractLsb', encB_getLsbD]
  grind

@[simp] theorem fieldFunct3_encB (off : BitVec 13) (rs2 : RegIdx) (rs1 : RegIdx) (funct3 : BitVec 3) (opcode : BitVec 7) :
    fieldFunct3 (encB off rs2 rs1 funct3 opcode) = funct3 := by
  apply BitVec.eq_of_getLsbD_eq
  intro i hi
  simp only [fieldFunct3, BitVec.getLsbD_extractLsb', encB_getLsbD]
  grind

@[simp] theorem fieldRs1_encB (off : BitVec 13) (rs2 : RegIdx) (rs1 : RegIdx) (funct3 : BitVec 3) (opcode : BitVec 7) :
    fieldRs1 (encB off rs2 rs1 funct3 opcode) = rs1 := by
  apply BitVec.eq_of_getLsbD_eq
  intro i hi
  simp only [fieldRs1, BitVec.getLsbD_extractLsb', encB_getLsbD]
  grind

@[simp] theorem fieldRs2_encB (off : BitVec 13) (rs2 : RegIdx) (rs1 : RegIdx) (funct3 : BitVec 3) (opcode : BitVec 7) :
    fieldRs2 (encB off rs2 rs1 funct3 opcode) = rs2 := by
  apply BitVec.eq_of_getLsbD_eq
  intro i hi
  simp only [fieldRs2, BitVec.getLsbD_extractLsb', encB_getLsbD]
  grind

@[simp] theorem fieldOpcode_encU (imm : BitVec 20) (rd : RegIdx) (opcode : BitVec 7) :
    fieldOpcode (encU imm rd opcode) = opcode := by
  apply BitVec.eq_of_getLsbD_eq
  intro i hi
  simp only [fieldOpcode, BitVec.getLsbD_extractLsb', encU_getLsbD]
  grind

@[simp] theorem fieldRd_encU (imm : BitVec 20) (rd : RegIdx) (opcode : BitVec 7) :
    fieldRd (encU imm rd opcode) = rd := by
  apply BitVec.eq_of_getLsbD_eq
  intro i hi
  simp only [fieldRd, BitVec.getLsbD_extractLsb', encU_getLsbD]
  grind

@[simp] theorem fieldOpcode_encJ (off : BitVec 21) (rd : RegIdx) (opcode : BitVec 7) :
    fieldOpcode (encJ off rd opcode) = opcode := by
  apply BitVec.eq_of_getLsbD_eq
  intro i hi
  simp only [fieldOpcode, BitVec.getLsbD_extractLsb', encJ_getLsbD]
  grind

@[simp] theorem fieldRd_encJ (off : BitVec 21) (rd : RegIdx) (opcode : BitVec 7) :
    fieldRd (encJ off rd opcode) = rd := by
  apply BitVec.eq_of_getLsbD_eq
  intro i hi
  simp only [fieldRd, BitVec.getLsbD_extractLsb', encJ_getLsbD]
  grind

@[simp] theorem fieldOpcode_encFence (rd : RegIdx) (rs1 : RegIdx) (fm : BitVec 4) (pred : BitVec 4) (succ : BitVec 4) :
    fieldOpcode (encFence rd rs1 fm pred succ) = opMiscMem := by
  apply BitVec.eq_of_getLsbD_eq
  intro i hi
  simp only [fieldOpcode, BitVec.getLsbD_extractLsb', encFence_getLsbD]
  grind

@[simp] theorem fieldRd_encFence (rd : RegIdx) (rs1 : RegIdx) (fm : BitVec 4) (pred : BitVec 4) (succ : BitVec 4) :
    fieldRd (encFence rd rs1 fm pred succ) = rd := by
  apply BitVec.eq_of_getLsbD_eq
  intro i hi
  simp only [fieldRd, BitVec.getLsbD_extractLsb', encFence_getLsbD]
  grind

@[simp] theorem fieldFunct3_encFence (rd : RegIdx) (rs1 : RegIdx) (fm : BitVec 4) (pred : BitVec 4) (succ : BitVec 4) :
    fieldFunct3 (encFence rd rs1 fm pred succ) = 0#3 := by
  apply BitVec.eq_of_getLsbD_eq
  intro i hi
  simp only [fieldFunct3, BitVec.getLsbD_extractLsb', encFence_getLsbD]
  grind

@[simp] theorem fieldRs1_encFence (rd : RegIdx) (rs1 : RegIdx) (fm : BitVec 4) (pred : BitVec 4) (succ : BitVec 4) :
    fieldRs1 (encFence rd rs1 fm pred succ) = rs1 := by
  apply BitVec.eq_of_getLsbD_eq
  intro i hi
  simp only [fieldRs1, BitVec.getLsbD_extractLsb', encFence_getLsbD]
  grind

@[simp] theorem fieldImmI_encI (imm : BitVec 12) (rs1 : RegIdx) (funct3 : BitVec 3) (rd : RegIdx) (opcode : BitVec 7) :
    fieldImmI (encI imm rs1 funct3 rd opcode) = imm := by
  apply BitVec.eq_of_getLsbD_eq
  intro i hi
  simp only [fieldImmI, BitVec.getLsbD_extractLsb', encI_getLsbD]
  grind

@[simp] theorem fieldImmU_encU (imm : BitVec 20) (rd : RegIdx) (opcode : BitVec 7) :
    fieldImmU (encU imm rd opcode) = imm := by
  apply BitVec.eq_of_getLsbD_eq
  intro i hi
  simp only [fieldImmU, BitVec.getLsbD_extractLsb', encU_getLsbD]
  grind

@[simp] theorem fieldImmS_encS (imm : BitVec 12) (rs2 : RegIdx) (rs1 : RegIdx) (funct3 : BitVec 3) (opcode : BitVec 7) :
    fieldImmS (encS imm rs2 rs1 funct3 opcode) = imm := by
  apply BitVec.eq_of_getLsbD_eq
  intro i hi
  simp only [fieldImmS, BitVec.getLsbD_extractLsb', encS_getLsbD, BitVec.getLsbD_append]
  grind

@[simp] theorem fieldImmB_encB (off : BitVec 13) (rs2 : RegIdx) (rs1 : RegIdx) (funct3 : BitVec 3) (opcode : BitVec 7) (h : evenOffsetB off = true) :
    fieldImmB (encB off rs2 rs1 funct3 opcode) = off := by
  apply BitVec.eq_of_getLsbD_eq
  intro i hi
  have h0 : off.getLsbD 0 = false := by simpa only [evenOffsetB, Bool.not_eq_true'] using h
  simp only [fieldImmB, BitVec.getLsbD_extractLsb', encB_getLsbD, BitVec.getLsbD_append]
  grind

@[simp] theorem fieldImmJ_encJ (off : BitVec 21) (rd : RegIdx) (opcode : BitVec 7) (h : evenOffsetJ off = true) :
    fieldImmJ (encJ off rd opcode) = off := by
  apply BitVec.eq_of_getLsbD_eq
  intro i hi
  have h0 : off.getLsbD 0 = false := by simpa only [evenOffsetJ, Bool.not_eq_true'] using h
  simp only [fieldImmJ, BitVec.getLsbD_extractLsb', encJ_getLsbD, BitVec.getLsbD_append]
  grind

@[simp] theorem fieldBit30_encR (funct7 : BitVec 7) (rs2 : RegIdx) (rs1 : RegIdx) (funct3 : BitVec 3) (rd : RegIdx)
    (opcode : BitVec 7) : fieldBit30 (encR funct7 rs2 rs1 funct3 rd opcode) = funct7.getLsbD 5 := by
  simp only [fieldBit30, encR_getLsbD]
  grind

@[simp] theorem fence_fields (rd rs1 : RegIdx) (fm pred succ : BitVec 4) :
    (encFence rd rs1 fm pred succ).extractLsb' 28 4 = fm ∧ (encFence rd rs1 fm pred succ).extractLsb' 24 4 = pred
      ∧ (encFence rd rs1 fm pred succ).extractLsb' 20 4 = succ := by
  refine ⟨?_, ?_, ?_⟩ <;>
  · apply BitVec.eq_of_getLsbD_eq
    intro i hi
    simp only [BitVec.getLsbD_extractLsb', encFence_getLsbD]
    grind

/-! ### Immediates read from a word -/

@[simp] theorem evenOffsetB_fieldImmB (w : Word) : evenOffsetB (fieldImmB w) = true := by
  simp only [evenOffsetB, fieldImmB, BitVec.getLsbD_append]
  rfl

@[simp] theorem evenOffsetJ_fieldImmJ (w : Word) : evenOffsetJ (fieldImmJ w) = true := by
  simp only [evenOffsetJ, fieldImmJ, BitVec.getLsbD_append]
  rfl

/-! ### A word rebuilt from its own fields -/

theorem encR_fields (w : Word) : encR (fieldFunct7 w) (fieldRs2 w) (fieldRs1 w) (fieldFunct3 w) (fieldRd w) (fieldOpcode w) = w := by
  apply BitVec.eq_of_getLsbD_eq
  intro i hi
  simp only [encR_getLsbD, fieldFunct7, fieldRs2, fieldRs1, fieldFunct3, fieldRd, fieldOpcode, BitVec.getLsbD_extractLsb']
  grind

theorem encI_fields (w : Word) : encI (fieldImmI w) (fieldRs1 w) (fieldFunct3 w) (fieldRd w) (fieldOpcode w) = w := by
  apply BitVec.eq_of_getLsbD_eq
  intro i hi
  simp only [encI_getLsbD, fieldImmI, fieldRs1, fieldFunct3, fieldRd, fieldOpcode, BitVec.getLsbD_extractLsb']
  grind

theorem encS_fields (w : Word) : encS (fieldImmS w) (fieldRs2 w) (fieldRs1 w) (fieldFunct3 w) (fieldOpcode w) = w := by
  apply BitVec.eq_of_getLsbD_eq
  intro i hi
  simp only [encS_getLsbD, fieldImmS, fieldRs2, fieldRs1, fieldFunct3, fieldOpcode, BitVec.getLsbD_extractLsb', BitVec.getLsbD_append]
  grind

theorem encB_fields (w : Word) : encB (fieldImmB w) (fieldRs2 w) (fieldRs1 w) (fieldFunct3 w) (fieldOpcode w) = w := by
  apply BitVec.eq_of_getLsbD_eq
  intro i hi
  simp only [encB_getLsbD, fieldImmB, fieldRs2, fieldRs1, fieldFunct3, fieldOpcode, BitVec.getLsbD_extractLsb', BitVec.getLsbD_append]
  grind

theorem encU_fields (w : Word) : encU (fieldImmU w) (fieldRd w) (fieldOpcode w) = w := by
  apply BitVec.eq_of_getLsbD_eq
  intro i hi
  simp only [encU_getLsbD, fieldImmU, fieldRd, fieldOpcode, BitVec.getLsbD_extractLsb']
  grind

theorem encJ_fields (w : Word) : encJ (fieldImmJ w) (fieldRd w) (fieldOpcode w) = w := by
  apply BitVec.eq_of_getLsbD_eq
  intro i hi
  simp only [encJ_getLsbD, fieldImmJ, fieldRd, fieldOpcode, BitVec.getLsbD_extractLsb', BitVec.getLsbD_append]
  grind

/-- A FENCE word rebuilt from its fields. -/
theorem encFence_fields {w : Word} (ho : fieldOpcode w = opMiscMem) (hf : fieldFunct3 w = 0#3) :
    encFence (fieldRd w) (fieldRs1 w) (w.extractLsb' 28 4) (w.extractLsb' 24 4) (w.extractLsb' 20 4) = w := by
  apply BitVec.eq_of_getLsbD_eq
  intro i hi
  rw [encFence_getLsbD, ← ho, ← hf]
  simp only [fieldRs1, fieldFunct3, fieldRd, fieldOpcode, BitVec.getLsbD_extractLsb']
  grind

/-! ### What a mask and value fix -/

theorem fieldOpcode_and (w m : Word) : fieldOpcode (w &&& m) = fieldOpcode w &&& fieldOpcode m :=
  BitVec.extractLsb'_and

theorem fieldFunct3_and (w m : Word) : fieldFunct3 (w &&& m) = fieldFunct3 w &&& fieldFunct3 m :=
  BitVec.extractLsb'_and

theorem fieldBit30_and (w m : Word) : fieldBit30 (w &&& m) = (fieldBit30 w && fieldBit30 m) :=
  BitVec.getLsbD_and

/-- A mask that covers the opcode fixes it. -/
theorem fieldOpcode_of_mask {w m v : Word} (h : w &&& m = v) (hm : fieldOpcode m = BitVec.allOnes 7) :
    fieldOpcode w = fieldOpcode v := by
  rw [← h, fieldOpcode_and, hm, BitVec.and_allOnes]

/-- A mask that covers funct3 fixes it. -/
theorem fieldFunct3_of_mask {w m v : Word} (h : w &&& m = v) (hm : fieldFunct3 m = BitVec.allOnes 3) :
    fieldFunct3 w = fieldFunct3 v := by
  rw [← h, fieldFunct3_and, hm, BitVec.and_allOnes]

/-- A mask that covers bit 30 fixes it. -/
theorem fieldBit30_of_mask {w m v : Word} (h : w &&& m = v) (hm : fieldBit30 m = true) :
    fieldBit30 w = fieldBit30 v := by
  rw [← h, fieldBit30_and, hm, Bool.and_true]

/-- The opcode mask holds exactly when the opcode field does. -/
theorem mask7F_iff (w v : Word) (hv : v &&& 0x0000007F#32 = v) :
    w &&& 0x0000007F#32 = v ↔ fieldOpcode w = fieldOpcode v := by
  constructor
  · exact fun h => fieldOpcode_of_mask h (by decide)
  · intro h
    rw [← hv]
    have e : ∀ x : Word, x &&& 0x0000007F#32 = (fieldOpcode x).setWidth 32 := by
      intro x
      apply BitVec.eq_of_toNat_eq
      simp only [fieldOpcode, BitVec.toNat_and, BitVec.toNat_setWidth, BitVec.extractLsb'_toNat, Nat.shiftRight_zero]
      rw [show BitVec.toNat 0x0000007F#32 = 2 ^ 7 - 1 from rfl, Nat.and_two_pow_sub_one_eq_mod]
      omega
    rw [e w, e v, h]

/-- The opcode and funct3 mask holds exactly when both fields do. -/
theorem mask707F_iff (w v : Word) (hv : v &&& 0x0000707F#32 = v) :
    w &&& 0x0000707F#32 = v ↔ fieldOpcode w = fieldOpcode v ∧ fieldFunct3 w = fieldFunct3 v := by
  constructor
  · exact fun h => ⟨fieldOpcode_of_mask h (by decide), fieldFunct3_of_mask h (by decide)⟩
  · rintro ⟨h1, h2⟩
    rw [← hv]
    have e : ∀ x : Word, x &&& 0x0000707F#32
        = (fieldOpcode x).setWidth 32 ||| ((fieldFunct3 x).setWidth 32 <<< 12) := by
      intro x
      have hk : ∀ i : Nat, i < 32 → (0x0000707F#32).getLsbD i = (decide (i < 7) || (decide (12 ≤ i) && decide (i < 15))) := by
        decide
      apply BitVec.eq_of_getLsbD_eq
      intro i hi
      simp only [fieldOpcode, fieldFunct3, BitVec.getLsbD_and, BitVec.getLsbD_or, BitVec.getLsbD_setWidth,
        BitVec.getLsbD_extractLsb', BitVec.getLsbD_shiftLeft, hk i hi]
      grind
    rw [e w, e v, h1, h2]

/-- The opcode, funct3 and bit 30 mask holds exactly when the three fields do. -/
theorem mask4000707F_iff (w v : Word) (hv : v &&& 0x4000707F#32 = v) :
    w &&& 0x4000707F#32 = v
      ↔ fieldOpcode w = fieldOpcode v ∧ fieldFunct3 w = fieldFunct3 v ∧ fieldBit30 w = fieldBit30 v := by
  constructor
  · exact fun h => ⟨fieldOpcode_of_mask h (by decide), fieldFunct3_of_mask h (by decide), fieldBit30_of_mask h (by decide)⟩
  · rintro ⟨h1, h2, h3⟩
    rw [← hv]
    have e : ∀ x : Word, x &&& 0x4000707F#32
        = (fieldOpcode x).setWidth 32 ||| ((fieldFunct3 x).setWidth 32 <<< 12)
          ||| ((BitVec.ofBool (fieldBit30 x)).setWidth 32 <<< 30) := by
      intro x
      have hk : ∀ i : Nat, i < 32 →
          (0x4000707F#32).getLsbD i = (decide (i < 7) || (decide (12 ≤ i) && decide (i < 15)) || decide (i = 30)) := by
        decide
      apply BitVec.eq_of_getLsbD_eq
      intro i hi
      simp only [fieldOpcode, fieldFunct3, fieldBit30, BitVec.getLsbD_and, BitVec.getLsbD_or, BitVec.getLsbD_setWidth,
        BitVec.getLsbD_extractLsb', BitVec.getLsbD_shiftLeft, BitVec.getLsbD_ofBool, hk i hi]
      grind
    rw [e w, e v, h1, h2, h3]
/-- The standard R-type mask (opcode, funct3, funct7) holds exactly when the three fields do. -/
theorem maskFE00707F_iff (w v : Word) (hv : v &&& 0xFE00707F#32 = v) :
    w &&& 0xFE00707F#32 = v
      ↔ fieldOpcode w = fieldOpcode v ∧ fieldFunct3 w = fieldFunct3 v ∧ fieldFunct7 w = fieldFunct7 v := by
  have e7 : ∀ x y : Word, fieldFunct7 (x &&& y) = fieldFunct7 x &&& fieldFunct7 y := fun _ _ => BitVec.extractLsb'_and
  constructor
  · intro h
    refine ⟨fieldOpcode_of_mask h (by decide), fieldFunct3_of_mask h (by decide), ?_⟩
    rw [← h, e7, show fieldFunct7 0xFE00707F#32 = BitVec.allOnes 7 by decide, BitVec.and_allOnes]
  · rintro ⟨h1, h2, h3⟩
    rw [← hv]
    have e : ∀ x : Word, x &&& 0xFE00707F#32
        = (fieldOpcode x).setWidth 32 ||| ((fieldFunct3 x).setWidth 32 <<< 12)
          ||| ((fieldFunct7 x).setWidth 32 <<< 25) := by
      intro x
      have hk : ∀ i : Nat, i < 32 →
          (0xFE00707F#32).getLsbD i = (decide (i < 7) || (decide (12 ≤ i) && decide (i < 15)) || decide (25 ≤ i)) := by
        decide
      apply BitVec.eq_of_getLsbD_eq
      intro i hi
      simp only [fieldOpcode, fieldFunct3, fieldFunct7, BitVec.getLsbD_and, BitVec.getLsbD_or, BitVec.getLsbD_setWidth,
        BitVec.getLsbD_extractLsb', BitVec.getLsbD_shiftLeft, hk i hi]
      grind
    rw [e w, e v, h1, h2, h3]

end Sys2Proof
end

