-- ==== Sys2Proof/Laws/DecodeArms.lean ====
section
/-! SUPPORT. What `decode` and `control` answer for each opcode, said once: later proofs rewrite with these and never unfold
the chain of tests. -/

namespace Sys2Proof

theorem decode_lui {w : Word} (h : fieldOpcode w = opLui) : decode w = .instr (.lui (fieldRd w) (fieldImmU w)) := by
  simp [decode, h]

theorem decode_auipc {w : Word} (h : fieldOpcode w = opAuipc) : decode w = .instr (.auipc (fieldRd w) (fieldImmU w)) := by
  simp [decode, h, opLui, opAuipc]

theorem decode_jal {w : Word} (h : fieldOpcode w = opJal) : decode w = .instr (.jal (fieldRd w) (fieldImmJ w)) := by
  simp [decode, h, opLui, opAuipc, opJal]

theorem decode_jalr {w : Word} (h : fieldOpcode w = opJalr) :
    decode w = .instr (.jalr (fieldRd w) (fieldRs1 w) (fieldImmI w)) := by
  simp [decode, h, opLui, opAuipc, opJal, opJalr]

theorem decode_branch {w : Word} (h : fieldOpcode w = opBranch) : decode w = decodeBranch w := by
  simp [decode, h, opLui, opAuipc, opJal, opJalr, opBranch]

theorem decode_load {w : Word} (h : fieldOpcode w = opLoad) : decode w = decodeLoad w := by
  simp [decode, h, opLui, opAuipc, opJal, opJalr, opBranch, opLoad]

theorem decode_store {w : Word} (h : fieldOpcode w = opStore) : decode w = decodeStore w := by
  simp [decode, h, opLui, opAuipc, opJal, opJalr, opBranch, opLoad, opStore]

theorem decode_opImm {w : Word} (h : fieldOpcode w = opOpImm) : decode w = .instr (decodeOpImm w) := by
  simp [decode, h, opLui, opAuipc, opJal, opJalr, opBranch, opLoad, opStore, opOpImm]

theorem decode_op {w : Word} (h : fieldOpcode w = opOp) : decode w = .instr (decodeOp w) := by
  simp [decode, h, opLui, opAuipc, opJal, opJalr, opBranch, opLoad, opStore, opOpImm, opOp]

theorem decode_other {w : Word} (h : fieldOpcode w ∉ recognizedOpcodes) : decode w = decodeOther w := by
  simp only [recognizedOpcodes, List.mem_cons, List.not_mem_nil, or_false, not_or] at h
  obtain ⟨h1, h2, h3, h4, h5, h6, h7, h8, h9⟩ := h
  simp only [decode, h1, h2, h3, h4, h5, h6, h7, h8, h9, if_false]

/-- Every word is of one of the nine opcodes or of none. -/
theorem opcode_cases (w : Word) :
    fieldOpcode w = opLui ∨ fieldOpcode w = opAuipc ∨ fieldOpcode w = opJal ∨ fieldOpcode w = opJalr
      ∨ fieldOpcode w = opBranch ∨ fieldOpcode w = opLoad ∨ fieldOpcode w = opStore ∨ fieldOpcode w = opOpImm
      ∨ fieldOpcode w = opOp ∨ fieldOpcode w ∉ recognizedOpcodes := by
  by_cases h : fieldOpcode w ∈ recognizedOpcodes
  · simp only [recognizedOpcodes, List.mem_cons, List.not_mem_nil, or_false] at h
    tauto
  · tauto

/-- The eight values of funct3. -/
theorem funct3_cases (f : BitVec 3) :
    f = 0#3 ∨ f = 1#3 ∨ f = 2#3 ∨ f = 3#3 ∨ f = 4#3 ∨ f = 5#3 ∨ f = 6#3 ∨ f = 7#3 := by
  revert f; decide

namespace Machine

theorem control_lui {w : Word} (h : fieldOpcode w = opLui) :
    controlOf w = ⟨none, .rs1, .immU, true, .immU, .pcPlus4, none⟩ := by
  simp [controlOf, h]

theorem control_auipc {w : Word} (h : fieldOpcode w = opAuipc) :
    controlOf w = ⟨some .add, .pc, .immU, true, .aluOut, .pcPlus4, none⟩ := by
  simp [controlOf, h, opLui, opAuipc]

theorem control_jal {w : Word} (h : fieldOpcode w = opJal) :
    controlOf w = ⟨none, .rs1, .rs2, true, .pcPlus4, .jal, none⟩ := by
  simp [controlOf, h, opLui, opAuipc, opJal]

theorem control_jalr {w : Word} (h : fieldOpcode w = opJalr) :
    controlOf w = ⟨some .add, .rs1, .immI, true, .pcPlus4, .jalr, none⟩ := by
  simp [controlOf, h, opLui, opAuipc, opJal, opJalr]

theorem control_branch {w : Word} (h : fieldOpcode w = opBranch) :
    controlOf w = ⟨none, .rs1, .rs2, false, .none, .branch, none⟩ := by
  simp [controlOf, h, opLui, opAuipc, opJal, opJalr, opBranch]

theorem control_load {w : Word} (h : fieldOpcode w = opLoad) {size : AccessSize} (hs : loadSize (fieldFunct3 w) = some size) :
    controlOf w = ⟨some .add, .rs1, .immI, true, .loadData, .pcPlus4, some ⟨false, size⟩⟩ := by
  simp [controlOf, h, hs, opLui, opAuipc, opJal, opJalr, opBranch, opLoad]

theorem control_reservedLoad {w : Word} (h : fieldOpcode w = opLoad) (hs : loadSize (fieldFunct3 w) = none) :
    controlOf w = controlZero := by
  simp [controlOf, h, hs, opLui, opAuipc, opJal, opJalr, opBranch, opLoad]

theorem control_store {w : Word} (h : fieldOpcode w = opStore) :
    controlOf w = ⟨some .add, .rs1, .immS, false, .none, .pcPlus4,
      (storeSize (fieldFunct3 w)).map (fun size => ⟨true, size⟩)⟩ := by
  simp [controlOf, h, opLui, opAuipc, opJal, opJalr, opBranch, opLoad, opStore]

theorem control_opImm {w : Word} (h : fieldOpcode w = opOpImm) :
    controlOf w = ⟨some (aluSelect false (fieldFunct3 w) (fieldBit30 w)), .rs1, .immI, true, .aluOut, .pcPlus4, none⟩ := by
  simp [controlOf, h, opLui, opAuipc, opJal, opJalr, opBranch, opLoad, opStore, opOpImm]

theorem control_op {w : Word} (h : fieldOpcode w = opOp) :
    controlOf w = ⟨some (aluSelect true (fieldFunct3 w) (fieldBit30 w)), .rs1, .rs2, true, .aluOut, .pcPlus4, none⟩ := by
  simp [controlOf, h, opLui, opAuipc, opJal, opJalr, opBranch, opLoad, opStore, opOpImm, opOp]

theorem control_other {w : Word} (h : fieldOpcode w ∉ recognizedOpcodes) : controlOf w = controlZero := by
  simp only [recognizedOpcodes, List.mem_cons, List.not_mem_nil, or_false, not_or] at h
  obtain ⟨h1, h2, h3, h4, h5, h6, h7, h8, h9⟩ := h
  simp only [controlOf, h1, h2, h3, h4, h5, h6, h7, h8, h9, if_false]

end Machine

end Sys2Proof
end

