-- ==== Sys2Proof/Laws/Memory.lean ====
section
/-! SUPPORT. The laws of the memory buffer: what a read gives after a write, and that every write keeps the canonical form and
stays inside the buffer. Later proofs cite these and never unfold `Memory.write`. -/

namespace Sys2Proof.Machine.Memory

@[simp] theorem read_nil (i : Nat) : Memory.read [] i = unlistedByte := rfl

theorem read_cons (k : Nat) (b : Byte) (rest : Memory) (i : Nat) :
    Memory.read ((k, b) :: rest) i = if k = i then b else Memory.read rest i := rfl

/-- The lower bound of `wfFrom` as a proposition. -/
def above (lo : Option Nat) (i : Nat) : Prop := ∀ l, lo = some l → l < i

@[simp] theorem above_none (i : Nat) : above none i := by simp [above]

@[simp] theorem above_some (l i : Nat) : above (some l) i ↔ l < i := by simp [above]

@[simp] theorem wfFrom_nil (lo : Option Nat) : Memory.wfFrom lo [] = true := by cases lo <;> rfl

theorem wfFrom_cons (lo : Option Nat) (k : Nat) (b : Byte) (rest : Memory) :
    Memory.wfFrom lo ((k, b) :: rest) = true ↔ above lo k ∧ b ≠ unlistedByte ∧ Memory.wfFrom (some k) rest = true := by
  cases lo <;> simp [Memory.wfFrom, and_assoc]

/-- A canonical memory stays canonical under a weaker lower bound. -/
theorem wfFrom_weaken {lo lo' : Option Nat} {m : Memory} (h : Memory.wfFrom lo m = true)
    (hlo : ∀ i, above lo i → above lo' i) : Memory.wfFrom lo' m = true := by
  cases m with
  | nil => simp
  | cons c rest =>
    obtain ⟨k, b⟩ := c
    rw [wfFrom_cons] at h ⊢
    exact ⟨hlo k h.1, h.2⟩

/-- An index at or below the lower bound is not listed. -/
theorem read_of_le {l i : Nat} {m : Memory} (h : Memory.wfFrom (some l) m = true) (hi : i ≤ l) :
    Memory.read m i = unlistedByte := by
  induction m generalizing l with
  | nil => rfl
  | cons c rest ih =>
    obtain ⟨k, b⟩ := c
    rw [wfFrom_cons, above_some] at h
    rw [read_cons, if_neg (by omega)]
    exact ih h.2.2 (by omega)

theorem wfFrom_put {lo : Option Nat} {i : Nat} {v : Byte} {rest : Memory} (hlo : above lo i)
    (h : Memory.wfFrom (some i) rest = true) : Memory.wfFrom lo (Memory.put i v rest) = true := by
  unfold Memory.put
  split
  · exact wfFrom_weaken h (fun j hj => fun l hl => by have := hlo l hl; simp at hj; omega)
  · rw [wfFrom_cons]; exact ⟨hlo, ‹_›, h⟩

theorem read_put {i j : Nat} {v : Byte} {rest : Memory} (h : Memory.wfFrom (some i) rest = true) :
    Memory.read (Memory.put i v rest) j = if j = i then v else Memory.read rest j := by
  unfold Memory.put
  split
  · next hv =>
    split
    · next hj => subst hj; rw [read_of_le h le_rfl, hv]
    · rfl
  · rw [read_cons]; simp only [eq_comm (a := i)]

theorem wfFrom_write {lo : Option Nat} {m : Memory} {i : Nat} {v : Byte} (h : Memory.wfFrom lo m = true)
    (hlo : above lo i) : Memory.wfFrom lo (Memory.write m i v) = true := by
  induction m generalizing lo with
  | nil => exact wfFrom_put hlo (by simp)
  | cons c rest ih =>
    obtain ⟨k, b⟩ := c
    rw [wfFrom_cons] at h
    simp only [Memory.write]
    split
    · next hk => rw [wfFrom_cons]; exact ⟨h.1, h.2.1, ih h.2.2 (by simpa using hk)⟩
    · split
      · next hk => subst hk; exact wfFrom_put hlo h.2.2
      · exact wfFrom_put hlo (by rw [wfFrom_cons, above_some]; exact ⟨by omega, h.2⟩)

theorem read_write_from {lo : Option Nat} {m : Memory} {i j : Nat} {v : Byte} (h : Memory.wfFrom lo m = true) :
    Memory.read (Memory.write m i v) j = if j = i then v else Memory.read m j := by
  induction m generalizing lo with
  | nil => exact read_put (by simp)
  | cons c rest ih =>
    obtain ⟨k, b⟩ := c
    rw [wfFrom_cons] at h
    simp only [Memory.write]
    split
    · next hk =>
      rw [read_cons, read_cons, ih h.2.2]
      by_cases hj : j = i
      · subst hj; simp [show k ≠ j by omega]
      · simp [hj]
    · split
      · next hk =>
        subst hk
        rw [read_put h.2.2, read_cons]
        by_cases hj : j = k
        · simp [hj]
        · simp [hj, Ne.symm hj]
      · exact read_put (by rw [wfFrom_cons, above_some]; exact ⟨by omega, h.2⟩)

/-- A write keeps the canonical form. -/
theorem wf_write {m : Memory} (h : m.wf = true) (i : Nat) (v : Byte) : (Memory.write m i v).wf = true :=
  wfFrom_write h (above_none i)

/-- A read after a write: the byte written at its index, every other index as before. -/
theorem read_write {m : Memory} (h : m.wf = true) (i j : Nat) (v : Byte) :
    Memory.read (Memory.write m i v) j = if j = i then v else Memory.read m j :=
  read_write_from h

theorem within_put {size i : Nat} {v : Byte} {rest : Memory} (hi : i < size) (h : Memory.within size rest = true) :
    Memory.within size (Memory.put i v rest) = true := by
  unfold Memory.put
  split
  · exact h
  · simp only [Memory.within, List.all_cons, decide_eq_true hi, Bool.true_and]; exact h

/-- A write inside the buffer keeps every listed index inside. -/
theorem within_write {size i : Nat} {v : Byte} {m : Memory} (hi : i < size) (h : Memory.within size m = true) :
    Memory.within size (Memory.write m i v) = true := by
  induction m with
  | nil => exact within_put hi rfl
  | cons c rest ih =>
    obtain ⟨k, b⟩ := c
    have h' := h
    simp only [Memory.within, List.all_cons, Bool.and_eq_true, decide_eq_true_eq] at h
    simp only [Memory.write]
    split
    · simp only [Memory.within, List.all_cons, Bool.and_eq_true, decide_eq_true_eq]; exact ⟨h.1, ih h.2⟩
    · split
      · exact within_put hi h.2
      · exact within_put hi h'

/-! ### Little-endian reads and writes -/

theorem wf_writeLE {m : Memory} (h : m.wf = true) (i n : Nat) (v : Word) : (Memory.writeLE m i n v).wf = true := by
  induction n generalizing m i v with
  | zero => exact h
  | succ n ih => exact ih (wf_write h i _) (i + 1) _

theorem within_writeLE {size : Nat} {m : Memory} (h : Memory.within size m = true) (i n : Nat) (v : Word)
    (hi : i + n ≤ size) : Memory.within size (Memory.writeLE m i n v) = true := by
  induction n generalizing m i v with
  | zero => exact h
  | succ n ih => exact ih (within_write (by omega) h) (i + 1) _ (by omega)

/-- Byte `k` of a word shifted right by one byte. -/
theorem byteOfWord_shift (v : Word) (k : Nat) : byteOfWord (v >>> 8) k = byteOfWord v (k + 1) := by
  unfold byteOfWord
  ext i hi
  simp only [BitVec.getElem_extractLsb', BitVec.getLsbD_ushiftRight]
  congr 1; omega

theorem byteOfWord_zero (v : Word) : v.setWidth 8 = byteOfWord v 0 := by
  unfold byteOfWord
  ext i hi
  simp [BitVec.getElem_setWidth, BitVec.getElem_extractLsb']

/-- A read after a little-endian write: byte `j - i` of the value inside it, every other index as before. -/
theorem read_writeLE {m : Memory} (h : m.wf = true) (i n : Nat) (v : Word) (j : Nat) :
    Memory.read (Memory.writeLE m i n v) j
      = if i ≤ j ∧ j < i + n then byteOfWord v (j - i) else Memory.read m j := by
  induction n generalizing m i v with
  | zero => rw [if_neg (by omega)]; rfl
  | succ n ih =>
    show Memory.read (Memory.writeLE (Memory.write m i (v.setWidth 8)) (i + 1) n (v >>> 8)) j = _
    rw [ih (wf_write h i _), byteOfWord_shift, read_write h, byteOfWord_zero]
    by_cases h1 : i + 1 ≤ j ∧ j < i + 1 + n
    · rw [if_pos h1, if_pos (by omega), show j - (i + 1) + 1 = j - i by omega]
    · rw [if_neg h1]
      by_cases h2 : j = i
      · subst h2; rw [if_pos rfl, if_pos (by omega), Nat.sub_self]
      · rw [if_neg h2, if_neg (by omega)]

theorem readLE_congr {m m' : Memory} {i n : Nat} (h : ∀ j, i ≤ j → j < i + n → Memory.read m j = Memory.read m' j) :
    Memory.readLE m i n = Memory.readLE m' i n := by
  induction n generalizing i with
  | zero => rfl
  | succ n ih =>
    simp only [Memory.readLE]
    rw [h i le_rfl (by omega), ih (fun j h1 h2 => h j (by omega) (by omega))]

theorem getLsbD_readLE (m : Memory) (i n j : Nat) :
    (Memory.readLE m i n).getLsbD j
      = (decide (j < 32) && decide (j / 8 < n) && (Memory.read m (i + j / 8)).getLsbD (j % 8)) := by
  induction n generalizing i j with
  | zero => simp [Memory.readLE]
  | succ n ih =>
    simp only [Memory.readLE, BitVec.getLsbD_or, BitVec.getLsbD_setWidth, BitVec.getLsbD_shiftLeft, ih]
    by_cases h8 : j < 8
    · simp [h8, Nat.div_eq_of_lt h8, Nat.mod_eq_of_lt h8]
    · have e1 : (j - 8) / 8 = j / 8 - 1 := by omega
      have e2 : (j - 8) % 8 = j % 8 := by omega
      have e3 : i + 1 + (j / 8 - 1) = i + j / 8 := by omega
      have e4 : (Memory.read m i).getLsbD j = false := BitVec.getLsbD_of_ge _ _ (by omega)
      have e5 : decide (j / 8 - 1 < n) = decide (j / 8 < n + 1) := decide_eq_decide.2 (by omega)
      rw [e1, e2, e3, e4, e5]
      by_cases hj : j < 32
      · simp [h8, hj, show j - 8 < 32 by omega]
      · simp [hj]

/-- Byte `k` of a little-endian read is the byte at index `i + k`. -/
theorem byteOfWord_readLE (m : Memory) (i n k : Nat) (hk : k < n) (h4 : k < 4) :
    byteOfWord (Memory.readLE m i n) k = Memory.read m (i + k) := by
  unfold byteOfWord
  ext b hb
  rw [BitVec.getElem_extractLsb', getLsbD_readLE, show (8 * k + b) / 8 = k by omega, show (8 * k + b) % 8 = b by omega]
  simp [hk, show 8 * k + b < 32 by omega, BitVec.getLsbD_eq_getElem hb]

/-- What a little-endian write wrote, read back: the low `8n` bits (R44). -/
theorem readLE_writeLE {m : Memory} (h : m.wf = true) (i n : Nat) (v : Word) :
    Memory.readLE (Memory.writeLE m i n v) i n = v &&& BitVec.ofNat 32 (2 ^ (8 * n) - 1) := by
  apply BitVec.eq_of_getLsbD_eq
  intro j hj
  rw [getLsbD_readLE, read_writeLE h, BitVec.getLsbD_and, BitVec.getLsbD_ofNat, Nat.testBit_two_pow_sub_one]
  by_cases hb : j / 8 < n
  · rw [if_pos (by omega)]
    have : j < 8 * n := by omega
    simp only [hj, hb, this, decide_true, Bool.true_and, Bool.and_true, byteOfWord, BitVec.getLsbD_extractLsb',
      show i + j / 8 - i = j / 8 by omega, show 8 * (j / 8) + j % 8 = j by omega, show j % 8 < 8 by omega]
  · have : ¬ j < 8 * n := by omega
    simp [hb, this]

/-! ### Runs of bytes -/

theorem wf_writeBytes {m : Memory} (h : m.wf = true) (i : Nat) (bs : List Byte) : (Memory.writeBytes m i bs).wf = true := by
  induction bs generalizing m i with
  | nil => exact h
  | cons b bs ih => exact ih (wf_write h i b) (i + 1)

theorem within_writeBytes {size : Nat} {m : Memory} (h : Memory.within size m = true) (i : Nat) (bs : List Byte)
    (hi : i + bs.length ≤ size) : Memory.within size (Memory.writeBytes m i bs) = true := by
  induction bs generalizing m i with
  | nil => exact h
  | cons b bs ih =>
    simp only [List.length_cons] at hi
    exact ih (within_write (by omega) h) (i + 1) (by omega)

/-- A read after a run of bytes was written: the byte of the run inside it, every other index as before. -/
theorem read_writeBytes {m : Memory} (h : m.wf = true) (i : Nat) (bs : List Byte) (j : Nat) :
    Memory.read (Memory.writeBytes m i bs) j
      = if i ≤ j ∧ j < i + bs.length then bs.getD (j - i) unlistedByte else Memory.read m j := by
  induction bs generalizing m i with
  | nil => rw [if_neg (by simp only [List.length_nil]; omega)]; rfl
  | cons b bs ih =>
    show Memory.read (Memory.writeBytes (Memory.write m i b) (i + 1) bs) j = _
    rw [ih (wf_write h i b), read_write h, List.length_cons]
    by_cases h1 : i + 1 ≤ j ∧ j < i + 1 + bs.length
    · rw [if_pos h1, if_pos (by omega), show j - i = (j - (i + 1)) + 1 by omega, List.getD_cons_succ]
    · rw [if_neg h1]
      by_cases h2 : j = i
      · subst h2; rw [if_pos rfl, if_pos (by omega), Nat.sub_self, List.getD_cons_zero]
      · rw [if_neg h2, if_neg (by omega)]

end Sys2Proof.Machine.Memory
end

