-- ==== Sys2Proof/Laws/Driver.lean ====
section
/-! SUPPORT. The report field by field, the stack dump, and the run driver one step at a time (Machine/Driver.lean). -/

namespace Sys2Proof.Machine

@[simp] theorem report_pc (s : State) : (report s).pc = s.pc := rfl
@[simp] theorem report_regs (s : State) : (report s).regs = s.regs := rfl
@[simp] theorem report_word (s : State) : (report s).word = if inText s then fetchWord s else none := rfl
@[simp] theorem report_stack (s : State) : (report s).stack = stackDump s := rfl

@[simp] theorem inText_iff (s : State) : inText s = true ↔ translate s s.pc < textSize s.memSize := decide_eq_true_iff

theorem inStack_iff (memSize i : Nat) : inStack memSize i = true ↔ textSize memSize ≤ i ∧ i < memSize := by
  simp only [inStack, Bool.and_eq_true, decide_eq_true_eq]

/-- Reading memory cut down to some indices: as before at those, the unlisted byte elsewhere. -/
theorem Memory.read_filter (p : Nat → Bool) (m : Memory) (i : Nat) :
    Memory.read (m.filter (fun c => p c.1)) i = if p i then Memory.read m i else unlistedByte := by
  induction m with
  | nil => simp
  | cons c rest ih =>
    obtain ⟨k, b⟩ := c
    by_cases hk : k = i
    · subst hk
      cases hp : p k <;> simp [hp, Memory.read_cons, ih]
    · cases hp : p k <;> simp [hp, Memory.read_cons, ih, hk]

/-- Cutting memory down to some indices keeps the canonical form. -/
theorem Memory.wfFrom_filter (p : Nat → Bool) {lo : Option Nat} {m : Memory} (h : Memory.wfFrom lo m = true) :
    Memory.wfFrom lo (m.filter (fun c => p c.1)) = true := by
  induction m generalizing lo with
  | nil => simp
  | cons c rest ih =>
    obtain ⟨k, b⟩ := c
    rw [Memory.wfFrom_cons] at h
    cases hp : p k
    · simp only [List.filter_cons, hp]
      exact ih (Memory.wfFrom_weaken h.2.2 fun i hi l hl => (h.1 l hl).trans ((Memory.above_some k i).1 hi))
    · simp only [List.filter_cons, hp, if_true]
      exact (Memory.wfFrom_cons ..).2 ⟨h.1, h.2.1, ih h.2.2⟩

/-- The dump reads as memory does in the stack region, and lists nothing outside it. -/
theorem read_stackDump (s : State) (i : Nat) :
    Memory.read (stackDump s) i = if inStack s.memSize i then Memory.read s.mem i else unlistedByte :=
  Memory.read_filter (inStack s.memSize) s.mem i

theorem wf_stackDump {s : State} (h : s.mem.wf = true) : (stackDump s).wf = true :=
  Memory.wfFrom_filter (inStack s.memSize) h

/-! ### The driver, one step at a time -/

theorem drive_of_pc_zero {s : State} (h : s.pc = 0#32) (n : Nat) : drive n s = .halted s := by
  cases n <;> exact if_pos h

theorem drive_of_next {s t : State} (hp : s.pc ≠ 0#32) (h : step s = .next t) (n : Nat) : drive (n + 1) s = drive n t := by
  rw [drive, if_neg hp, h]

theorem drive_of_fault {s : State} {f : Fault} (hp : s.pc ≠ 0#32) (h : step s = .fault f) (n : Nat) :
    drive (n + 1) s = .faulted s f := by
  rw [drive, if_neg hp, h]

theorem driveReporting_of_pc_zero {s : State} (h : s.pc = 0#32) (n : Nat) : driveReporting n s = ([], .halted s) := by
  cases n
  · rw [driveReporting, if_pos h]
  · exact if_pos h

theorem driveReporting_of_next {s t : State} (hp : s.pc ≠ 0#32) (h : step s = .next t) (n : Nat) :
    driveReporting (n + 1) s = (report t :: (driveReporting n t).1, (driveReporting n t).2) := by
  rw [driveReporting, if_neg hp, h]

theorem driveReporting_of_fault {s : State} {f : Fault} (hp : s.pc ≠ 0#32) (h : step s = .fault f) (n : Nat) :
    driveReporting (n + 1) s = ([report s], .faulted s f) := by
  rw [driveReporting, if_neg hp, h]

end Sys2Proof.Machine
end

