-- ==== Sys2Proof/Laws/State.lean ====
section
/-! SUPPORT. One lemma for each field of the state under each update, true by unfolding the update once, so that no later
proof unfolds a record update. -/

namespace Sys2Proof.Machine

@[simp] theorem setPc_pc (x : Word) (s : State) : (setPc x s).pc = x := rfl
@[simp] theorem setPc_regs (x : Word) (s : State) : (setPc x s).regs = s.regs := rfl
@[simp] theorem setPc_mem (x : Word) (s : State) : (setPc x s).mem = s.mem := rfl
@[simp] theorem setPc_base (x : Word) (s : State) : (setPc x s).base = s.base := rfl
@[simp] theorem setPc_memSize (x : Word) (s : State) : (setPc x s).memSize = s.memSize := rfl

@[simp] theorem writeReg_pc (r : RegIdx) (v : Word) (s : State) : (writeReg r v s).pc = s.pc := by
  unfold writeReg; split <;> rfl
@[simp] theorem writeReg_mem (r : RegIdx) (v : Word) (s : State) : (writeReg r v s).mem = s.mem := by
  unfold writeReg; split <;> rfl
@[simp] theorem writeReg_base (r : RegIdx) (v : Word) (s : State) : (writeReg r v s).base = s.base := by
  unfold writeReg; split <;> rfl
@[simp] theorem writeReg_memSize (r : RegIdx) (v : Word) (s : State) : (writeReg r v s).memSize = s.memSize := by
  unfold writeReg; split <;> rfl

@[simp] theorem storeBytes_pc (a : Word) (n : Nat) (v : Word) (s : State) : (storeBytes a n v s).pc = s.pc := rfl
@[simp] theorem storeBytes_regs (a : Word) (n : Nat) (v : Word) (s : State) : (storeBytes a n v s).regs = s.regs := rfl
@[simp] theorem storeBytes_mem (a : Word) (n : Nat) (v : Word) (s : State) :
    (storeBytes a n v s).mem = Memory.writeLE s.mem (translate s a) n v := rfl
@[simp] theorem storeBytes_base (a : Word) (n : Nat) (v : Word) (s : State) : (storeBytes a n v s).base = s.base := rfl
@[simp] theorem storeBytes_memSize (a : Word) (n : Nat) (v : Word) (s : State) :
    (storeBytes a n v s).memSize = s.memSize := rfl

@[simp] theorem commit_pc (rd : RegIdx) (v x : Word) (s : State) : (commit rd v x s).pc = x := rfl
@[simp] theorem commit_mem (rd : RegIdx) (v x : Word) (s : State) : (commit rd v x s).mem = s.mem := by simp [commit]
@[simp] theorem commit_base (rd : RegIdx) (v x : Word) (s : State) : (commit rd v x s).base = s.base := by simp [commit]
@[simp] theorem commit_memSize (rd : RegIdx) (v x : Word) (s : State) : (commit rd v x s).memSize = s.memSize := by
  simp [commit]

@[simp] theorem rst_regs (s : State) : s.rst.regs = Vector.replicate 32 0#32 := rfl
@[simp] theorem rst_pc (s : State) : s.rst.pc = s.base := rfl
@[simp] theorem rst_mem (s : State) : s.rst.mem = s.mem := rfl
@[simp] theorem rst_base (s : State) : s.rst.base = s.base := rfl
@[simp] theorem rst_memSize (s : State) : s.rst.memSize = s.memSize := rfl

@[simp] theorem loadImage_regs (bs : List Byte) (s : State) : (loadImage bs s).regs = s.regs := rfl
@[simp] theorem loadImage_pc (bs : List Byte) (s : State) : (loadImage bs s).pc = s.pc := rfl
@[simp] theorem loadImage_mem (bs : List Byte) (s : State) :
    (loadImage bs s).mem = Memory.writeBytes s.mem 0 bs := rfl
@[simp] theorem loadImage_base (bs : List Byte) (s : State) : (loadImage bs s).base = s.base := rfl
@[simp] theorem loadImage_memSize (bs : List Byte) (s : State) : (loadImage bs s).memSize = s.memSize := rfl

end Sys2Proof.Machine
end

