-- ==== Sys2Proof/Laws/Ops.lean ====
section
/-! SUPPORT. For each shared operation, what it does, said once: registers, translation and bounds, bytes, the commit of a
step, loads and stores, and that each keeps the invariant. Later proofs cite these. -/

namespace Sys2Proof.Machine

/-! ### Registers -/

@[simp] theorem readReg_zero (s : State) : readReg 0#5 s = 0#32 := rfl

theorem readReg_of_ne {r : RegIdx} (h : r ≠ 0#5) (s : State) : readReg r s = regCell r s := if_neg h

@[simp] theorem writeReg_zero (v : Word) (s : State) : writeReg 0#5 v s = s := rfl

theorem regCell_writeReg (r rd : RegIdx) (v : Word) (s : State) :
    regCell r (writeReg rd v s) = if rd ≠ 0#5 ∧ r = rd then v else regCell r s := by
  unfold writeReg
  by_cases h0 : rd = 0#5
  · simp [h0]
  · simp only [h0, if_false, regCell, Vector.getElem_set, ne_eq, not_false_eq_true, true_and, BitVec.toNat_inj,
      eq_comm (a := rd)]

/-- A read after a write: x0 reads 0, the register written reads the value, every other register as before (R21, R23). -/
theorem readReg_writeReg (r rd : RegIdx) (v : Word) (s : State) :
    readReg r (writeReg rd v s) = if r = 0#5 then 0#32 else if r = rd then v else readReg r s := by
  by_cases h0 : r = 0#5
  · simp [h0]
  · rw [readReg_of_ne h0, regCell_writeReg, if_neg h0]
    by_cases h : r = rd
    · subst h; rw [if_pos ⟨h0, rfl⟩, if_pos rfl]
    · rw [if_neg (fun c => h c.2), if_neg h, readReg_of_ne h0]

@[simp] theorem regCell_zero_writeReg (rd : RegIdx) (v : Word) (s : State) :
    regCell 0#5 (writeReg rd v s) = regCell 0#5 s := by
  rw [regCell_writeReg, if_neg (fun c => c.1 c.2.symm)]

@[simp] theorem readReg_setPc (r : RegIdx) (x : Word) (s : State) : readReg r (setPc x s) = readReg r s := rfl
@[simp] theorem regCell_setPc (r : RegIdx) (x : Word) (s : State) : regCell r (setPc x s) = regCell r s := rfl
@[simp] theorem readReg_storeBytes (r : RegIdx) (a : Word) (n : Nat) (v : Word) (s : State) :
    readReg r (storeBytes a n v s) = readReg r s := rfl
@[simp] theorem regCell_storeBytes (r : RegIdx) (a : Word) (n : Nat) (v : Word) (s : State) :
    regCell r (storeBytes a n v s) = regCell r s := rfl

theorem readReg_commit (r rd : RegIdx) (v x : Word) (s : State) :
    readReg r (commit rd v x s) = if r = 0#5 then 0#32 else if r = rd then v else readReg r s :=
  readReg_writeReg r rd v s

@[simp] theorem regCell_zero_commit (rd : RegIdx) (v x : Word) (s : State) :
    regCell 0#5 (commit rd v x s) = regCell 0#5 s := regCell_zero_writeReg rd v s

theorem commit_zero (v x : Word) (s : State) : commit 0#5 v x s = setPc x s := rfl

/-! ### Translation, bounds, bytes -/

theorem translate_lt (s : State) (a : Word) : translate s a < 4294967296 := (a - s.base).isLt

theorem translate_congr {s t : State} (h : t.base = s.base) (a : Word) : translate t a = translate s a := by
  simp [translate, h]

@[simp] theorem translate_setPc (x : Word) (s : State) (a : Word) : translate (setPc x s) a = translate s a := rfl
@[simp] theorem translate_storeBytes (x : Word) (n : Nat) (v : Word) (s : State) (a : Word) :
    translate (storeBytes x n v s) a = translate s a := rfl

theorem inBounds_iff (s : State) (a : Word) (n : Nat) : inBounds s a n = true ↔ translate s a + n ≤ s.memSize := by
  simp [inBounds]

theorem inBounds_congr {s t : State} (hb : t.base = s.base) (hm : t.memSize = s.memSize) (a : Word) (n : Nat) :
    inBounds t a n = inBounds s a n := by
  simp [inBounds, translate_congr hb, hm]

theorem byteAt_congr {s t : State} (hb : t.base = s.base) (hm : t.memSize = s.memSize) (hmem : t.mem = s.mem) (a : Word) :
    byteAt t a = byteAt s a := by
  simp [byteAt, inBounds_congr hb hm, translate_congr hb, hmem]

theorem memValue_congr {s t : State} (hb : t.base = s.base) (hmem : t.mem = s.mem) (a : Word) (n : Nat) :
    memValue t a n = memValue s a n := by
  simp [memValue, translate_congr hb, hmem]

/-- Stepping `k` bytes inside an in-bounds access steps `k` buffer indices. -/
theorem translate_add {s : State} (hs : s.memSize ≤ 4294967296) {a : Word} {n k : Nat} (hb : inBounds s a n = true)
    (hk : k < n) : translate s (a + BitVec.ofNat 32 k) = translate s a + k := by
  rw [inBounds_iff] at hb
  have e : a + BitVec.ofNat 32 k - s.base = (a - s.base) + BitVec.ofNat 32 k := by
    rw [BitVec.sub_eq_add_neg, BitVec.sub_eq_add_neg, BitVec.add_assoc, BitVec.add_comm (BitVec.ofNat 32 k),
      ← BitVec.add_assoc]
  unfold translate at hb ⊢
  rw [e, BitVec.toNat_add, BitVec.toNat_ofNat]
  omega

/-- Two addresses with the same buffer index are the same address. -/
theorem translate_inj {s : State} {a b : Word} (h : translate s a = translate s b) : a = b := by
  have h' := BitVec.eq_of_toNat_eq h
  have := congrArg (· + s.base) h'
  simpa using this

/-- The byte `k` of an in-bounds access is backed, and is byte `k` of its value (R43). -/
theorem byteAt_memValue {s : State} (hs : s.memSize ≤ 4294967296) {a : Word} {n k : Nat} (hb : inBounds s a n = true)
    (hk : k < n) (h4 : k < 4) :
    byteAt s (a + BitVec.ofNat 32 k) = some (byteOfWord (memValue s a n) k) := by
  have ht := translate_add hs hb hk
  rw [inBounds_iff] at hb
  rw [byteAt, if_pos ((inBounds_iff ..).2 (by omega)), ht, memValue, Memory.byteOfWord_readLE _ _ _ _ hk h4]

/-! ### The commit of a step -/

theorem commit_retires (rd : RegIdx) (v x : Word) (s : State) : Retires s (commit rd v x s) rd v x :=
  ⟨rfl, fun r => readReg_commit r rd v x s, regCell_zero_commit rd v x s,
    fun a => byteAt_congr (commit_base ..) (commit_memSize ..) (commit_mem ..) a, commit_base .., commit_memSize ..⟩

theorem setPc_onlyPc (x : Word) (s : State) : OnlyPc s (setPc x s) x :=
  ⟨rfl, ⟨fun _ => rfl, rfl⟩, fun _ => rfl, rfl, rfl⟩

/-- An in-bounds store puts the value's bytes at its addresses and changes no other byte (R44). -/
theorem storeBytes_stores {s : State} (hw : s.mem.wf = true) (hs : s.memSize ≤ 4294967296) {a : Word} {n : Nat}
    (hb : inBounds s a n = true) (v x : Word) : Stores s (setPc x (storeBytes a n v s)) a n v x := by
  refine ⟨rfl, ⟨fun _ => rfl, rfl⟩, ⟨rfl, rfl⟩, ?_, ?_⟩
  · intro k hk
    have ht := translate_add hs hb hk
    rw [inBounds_iff] at hb
    have hi : inBounds (setPc x (storeBytes a n v s)) (a + BitVec.ofNat 32 k) 1 = true :=
      (inBounds_iff ..).2 (by simp only [translate_setPc, translate_storeBytes, setPc_memSize, storeBytes_memSize]; omega)
    rw [byteAt, if_pos hi, translate_setPc, translate_storeBytes, setPc_mem, storeBytes_mem, Memory.read_writeLE hw, ht,
      if_pos (by omega), Nat.add_sub_cancel_left]
  · intro b hne
    have hout : ¬ (translate s a ≤ translate s b ∧ translate s b < translate s a + n) := by
      rintro ⟨h1, h2⟩
      refine hne (translate s b - translate s a) (by omega) (translate_inj (s := s) ?_)
      rw [translate_add hs hb (by omega)]; omega
    rw [byteAt, byteAt, translate_setPc, translate_storeBytes, setPc_mem, storeBytes_mem, Memory.read_writeLE hw,
      if_neg hout]
    rfl

/-! ### The outcomes of the shared shapes -/

/-- A load in bounds completes with the extended value (R140). -/
theorem loadTo_next {size : AccessSize} {a : Word} {s : State} (hb : inBounds s a size.bytes = true) (ext : Word → Word)
    (rd : RegIdx) :
    loadTo size ext rd a s = .next (commit rd (ext (memValue s a size.bytes)) (pcPlus4 s) s) := if_pos hb

/-- A load out of bounds faults (R211). -/
theorem loadTo_fault {size : AccessSize} {a : Word} {s : State} (hb : inBounds s a size.bytes = false) (ext : Word → Word)
    (rd : RegIdx) : loadTo size ext rd a s = .fault (.outOfBounds .load a) := by
  rw [loadTo, hb]; rfl

theorem storeFrom_next {size : AccessSize} {a : Word} {s : State} (hb : inBounds s a size.bytes = true) (v : Word) :
    storeFrom size a v s = .next (setPc (pcPlus4 s) (storeBytes a size.bytes v s)) := if_pos hb

theorem storeFrom_fault {size : AccessSize} {a : Word} {s : State} (hb : inBounds s a size.bytes = false) (v : Word) :
    storeFrom size a v s = .fault (.outOfBounds .store a) := by
  rw [storeFrom, hb]; rfl

/-- Everything a load can do. -/
theorem loadTo_cases (size : AccessSize) (ext : Word → Word) (rd : RegIdx) (a : Word) (s : State) :
    (inBounds s a size.bytes = true
      ∧ loadTo size ext rd a s = .next (commit rd (ext (memValue s a size.bytes)) (pcPlus4 s) s))
    ∨ (inBounds s a size.bytes = false ∧ loadTo size ext rd a s = .fault (.outOfBounds .load a)) := by
  cases hb : inBounds s a size.bytes
  · exact .inr ⟨rfl, loadTo_fault hb ext rd⟩
  · exact .inl ⟨rfl, loadTo_next hb ext rd⟩

/-- Everything a store can do. -/
theorem storeFrom_cases (size : AccessSize) (a v : Word) (s : State) :
    (inBounds s a size.bytes = true
      ∧ storeFrom size a v s = .next (setPc (pcPlus4 s) (storeBytes a size.bytes v s)))
    ∨ (inBounds s a size.bytes = false ∧ storeFrom size a v s = .fault (.outOfBounds .store a)) := by
  cases hb : inBounds s a size.bytes
  · exact .inr ⟨rfl, storeFrom_fault hb v⟩
  · exact .inl ⟨rfl, storeFrom_next hb v⟩

theorem AccessSize.bytes_pos (size : AccessSize) : 0 < size.bytes := by cases size <;> decide
theorem AccessSize.bytes_le (size : AccessSize) : size.bytes ≤ 4 := by cases size <;> decide

/-- Everything a step can do. -/
theorem step_cases (s : State) :
    (inBounds s s.pc 4 = false ∧ step s = .fault (.outOfBounds .fetch s.pc))
    ∨ (inBounds s s.pc 4 = true ∧ fetchWord s = some (memValue s s.pc 4)
      ∧ step s = execDecoded (decode (memValue s s.pc 4)) s) := by
  cases hb : inBounds s s.pc 4
  · left; refine ⟨rfl, ?_⟩
    have : fetchWord s = none := by simp [fetchWord, hb]
    rw [step, this]; rfl
  · right
    have : fetchWord s = some (memValue s s.pc 4) := by simp [fetchWord, hb]
    refine ⟨rfl, this, ?_⟩
    rw [step, this]

theorem step_of_fetchWord {s : State} {w : Word} (h : fetchWord s = some w) : step s = execDecoded (decode w) s := by
  rw [step, h]

theorem fetchWord_some {s : State} {w : Word} (h : fetchWord s = some w) :
    inBounds s s.pc 4 = true ∧ w = memValue s s.pc 4 := by
  unfold fetchWord at h
  split at h
  · exact ⟨‹_›, (Option.some.inj h).symm⟩
  · cases h

/-! ### The invariant -/

theorem Inv.memSize_le {s : State} (h : Inv s) : s.memSize ≤ 4294967296 := by
  have := h.legal
  simp only [Config.legal, Bool.and_eq_true, decide_eq_true_eq] at this
  exact this.2

theorem Inv.four_le_memSize {s : State} (h : Inv s) : 4 ≤ s.memSize := by
  have := h.legal
  simp only [Config.legal, Bool.and_eq_true, decide_eq_true_eq] at this
  exact this.1.2

/-- A commit keeps the invariant when the next pc is even. -/
theorem Inv.commit {s : State} (h : Inv s) (rd : RegIdx) (v : Word) {x : Word} (hx : x.getLsbD 0 = false) :
    Inv (commit rd v x s) where
  legal := by simpa using h.legal
  memWf := by simpa using h.memWf
  memWithin := by simpa using h.memWithin
  zeroCell := by simpa using h.zeroCell
  pcEven := by show (!x.getLsbD 0) = true; rw [hx]; rfl

theorem Inv.setPc {s : State} (h : Inv s) {x : Word} (hx : x.getLsbD 0 = false) : Inv (setPc x s) :=
  h.commit 0#5 0#32 hx

theorem Inv.storeBytes {s : State} (h : Inv s) {a : Word} {n : Nat} (hb : inBounds s a n = true) (v : Word) :
    Inv (storeBytes a n v s) where
  legal := h.legal
  memWf := Memory.wf_writeLE h.memWf _ _ _
  memWithin := Memory.within_writeLE h.memWithin _ _ _ ((inBounds_iff ..).1 hb)
  zeroCell := h.zeroCell
  pcEven := h.pcEven

/-- The parity of a sum. -/
theorem getLsbD_zero_add (a b : Word) : (a + b).getLsbD 0 = (a.getLsbD 0 ^^ b.getLsbD 0) := by
  rw [BitVec.getLsbD_add (by omega)]; simp [BitVec.carry, Nat.mod_one]

theorem Inv.pcPlus4_even {s : State} (h : Inv s) : (pcPlus4 s).getLsbD 0 = false := by
  have := h.pcEven
  simp only [Machine.pcEven, Bool.not_eq_true'] at this
  rw [pcPlus4, getLsbD_zero_add, this]; rfl

end Sys2Proof.Machine
end

