-- ==== Sys2Proof/Laws/PerInstr.lean ====
section
/-! SUPPORT. The family EncodesToStandardRow: the encoder gives every instruction a word that matches the standard encoding
of its own row of the opcode table. -/

set_option Elab.async false

namespace Sys2Proof.Laws.EncodesToStandardRow

/-- The encoded word matches `std_mask` and `std_match` of the row with the instruction's mnemonic. -/
def Statement (i : Instr) : Prop := ∃ r ∈ opRows, r.mnemonic = i.mnemonic ∧ r.matchesStd (encode i) = true

theorem lui (rd : RegIdx) (imm : BitVec 20) : Statement (.lui rd imm) := by
  refine ⟨⟨"LUI", 0x00000037#32, 0x0000007F#32, 0x00000037#32, 0x0000007F#32⟩, ?_, rfl, ?_⟩
  · decide
  · exact beq_iff_eq.2 ((mask7F_iff _ _ rfl).2 (by simp [encode]; decide))

theorem auipc (rd : RegIdx) (imm : BitVec 20) : Statement (.auipc rd imm) := by
  refine ⟨⟨"AUIPC", 0x00000017#32, 0x0000007F#32, 0x00000017#32, 0x0000007F#32⟩, ?_, rfl, ?_⟩
  · decide
  · exact beq_iff_eq.2 ((mask7F_iff _ _ rfl).2 (by simp [encode]; decide))

theorem jal (rd : RegIdx) (off : BitVec 21) : Statement (.jal rd off) := by
  refine ⟨⟨"JAL", 0x0000006F#32, 0x0000007F#32, 0x0000006F#32, 0x0000007F#32⟩, ?_, rfl, ?_⟩
  · decide
  · exact beq_iff_eq.2 ((mask7F_iff _ _ rfl).2 (by simp [encode]; decide))

theorem jalr (rd rs1 : RegIdx) (imm : BitVec 12) : Statement (.jalr rd rs1 imm) := by
  refine ⟨⟨"JALR", 0x00000067#32, 0x0000007F#32, 0x00000067#32, 0x0000707F#32⟩, ?_, rfl, ?_⟩
  · decide
  · exact beq_iff_eq.2 ((mask707F_iff _ _ rfl).2 (by simp [encode]; decide))

theorem beq (rs1 rs2 : RegIdx) (off : BitVec 13) : Statement (.beq rs1 rs2 off) := by
  refine ⟨⟨"BEQ", 0x00000063#32, 0x0000707F#32, 0x00000063#32, 0x0000707F#32⟩, ?_, rfl, ?_⟩
  · decide
  · exact beq_iff_eq.2 ((mask707F_iff _ _ rfl).2 (by simp [encode]; decide))

theorem bne (rs1 rs2 : RegIdx) (off : BitVec 13) : Statement (.bne rs1 rs2 off) := by
  refine ⟨⟨"BNE", 0x00001063#32, 0x0000707F#32, 0x00001063#32, 0x0000707F#32⟩, ?_, rfl, ?_⟩
  · decide
  · exact beq_iff_eq.2 ((mask707F_iff _ _ rfl).2 (by simp [encode]; decide))

theorem blt (rs1 rs2 : RegIdx) (off : BitVec 13) : Statement (.blt rs1 rs2 off) := by
  refine ⟨⟨"BLT", 0x00004063#32, 0x0000707F#32, 0x00004063#32, 0x0000707F#32⟩, ?_, rfl, ?_⟩
  · decide
  · exact beq_iff_eq.2 ((mask707F_iff _ _ rfl).2 (by simp [encode]; decide))

theorem bge (rs1 rs2 : RegIdx) (off : BitVec 13) : Statement (.bge rs1 rs2 off) := by
  refine ⟨⟨"BGE", 0x00005063#32, 0x0000707F#32, 0x00005063#32, 0x0000707F#32⟩, ?_, rfl, ?_⟩
  · decide
  · exact beq_iff_eq.2 ((mask707F_iff _ _ rfl).2 (by simp [encode]; decide))

theorem bltu (rs1 rs2 : RegIdx) (off : BitVec 13) : Statement (.bltu rs1 rs2 off) := by
  refine ⟨⟨"BLTU", 0x00006063#32, 0x0000707F#32, 0x00006063#32, 0x0000707F#32⟩, ?_, rfl, ?_⟩
  · decide
  · exact beq_iff_eq.2 ((mask707F_iff _ _ rfl).2 (by simp [encode]; decide))

theorem bgeu (rs1 rs2 : RegIdx) (off : BitVec 13) : Statement (.bgeu rs1 rs2 off) := by
  refine ⟨⟨"BGEU", 0x00007063#32, 0x0000707F#32, 0x00007063#32, 0x0000707F#32⟩, ?_, rfl, ?_⟩
  · decide
  · exact beq_iff_eq.2 ((mask707F_iff _ _ rfl).2 (by simp [encode]; decide))

theorem lb (rd rs1 : RegIdx) (imm : BitVec 12) : Statement (.lb rd rs1 imm) := by
  refine ⟨⟨"LB", 0x00000003#32, 0x0000707F#32, 0x00000003#32, 0x0000707F#32⟩, ?_, rfl, ?_⟩
  · decide
  · exact beq_iff_eq.2 ((mask707F_iff _ _ rfl).2 (by simp [encode]; decide))

theorem lh (rd rs1 : RegIdx) (imm : BitVec 12) : Statement (.lh rd rs1 imm) := by
  refine ⟨⟨"LH", 0x00001003#32, 0x0000707F#32, 0x00001003#32, 0x0000707F#32⟩, ?_, rfl, ?_⟩
  · decide
  · exact beq_iff_eq.2 ((mask707F_iff _ _ rfl).2 (by simp [encode]; decide))

theorem lw (rd rs1 : RegIdx) (imm : BitVec 12) : Statement (.lw rd rs1 imm) := by
  refine ⟨⟨"LW", 0x00002003#32, 0x0000707F#32, 0x00002003#32, 0x0000707F#32⟩, ?_, rfl, ?_⟩
  · decide
  · exact beq_iff_eq.2 ((mask707F_iff _ _ rfl).2 (by simp [encode]; decide))

theorem lbu (rd rs1 : RegIdx) (imm : BitVec 12) : Statement (.lbu rd rs1 imm) := by
  refine ⟨⟨"LBU", 0x00004003#32, 0x0000707F#32, 0x00004003#32, 0x0000707F#32⟩, ?_, rfl, ?_⟩
  · decide
  · exact beq_iff_eq.2 ((mask707F_iff _ _ rfl).2 (by simp [encode]; decide))

theorem lhu (rd rs1 : RegIdx) (imm : BitVec 12) : Statement (.lhu rd rs1 imm) := by
  refine ⟨⟨"LHU", 0x00005003#32, 0x0000707F#32, 0x00005003#32, 0x0000707F#32⟩, ?_, rfl, ?_⟩
  · decide
  · exact beq_iff_eq.2 ((mask707F_iff _ _ rfl).2 (by simp [encode]; decide))

theorem sb (rs2 rs1 : RegIdx) (imm : BitVec 12) : Statement (.sb rs2 rs1 imm) := by
  refine ⟨⟨"SB", 0x00000023#32, 0x0000707F#32, 0x00000023#32, 0x0000707F#32⟩, ?_, rfl, ?_⟩
  · decide
  · exact beq_iff_eq.2 ((mask707F_iff _ _ rfl).2 (by simp [encode]; decide))

theorem sh (rs2 rs1 : RegIdx) (imm : BitVec 12) : Statement (.sh rs2 rs1 imm) := by
  refine ⟨⟨"SH", 0x00001023#32, 0x0000707F#32, 0x00001023#32, 0x0000707F#32⟩, ?_, rfl, ?_⟩
  · decide
  · exact beq_iff_eq.2 ((mask707F_iff _ _ rfl).2 (by simp [encode]; decide))

theorem sw (rs2 rs1 : RegIdx) (imm : BitVec 12) : Statement (.sw rs2 rs1 imm) := by
  refine ⟨⟨"SW", 0x00002023#32, 0x0000707F#32, 0x00002023#32, 0x0000707F#32⟩, ?_, rfl, ?_⟩
  · decide
  · exact beq_iff_eq.2 ((mask707F_iff _ _ rfl).2 (by simp [encode]; decide))

theorem addi (rd rs1 : RegIdx) (imm : BitVec 12) : Statement (.addi rd rs1 imm) := by
  refine ⟨⟨"ADDI", 0x00000013#32, 0x0000707F#32, 0x00000013#32, 0x0000707F#32⟩, ?_, rfl, ?_⟩
  · decide
  · exact beq_iff_eq.2 ((mask707F_iff _ _ rfl).2 (by simp [encode]; decide))

theorem slti (rd rs1 : RegIdx) (imm : BitVec 12) : Statement (.slti rd rs1 imm) := by
  refine ⟨⟨"SLTI", 0x00002013#32, 0x0000707F#32, 0x00002013#32, 0x0000707F#32⟩, ?_, rfl, ?_⟩
  · decide
  · exact beq_iff_eq.2 ((mask707F_iff _ _ rfl).2 (by simp [encode]; decide))

theorem sltiu (rd rs1 : RegIdx) (imm : BitVec 12) : Statement (.sltiu rd rs1 imm) := by
  refine ⟨⟨"SLTIU", 0x00003013#32, 0x0000707F#32, 0x00003013#32, 0x0000707F#32⟩, ?_, rfl, ?_⟩
  · decide
  · exact beq_iff_eq.2 ((mask707F_iff _ _ rfl).2 (by simp [encode]; decide))

theorem xori (rd rs1 : RegIdx) (imm : BitVec 12) : Statement (.xori rd rs1 imm) := by
  refine ⟨⟨"XORI", 0x00004013#32, 0x0000707F#32, 0x00004013#32, 0x0000707F#32⟩, ?_, rfl, ?_⟩
  · decide
  · exact beq_iff_eq.2 ((mask707F_iff _ _ rfl).2 (by simp [encode]; decide))

theorem ori (rd rs1 : RegIdx) (imm : BitVec 12) : Statement (.ori rd rs1 imm) := by
  refine ⟨⟨"ORI", 0x00006013#32, 0x0000707F#32, 0x00006013#32, 0x0000707F#32⟩, ?_, rfl, ?_⟩
  · decide
  · exact beq_iff_eq.2 ((mask707F_iff _ _ rfl).2 (by simp [encode]; decide))

theorem andi (rd rs1 : RegIdx) (imm : BitVec 12) : Statement (.andi rd rs1 imm) := by
  refine ⟨⟨"ANDI", 0x00007013#32, 0x0000707F#32, 0x00007013#32, 0x0000707F#32⟩, ?_, rfl, ?_⟩
  · decide
  · exact beq_iff_eq.2 ((mask707F_iff _ _ rfl).2 (by simp [encode]; decide))

theorem slli (rd rs1 : RegIdx) (shamt : BitVec 5) : Statement (.slli rd rs1 shamt) := by
  refine ⟨⟨"SLLI", 0x00001013#32, 0x0000707F#32, 0x00001013#32, 0xFE00707F#32⟩, ?_, rfl, ?_⟩
  · decide
  · exact beq_iff_eq.2 ((maskFE00707F_iff _ _ rfl).2 (by simp [encode]; decide))

theorem srli (rd rs1 : RegIdx) (shamt : BitVec 5) : Statement (.srli rd rs1 shamt) := by
  refine ⟨⟨"SRLI", 0x00005013#32, 0x4000707F#32, 0x00005013#32, 0xFE00707F#32⟩, ?_, rfl, ?_⟩
  · decide
  · exact beq_iff_eq.2 ((maskFE00707F_iff _ _ rfl).2 (by simp [encode]; decide))

theorem srai (rd rs1 : RegIdx) (shamt : BitVec 5) : Statement (.srai rd rs1 shamt) := by
  refine ⟨⟨"SRAI", 0x40005013#32, 0x4000707F#32, 0x40005013#32, 0xFE00707F#32⟩, ?_, rfl, ?_⟩
  · decide
  · exact beq_iff_eq.2 ((maskFE00707F_iff _ _ rfl).2 (by simp [encode]; decide))

theorem add (rd rs1 rs2 : RegIdx) : Statement (.add rd rs1 rs2) := by
  refine ⟨⟨"ADD", 0x00000033#32, 0x4000707F#32, 0x00000033#32, 0xFE00707F#32⟩, ?_, rfl, ?_⟩
  · decide
  · exact beq_iff_eq.2 ((maskFE00707F_iff _ _ rfl).2 (by simp [encode]; decide))

theorem sub (rd rs1 rs2 : RegIdx) : Statement (.sub rd rs1 rs2) := by
  refine ⟨⟨"SUB", 0x40000033#32, 0x4000707F#32, 0x40000033#32, 0xFE00707F#32⟩, ?_, rfl, ?_⟩
  · decide
  · exact beq_iff_eq.2 ((maskFE00707F_iff _ _ rfl).2 (by simp [encode]; decide))

theorem sll (rd rs1 rs2 : RegIdx) : Statement (.sll rd rs1 rs2) := by
  refine ⟨⟨"SLL", 0x00001033#32, 0x0000707F#32, 0x00001033#32, 0xFE00707F#32⟩, ?_, rfl, ?_⟩
  · decide
  · exact beq_iff_eq.2 ((maskFE00707F_iff _ _ rfl).2 (by simp [encode]; decide))

theorem slt (rd rs1 rs2 : RegIdx) : Statement (.slt rd rs1 rs2) := by
  refine ⟨⟨"SLT", 0x00002033#32, 0x0000707F#32, 0x00002033#32, 0xFE00707F#32⟩, ?_, rfl, ?_⟩
  · decide
  · exact beq_iff_eq.2 ((maskFE00707F_iff _ _ rfl).2 (by simp [encode]; decide))

theorem sltu (rd rs1 rs2 : RegIdx) : Statement (.sltu rd rs1 rs2) := by
  refine ⟨⟨"SLTU", 0x00003033#32, 0x0000707F#32, 0x00003033#32, 0xFE00707F#32⟩, ?_, rfl, ?_⟩
  · decide
  · exact beq_iff_eq.2 ((maskFE00707F_iff _ _ rfl).2 (by simp [encode]; decide))

theorem xor (rd rs1 rs2 : RegIdx) : Statement (.xor rd rs1 rs2) := by
  refine ⟨⟨"XOR", 0x00004033#32, 0x0000707F#32, 0x00004033#32, 0xFE00707F#32⟩, ?_, rfl, ?_⟩
  · decide
  · exact beq_iff_eq.2 ((maskFE00707F_iff _ _ rfl).2 (by simp [encode]; decide))

theorem srl (rd rs1 rs2 : RegIdx) : Statement (.srl rd rs1 rs2) := by
  refine ⟨⟨"SRL", 0x00005033#32, 0x4000707F#32, 0x00005033#32, 0xFE00707F#32⟩, ?_, rfl, ?_⟩
  · decide
  · exact beq_iff_eq.2 ((maskFE00707F_iff _ _ rfl).2 (by simp [encode]; decide))

theorem sra (rd rs1 rs2 : RegIdx) : Statement (.sra rd rs1 rs2) := by
  refine ⟨⟨"SRA", 0x40005033#32, 0x4000707F#32, 0x40005033#32, 0xFE00707F#32⟩, ?_, rfl, ?_⟩
  · decide
  · exact beq_iff_eq.2 ((maskFE00707F_iff _ _ rfl).2 (by simp [encode]; decide))

theorem or (rd rs1 rs2 : RegIdx) : Statement (.or rd rs1 rs2) := by
  refine ⟨⟨"OR", 0x00006033#32, 0x0000707F#32, 0x00006033#32, 0xFE00707F#32⟩, ?_, rfl, ?_⟩
  · decide
  · exact beq_iff_eq.2 ((maskFE00707F_iff _ _ rfl).2 (by simp [encode]; decide))

theorem and (rd rs1 rs2 : RegIdx) : Statement (.and rd rs1 rs2) := by
  refine ⟨⟨"AND", 0x00007033#32, 0x0000707F#32, 0x00007033#32, 0xFE00707F#32⟩, ?_, rfl, ?_⟩
  · decide
  · exact beq_iff_eq.2 ((maskFE00707F_iff _ _ rfl).2 (by simp [encode]; decide))

theorem fence (rd rs1 : RegIdx) (fm pred succ : BitVec 4) : Statement (.fence rd rs1 fm pred succ) := by
  refine ⟨⟨"FENCE", 0x0000000F#32, 0x0000707F#32, 0x0000000F#32, 0x0000707F#32⟩, ?_, rfl, ?_⟩
  · decide
  · exact beq_iff_eq.2 ((mask707F_iff _ _ rfl).2 (by simp [encode]; decide))

theorem ecall : Statement (.ecall) := by
  refine ⟨⟨"ECALL", 0x00000073#32, 0xFFFFFFFF#32, 0x00000073#32, 0xFFFFFFFF#32⟩, ?_, rfl, ?_⟩ <;> decide

theorem ebreak : Statement (.ebreak) := by
  refine ⟨⟨"EBREAK", 0x00100073#32, 0xFFFFFFFF#32, 0x00100073#32, 0xFFFFFFFF#32⟩, ?_, rfl, ?_⟩ <;> decide

end Sys2Proof.Laws.EncodesToStandardRow
end

