-- ==== Sys2Proof/Laws/Rows.lean ====
section
/-! SUPPORT. What it means for a word to match a row of the opcode table: the row's mask and value as the decoder's fields. -/

namespace Sys2Proof

theorem row_lui (w : Word) :
    w &&& 0x0000007F#32 = 0x00000037#32 ↔ fieldOpcode w = opLui :=
  mask7F_iff w _ rfl

theorem row_auipc (w : Word) :
    w &&& 0x0000007F#32 = 0x00000017#32 ↔ fieldOpcode w = opAuipc :=
  mask7F_iff w _ rfl

theorem row_jal (w : Word) :
    w &&& 0x0000007F#32 = 0x0000006F#32 ↔ fieldOpcode w = opJal :=
  mask7F_iff w _ rfl

theorem row_jalr (w : Word) :
    w &&& 0x0000007F#32 = 0x00000067#32 ↔ fieldOpcode w = opJalr :=
  mask7F_iff w _ rfl

theorem row_beq (w : Word) :
    w &&& 0x0000707F#32 = 0x00000063#32 ↔ fieldOpcode w = opBranch ∧ fieldFunct3 w = 0#3 :=
  mask707F_iff w _ rfl

theorem row_bne (w : Word) :
    w &&& 0x0000707F#32 = 0x00001063#32 ↔ fieldOpcode w = opBranch ∧ fieldFunct3 w = 1#3 :=
  mask707F_iff w _ rfl

theorem row_blt (w : Word) :
    w &&& 0x0000707F#32 = 0x00004063#32 ↔ fieldOpcode w = opBranch ∧ fieldFunct3 w = 4#3 :=
  mask707F_iff w _ rfl

theorem row_bge (w : Word) :
    w &&& 0x0000707F#32 = 0x00005063#32 ↔ fieldOpcode w = opBranch ∧ fieldFunct3 w = 5#3 :=
  mask707F_iff w _ rfl

theorem row_bltu (w : Word) :
    w &&& 0x0000707F#32 = 0x00006063#32 ↔ fieldOpcode w = opBranch ∧ fieldFunct3 w = 6#3 :=
  mask707F_iff w _ rfl

theorem row_bgeu (w : Word) :
    w &&& 0x0000707F#32 = 0x00007063#32 ↔ fieldOpcode w = opBranch ∧ fieldFunct3 w = 7#3 :=
  mask707F_iff w _ rfl

theorem row_lb (w : Word) :
    w &&& 0x0000707F#32 = 0x00000003#32 ↔ fieldOpcode w = opLoad ∧ fieldFunct3 w = 0#3 :=
  mask707F_iff w _ rfl

theorem row_lh (w : Word) :
    w &&& 0x0000707F#32 = 0x00001003#32 ↔ fieldOpcode w = opLoad ∧ fieldFunct3 w = 1#3 :=
  mask707F_iff w _ rfl

theorem row_lw (w : Word) :
    w &&& 0x0000707F#32 = 0x00002003#32 ↔ fieldOpcode w = opLoad ∧ fieldFunct3 w = 2#3 :=
  mask707F_iff w _ rfl

theorem row_lbu (w : Word) :
    w &&& 0x0000707F#32 = 0x00004003#32 ↔ fieldOpcode w = opLoad ∧ fieldFunct3 w = 4#3 :=
  mask707F_iff w _ rfl

theorem row_lhu (w : Word) :
    w &&& 0x0000707F#32 = 0x00005003#32 ↔ fieldOpcode w = opLoad ∧ fieldFunct3 w = 5#3 :=
  mask707F_iff w _ rfl

theorem row_sb (w : Word) :
    w &&& 0x0000707F#32 = 0x00000023#32 ↔ fieldOpcode w = opStore ∧ fieldFunct3 w = 0#3 :=
  mask707F_iff w _ rfl

theorem row_sh (w : Word) :
    w &&& 0x0000707F#32 = 0x00001023#32 ↔ fieldOpcode w = opStore ∧ fieldFunct3 w = 1#3 :=
  mask707F_iff w _ rfl

theorem row_sw (w : Word) :
    w &&& 0x0000707F#32 = 0x00002023#32 ↔ fieldOpcode w = opStore ∧ fieldFunct3 w = 2#3 :=
  mask707F_iff w _ rfl

theorem row_addi (w : Word) :
    w &&& 0x0000707F#32 = 0x00000013#32 ↔ fieldOpcode w = opOpImm ∧ fieldFunct3 w = 0#3 :=
  mask707F_iff w _ rfl

theorem row_slti (w : Word) :
    w &&& 0x0000707F#32 = 0x00002013#32 ↔ fieldOpcode w = opOpImm ∧ fieldFunct3 w = 2#3 :=
  mask707F_iff w _ rfl

theorem row_sltiu (w : Word) :
    w &&& 0x0000707F#32 = 0x00003013#32 ↔ fieldOpcode w = opOpImm ∧ fieldFunct3 w = 3#3 :=
  mask707F_iff w _ rfl

theorem row_xori (w : Word) :
    w &&& 0x0000707F#32 = 0x00004013#32 ↔ fieldOpcode w = opOpImm ∧ fieldFunct3 w = 4#3 :=
  mask707F_iff w _ rfl

theorem row_ori (w : Word) :
    w &&& 0x0000707F#32 = 0x00006013#32 ↔ fieldOpcode w = opOpImm ∧ fieldFunct3 w = 6#3 :=
  mask707F_iff w _ rfl

theorem row_andi (w : Word) :
    w &&& 0x0000707F#32 = 0x00007013#32 ↔ fieldOpcode w = opOpImm ∧ fieldFunct3 w = 7#3 :=
  mask707F_iff w _ rfl

theorem row_slli (w : Word) :
    w &&& 0x0000707F#32 = 0x00001013#32 ↔ fieldOpcode w = opOpImm ∧ fieldFunct3 w = 1#3 :=
  mask707F_iff w _ rfl

theorem row_srli (w : Word) :
    w &&& 0x4000707F#32 = 0x00005013#32 ↔ fieldOpcode w = opOpImm ∧ fieldFunct3 w = 5#3 ∧ fieldBit30 w = false :=
  mask4000707F_iff w _ rfl

theorem row_srai (w : Word) :
    w &&& 0x4000707F#32 = 0x40005013#32 ↔ fieldOpcode w = opOpImm ∧ fieldFunct3 w = 5#3 ∧ fieldBit30 w = true :=
  mask4000707F_iff w _ rfl

theorem row_add (w : Word) :
    w &&& 0x4000707F#32 = 0x00000033#32 ↔ fieldOpcode w = opOp ∧ fieldFunct3 w = 0#3 ∧ fieldBit30 w = false :=
  mask4000707F_iff w _ rfl

theorem row_sub (w : Word) :
    w &&& 0x4000707F#32 = 0x40000033#32 ↔ fieldOpcode w = opOp ∧ fieldFunct3 w = 0#3 ∧ fieldBit30 w = true :=
  mask4000707F_iff w _ rfl

theorem row_sll (w : Word) :
    w &&& 0x0000707F#32 = 0x00001033#32 ↔ fieldOpcode w = opOp ∧ fieldFunct3 w = 1#3 :=
  mask707F_iff w _ rfl

theorem row_slt (w : Word) :
    w &&& 0x0000707F#32 = 0x00002033#32 ↔ fieldOpcode w = opOp ∧ fieldFunct3 w = 2#3 :=
  mask707F_iff w _ rfl

theorem row_sltu (w : Word) :
    w &&& 0x0000707F#32 = 0x00003033#32 ↔ fieldOpcode w = opOp ∧ fieldFunct3 w = 3#3 :=
  mask707F_iff w _ rfl

theorem row_xor (w : Word) :
    w &&& 0x0000707F#32 = 0x00004033#32 ↔ fieldOpcode w = opOp ∧ fieldFunct3 w = 4#3 :=
  mask707F_iff w _ rfl

theorem row_srl (w : Word) :
    w &&& 0x4000707F#32 = 0x00005033#32 ↔ fieldOpcode w = opOp ∧ fieldFunct3 w = 5#3 ∧ fieldBit30 w = false :=
  mask4000707F_iff w _ rfl

theorem row_sra (w : Word) :
    w &&& 0x4000707F#32 = 0x40005033#32 ↔ fieldOpcode w = opOp ∧ fieldFunct3 w = 5#3 ∧ fieldBit30 w = true :=
  mask4000707F_iff w _ rfl

theorem row_or (w : Word) :
    w &&& 0x0000707F#32 = 0x00006033#32 ↔ fieldOpcode w = opOp ∧ fieldFunct3 w = 6#3 :=
  mask707F_iff w _ rfl

theorem row_and (w : Word) :
    w &&& 0x0000707F#32 = 0x00007033#32 ↔ fieldOpcode w = opOp ∧ fieldFunct3 w = 7#3 :=
  mask707F_iff w _ rfl

theorem row_fence (w : Word) :
    w &&& 0x0000707F#32 = 0x0000000F#32 ↔ fieldOpcode w = opMiscMem ∧ fieldFunct3 w = 0#3 :=
  mask707F_iff w _ rfl

theorem std_jalr (w : Word) :
    w &&& 0x0000707F#32 = 0x00000067#32 ↔ fieldOpcode w = opJalr ∧ fieldFunct3 w = 0#3 :=
  mask707F_iff w _ rfl

theorem std_slli (w : Word) :
    w &&& 0xFE00707F#32 = 0x00001013#32 ↔ fieldOpcode w = opOpImm ∧ fieldFunct3 w = 1#3 ∧ fieldFunct7 w = 0#7 :=
  maskFE00707F_iff w _ rfl

theorem std_srli (w : Word) :
    w &&& 0xFE00707F#32 = 0x00005013#32 ↔ fieldOpcode w = opOpImm ∧ fieldFunct3 w = 5#3 ∧ fieldFunct7 w = 0#7 :=
  maskFE00707F_iff w _ rfl

theorem std_srai (w : Word) :
    w &&& 0xFE00707F#32 = 0x40005013#32 ↔ fieldOpcode w = opOpImm ∧ fieldFunct3 w = 5#3 ∧ fieldFunct7 w = 32#7 :=
  maskFE00707F_iff w _ rfl

theorem std_add (w : Word) :
    w &&& 0xFE00707F#32 = 0x00000033#32 ↔ fieldOpcode w = opOp ∧ fieldFunct3 w = 0#3 ∧ fieldFunct7 w = 0#7 :=
  maskFE00707F_iff w _ rfl

theorem std_sub (w : Word) :
    w &&& 0xFE00707F#32 = 0x40000033#32 ↔ fieldOpcode w = opOp ∧ fieldFunct3 w = 0#3 ∧ fieldFunct7 w = 32#7 :=
  maskFE00707F_iff w _ rfl

theorem std_sll (w : Word) :
    w &&& 0xFE00707F#32 = 0x00001033#32 ↔ fieldOpcode w = opOp ∧ fieldFunct3 w = 1#3 ∧ fieldFunct7 w = 0#7 :=
  maskFE00707F_iff w _ rfl

theorem std_slt (w : Word) :
    w &&& 0xFE00707F#32 = 0x00002033#32 ↔ fieldOpcode w = opOp ∧ fieldFunct3 w = 2#3 ∧ fieldFunct7 w = 0#7 :=
  maskFE00707F_iff w _ rfl

theorem std_sltu (w : Word) :
    w &&& 0xFE00707F#32 = 0x00003033#32 ↔ fieldOpcode w = opOp ∧ fieldFunct3 w = 3#3 ∧ fieldFunct7 w = 0#7 :=
  maskFE00707F_iff w _ rfl

theorem std_xor (w : Word) :
    w &&& 0xFE00707F#32 = 0x00004033#32 ↔ fieldOpcode w = opOp ∧ fieldFunct3 w = 4#3 ∧ fieldFunct7 w = 0#7 :=
  maskFE00707F_iff w _ rfl

theorem std_srl (w : Word) :
    w &&& 0xFE00707F#32 = 0x00005033#32 ↔ fieldOpcode w = opOp ∧ fieldFunct3 w = 5#3 ∧ fieldFunct7 w = 0#7 :=
  maskFE00707F_iff w _ rfl

theorem std_sra (w : Word) :
    w &&& 0xFE00707F#32 = 0x40005033#32 ↔ fieldOpcode w = opOp ∧ fieldFunct3 w = 5#3 ∧ fieldFunct7 w = 32#7 :=
  maskFE00707F_iff w _ rfl

theorem std_or (w : Word) :
    w &&& 0xFE00707F#32 = 0x00006033#32 ↔ fieldOpcode w = opOp ∧ fieldFunct3 w = 6#3 ∧ fieldFunct7 w = 0#7 :=
  maskFE00707F_iff w _ rfl

theorem std_and (w : Word) :
    w &&& 0xFE00707F#32 = 0x00007033#32 ↔ fieldOpcode w = opOp ∧ fieldFunct3 w = 7#3 ∧ fieldFunct7 w = 0#7 :=
  maskFE00707F_iff w _ rfl

/-- A word matches one of the 37 rows exactly when the decoder has an arm with a row for it (R70, R71). -/
def recognized (w : Word) : Prop :=
  fieldOpcode w = opLui ∨ fieldOpcode w = opAuipc ∨ fieldOpcode w = opJal ∨ fieldOpcode w = opJalr
    ∨ (fieldOpcode w = opBranch ∧ fieldFunct3 w ≠ 2#3 ∧ fieldFunct3 w ≠ 3#3)
    ∨ (fieldOpcode w = opLoad ∧ fieldFunct3 w ≠ 3#3 ∧ fieldFunct3 w ≠ 6#3 ∧ fieldFunct3 w ≠ 7#3)
    ∨ (fieldOpcode w = opStore ∧ (fieldFunct3 w = 0#3 ∨ fieldFunct3 w = 1#3 ∨ fieldFunct3 w = 2#3))
    ∨ fieldOpcode w = opOpImm ∨ fieldOpcode w = opOp

/-- Every word's funct3 and bit 30, as the tests of the rows need them. -/
theorem rows37_iff (w : Word) : rows37.any (fun r => r.matchesBlock w) = true ↔ recognized w := by
  simp only [rows37, rowsUpperAndJump, rowsBranch, rowsLoad, rowsStore, rowsOpImm, rowsOp, List.cons_append,
    List.nil_append, List.any_cons, List.any_nil, OpRow.matchesBlock, Bool.or_false, Bool.or_eq_true, beq_iff_eq,
    row_lui, row_auipc, row_jal, row_jalr, row_beq, row_bne, row_blt, row_bge, row_bltu, row_bgeu, row_lb, row_lh, row_lw, row_lbu, row_lhu, row_sb, row_sh, row_sw, row_addi, row_slti, row_sltiu, row_xori, row_ori, row_andi, row_slli, row_srli, row_srai, row_add, row_sub, row_sll, row_slt, row_sltu, row_xor, row_srl, row_sra, row_or, row_and]
  unfold recognized
  have hb : fieldBit30 w = true ∨ fieldBit30 w = false := by cases fieldBit30 w <;> simp
  rcases funct3_cases (fieldFunct3 w) with h | h | h | h | h | h | h | h <;> rcases hb with hb | hb <;>
    simp only [h, hb] <;> simp

/-- Bit 30 is bit 5 of funct7. -/
theorem fieldBit30_eq (w : Word) : fieldBit30 w = (fieldFunct7 w).getLsbD 5 := by
  simp [fieldBit30, fieldFunct7]

/-- A word matches the standard encoding of one of the 37 rows exactly when it is recognized and its ignored bits have their
standard values (R73). -/
theorem std37_iff (w : Word) : rows37.any (fun r => r.matchesStd w) = true ↔
    recognized w ∧ (fieldOpcode w = opJalr → fieldFunct3 w = 0#3)
      ∧ (fieldOpcode w = opOpImm → fieldFunct3 w = 1#3 → fieldFunct7 w = 0#7)
      ∧ (fieldOpcode w = opOpImm → fieldFunct3 w = 5#3 → fieldFunct7 w = 0#7 ∨ fieldFunct7 w = 32#7)
      ∧ (fieldOpcode w = opOp → (fieldFunct3 w = 0#3 ∨ fieldFunct3 w = 5#3) → fieldFunct7 w = 0#7 ∨ fieldFunct7 w = 32#7)
      ∧ (fieldOpcode w = opOp → fieldFunct3 w ≠ 0#3 → fieldFunct3 w ≠ 5#3 → fieldFunct7 w = 0#7) := by
  simp only [rows37, rowsUpperAndJump, rowsBranch, rowsLoad, rowsStore, rowsOpImm, rowsOp, List.cons_append,
    List.nil_append, List.any_cons, List.any_nil, OpRow.matchesStd, Bool.or_false, Bool.or_eq_true, beq_iff_eq,
    row_lui, row_auipc, row_jal, std_jalr, row_beq, row_bne, row_blt, row_bge, row_bltu, row_bgeu, row_lb, row_lh, row_lw, row_lbu, row_lhu, row_sb, row_sh, row_sw, row_addi, row_slti, row_sltiu, row_xori, row_ori, row_andi, std_slli, std_srli, std_srai, std_add, std_sub, std_sll, std_slt, std_sltu, std_xor, std_srl, std_sra, std_or, std_and]
  unfold recognized
  rcases opcode_cases w with ho | ho | ho | ho | ho | ho | ho | ho | ho | ho
  all_goals first
    | (simp only [recognizedOpcodes, List.mem_cons, List.not_mem_nil, or_false, not_or] at ho
       simp [ho])
    | (simp only [ho, opBranch, opLui, opAuipc, opJal, opJalr, opLoad, opStore, opOpImm, opOp]
       rcases funct3_cases (fieldFunct3 w) with h | h | h | h | h | h | h | h <;> simp [h])

/-- The standard encoding of a row is one of the words its block test accepts. -/
theorem std_implies_block : ∀ r ∈ rows37, ∀ w, r.matchesStd w = true → r.matchesBlock w = true := by
  have key : ∀ r ∈ rows37, r.stdMask &&& r.mask = r.mask ∧ r.stdValue &&& r.mask = r.value := by decide
  intro r hr w h
  obtain ⟨h1, h2⟩ := key r hr
  simp only [OpRow.matchesStd, OpRow.matchesBlock, beq_iff_eq] at h ⊢
  rw [← h1, ← BitVec.and_assoc, h, h2]

/-- decode_status of a word with a row is OK or ALIAS (R77). -/
theorem decodeStatus_of_recognized {w : Word} (h : recognized w) :
    decodeStatus w = .ok ∨ decodeStatus w = .aliased := by
  unfold decodeStatus
  rw [if_pos ((rows37_iff w).2 h)]
  split
  · exact .inl rfl
  · exact .inr rfl

/-- decode_status of a word without one of the 37 rows (R77). -/
theorem decodeStatus_of_not_recognized {w : Word} (h : ¬ recognized w) :
    decodeStatus w = if w &&& 0x0000707F#32 = 0x0000000F#32 ∨ w = 0x00000073#32 ∨ w = 0x00100073#32 then .noEffect
      else .unrecognized := by
  have h2 : rows37.any (fun r => r.matchesBlock w) = false := by
    rw [Bool.eq_false_iff]; exact fun c => h ((rows37_iff w).1 c)
  have h1 : rows37.any (fun r => r.matchesStd w) = false := by
    rw [List.any_eq_false] at h2 ⊢
    exact fun r hr c => h2 r hr (std_implies_block r hr w c)
  unfold decodeStatus
  rw [h1, h2]; rfl

end Sys2Proof
end

