-- ==== Sys2Proof/Tests/Slice0.lean ====
section
/-! SUPPORT. Tests on fixed values. Expected values are those of spec/95_test_vectors.md and of the rules' own examples, never the
model's own answers; words are written out from the spec's encodings (R61 to R67, R71). The witness theorems show, for each
statement that has hypotheses, concrete values that meet all of them together, a clause at a time. -/

set_option Elab.async false

namespace Sys2Proof.Tests

open Sys2Proof.Machine

/-! ### Helpers -/

/-- The state of the test vectors: BASE 0x00010000, MEM_SIZE 64 MiB, the word at the pc, the listed registers. -/
def stateAt (pc w : Word) (regs : List (RegIdx × Word)) : State :=
  storeBytes pc 4 w (regs.foldl (fun s p => writeReg p.1 p.2 s) (setPc pc State.reset))

/-- A vector's state at pc = 0x00010100. -/
def vec (w : Word) (regs : List (RegIdx × Word)) : State := stateAt 0x00010100#32 w regs

/-- Memory M: bytes 80 7F FF 01 00 at 0x00012000. -/
def withM (s : State) : State := storeBytes 0x00012000#32 4 0x01FF7F80#32 s

/-- The next state of an outcome. -/
def nextOf : Result → Option State
  | .next t => some t
  | .fault _ => none
  | .refused _ => none

def faultOf : Result → Option Fault
  | .next _ => none
  | .fault f => some f
  | .refused _ => none

theorem exists_next {r : Result} (h : (nextOf r).isSome = true) : ∃ t, r = .next t := by
  cases r with
  | next t => exact ⟨t, rfl⟩
  | fault f => cases h
  | refused q => cases h

/-- One register and the pc after one step. -/
def after (r : RegIdx) (s : State) : Option (Word × Word) := (nextOf (step s)).map (fun t => (readReg r t, t.pc))

/-- Two registers and the pc after one step. -/
def after2 (r q : RegIdx) (s : State) : Option (Word × Word × Word) :=
  (nextOf (step s)).map (fun t => (readReg r t, readReg q t, t.pc))

/-- The bytes at four addresses from `a`, and the pc, after one step. -/
def bytesAfter (a : Word) (s : State) : Option (List (Option Byte) × Word) :=
  (nextOf (step s)).map (fun t =>
    ([byteAt t a, byteAt t (a + 1#32), byteAt t (a + 2#32), byteAt t (a + 3#32)], t.pc))

/-! ### WellFormed: each check refuses an ill-formed term -/

theorem test_wf_jal_odd : (Instr.jal 1#5 9#21).wf = false := by decide
theorem test_wf_beq_odd : (Instr.beq 5#5 6#5 17#13).wf = false := by decide
theorem test_wf_bne_odd : (Instr.bne 5#5 6#5 17#13).wf = false := by decide
theorem test_wf_blt_odd : (Instr.blt 5#5 6#5 17#13).wf = false := by decide
theorem test_wf_bge_odd : (Instr.bge 5#5 6#5 17#13).wf = false := by decide
theorem test_wf_bltu_odd : (Instr.bltu 5#5 6#5 17#13).wf = false := by decide
theorem test_wf_bgeu_odd : (Instr.bgeu 5#5 6#5 17#13).wf = false := by decide
theorem test_wf_even_offsets : (Instr.jal 1#5 8#21).wf = true ∧ (Instr.beq 5#5 6#5 16#13).wf = true := by decide

/-! ### Decoding: every constructor, words written out bit by bit from the formats of R62 and the numbers of R71 -/

theorem test_decode_lui_auipc :
    decode (0b00010010001101000101#20 ++ 0b00101#5 ++ 0b0110111#7) = .instr (.lui 5#5 0x12345#20)
    ∧ decode (0b00000000000000000001#20 ++ 0b00101#5 ++ 0b0010111#7) = .instr (.auipc 5#5 1#20) := by decide

/-- The encoder gives the words the spec writes for these instructions. -/
theorem test_encode_lui_auipc :
    encode (.lui 5#5 0x12345#20) = 0x123452B7#32
    ∧ encode (.auipc 5#5 1#20) = 0x00001297#32 := by decide

theorem test_decode_jumps :
    decode (0b0#1 ++ 0b0000000100#10 ++ 0b0#1 ++ 0b00000000#8 ++ 0b00001#5 ++ 0b1101111#7) = .instr (.jal 1#5 8#21)
    ∧ decode (0b1#1 ++ 0b1111111110#10 ++ 0b1#1 ++ 0b11111111#8 ++ 0b00000#5 ++ 0b1101111#7) = .instr (.jal 0#5 0x1FFFFC#21)
    ∧ decode (0b1#1 ++ 0b0000000000#10 ++ 0b0#1 ++ 0b00000000#8 ++ 0b00001#5 ++ 0b1101111#7) = .instr (.jal 1#5 0x100000#21)
    ∧ decode (0b000000000011#12 ++ 0b00101#5 ++ 0b000#3 ++ 0b00001#5 ++ 0b1100111#7) = .instr (.jalr 1#5 5#5 3#12) := by decide

/-- The encoder gives the words the spec writes for these instructions. -/
theorem test_encode_jumps :
    encode (.jal 1#5 8#21) = 0x008000EF#32
    ∧ encode (.jal 0#5 0x1FFFFC#21) = 0xFFDFF06F#32
    ∧ encode (.jal 1#5 0x100000#21) = 0x800000EF#32
    ∧ encode (.jalr 1#5 5#5 3#12) = 0x003280E7#32 := by decide

theorem test_decode_branches :
    decode (0b0#1 ++ 0b000000#6 ++ 0b00110#5 ++ 0b00101#5 ++ 0b000#3 ++ 0b1000#4 ++ 0b0#1 ++ 0b1100011#7) = .instr (.beq 5#5 6#5 16#13)
    ∧ decode (0b0#1 ++ 0b000000#6 ++ 0b00110#5 ++ 0b00101#5 ++ 0b001#3 ++ 0b1000#4 ++ 0b0#1 ++ 0b1100011#7) = .instr (.bne 5#5 6#5 16#13)
    ∧ decode (0b0#1 ++ 0b000000#6 ++ 0b00110#5 ++ 0b00101#5 ++ 0b100#3 ++ 0b1000#4 ++ 0b0#1 ++ 0b1100011#7) = .instr (.blt 5#5 6#5 16#13)
    ∧ decode (0b0#1 ++ 0b000000#6 ++ 0b00110#5 ++ 0b00101#5 ++ 0b101#3 ++ 0b1000#4 ++ 0b0#1 ++ 0b1100011#7) = .instr (.bge 5#5 6#5 16#13)
    ∧ decode (0b0#1 ++ 0b000000#6 ++ 0b00110#5 ++ 0b00101#5 ++ 0b110#3 ++ 0b1000#4 ++ 0b0#1 ++ 0b1100011#7) = .instr (.bltu 5#5 6#5 16#13)
    ∧ decode (0b0#1 ++ 0b000000#6 ++ 0b00110#5 ++ 0b00101#5 ++ 0b111#3 ++ 0b1000#4 ++ 0b0#1 ++ 0b1100011#7) = .instr (.bgeu 5#5 6#5 16#13)
    ∧ decode (0b1#1 ++ 0b000000#6 ++ 0b00000#5 ++ 0b00000#5 ++ 0b000#3 ++ 0b0000#4 ++ 0b0#1 ++ 0b1100011#7) = .instr (.beq 0#5 0#5 0x1000#13)
    ∧ decode (0b0#1 ++ 0b111111#6 ++ 0b00000#5 ++ 0b00000#5 ++ 0b000#3 ++ 0b1111#4 ++ 0b1#1 ++ 0b1100011#7) = .instr (.beq 0#5 0#5 0x0FFE#13) := by decide

/-- The encoder gives the words the spec writes for these instructions. -/
theorem test_encode_branches :
    encode (.beq 5#5 6#5 16#13) = 0x00628863#32
    ∧ encode (.bne 5#5 6#5 16#13) = 0x00629863#32
    ∧ encode (.blt 5#5 6#5 16#13) = 0x0062C863#32
    ∧ encode (.bge 5#5 6#5 16#13) = 0x0062D863#32
    ∧ encode (.bltu 5#5 6#5 16#13) = 0x0062E863#32
    ∧ encode (.bgeu 5#5 6#5 16#13) = 0x0062F863#32
    ∧ encode (.beq 0#5 0#5 0x1000#13) = 0x80000063#32
    ∧ encode (.beq 0#5 0#5 0x0FFE#13) = 0x7E000FE3#32 := by decide

theorem test_decode_loads :
    decode (0b111111111111#12 ++ 0b00110#5 ++ 0b000#3 ++ 0b00101#5 ++ 0b0000011#7) = .instr (.lb 5#5 6#5 0xfff#12)
    ∧ decode (0b000000000001#12 ++ 0b00110#5 ++ 0b001#3 ++ 0b00101#5 ++ 0b0000011#7) = .instr (.lh 5#5 6#5 0x1#12)
    ∧ decode (0b000000000001#12 ++ 0b00110#5 ++ 0b010#3 ++ 0b00101#5 ++ 0b0000011#7) = .instr (.lw 5#5 6#5 0x1#12)
    ∧ decode (0b000000000001#12 ++ 0b00110#5 ++ 0b100#3 ++ 0b00101#5 ++ 0b0000011#7) = .instr (.lbu 5#5 6#5 0x1#12)
    ∧ decode (0b000000000010#12 ++ 0b00110#5 ++ 0b101#3 ++ 0b00101#5 ++ 0b0000011#7) = .instr (.lhu 5#5 6#5 0x2#12) := by decide

/-- The encoder gives the words the spec writes for these instructions. -/
theorem test_encode_loads :
    encode (.lb 5#5 6#5 0xfff#12) = 0xFFF30283#32
    ∧ encode (.lh 5#5 6#5 0x1#12) = 0x00131283#32
    ∧ encode (.lw 5#5 6#5 0x1#12) = 0x00132283#32
    ∧ encode (.lbu 5#5 6#5 0x1#12) = 0x00134283#32
    ∧ encode (.lhu 5#5 6#5 0x2#12) = 0x00235283#32 := by decide

theorem test_decode_stores :
    decode (0b1111111#7 ++ 0b00111#5 ++ 0b00110#5 ++ 0b000#3 ++ 0b11111#5 ++ 0b0100011#7) = .instr (.sb 7#5 6#5 0xfff#12)
    ∧ decode (0b0000000#7 ++ 0b00111#5 ++ 0b00110#5 ++ 0b001#3 ++ 0b00001#5 ++ 0b0100011#7) = .instr (.sh 7#5 6#5 0x1#12)
    ∧ decode (0b1111111#7 ++ 0b00111#5 ++ 0b00110#5 ++ 0b010#3 ++ 0b11100#5 ++ 0b0100011#7) = .instr (.sw 7#5 6#5 0xffc#12)
    ∧ decode (0b0111111#7 ++ 0b00111#5 ++ 0b00110#5 ++ 0b010#3 ++ 0b11111#5 ++ 0b0100011#7) = .instr (.sw 7#5 6#5 0x7ff#12) := by decide

/-- The encoder gives the words the spec writes for these instructions. -/
theorem test_encode_stores :
    encode (.sb 7#5 6#5 0xfff#12) = 0xFE730FA3#32
    ∧ encode (.sh 7#5 6#5 0x1#12) = 0x007310A3#32
    ∧ encode (.sw 7#5 6#5 0xffc#12) = 0xFE732E23#32
    ∧ encode (.sw 7#5 6#5 0x7ff#12) = 0x7E732FA3#32 := by decide

theorem test_decode_immediate :
    decode (0b100000000000#12 ++ 0b00110#5 ++ 0b000#3 ++ 0b00101#5 ++ 0b0010011#7) = .instr (.addi 5#5 6#5 0x800#12)
    ∧ decode (0b011111111111#12 ++ 0b00110#5 ++ 0b010#3 ++ 0b00101#5 ++ 0b0010011#7) = .instr (.slti 5#5 6#5 0x7ff#12)
    ∧ decode (0b000000000001#12 ++ 0b00110#5 ++ 0b011#3 ++ 0b00101#5 ++ 0b0010011#7) = .instr (.sltiu 5#5 6#5 0x1#12)
    ∧ decode (0b111111111111#12 ++ 0b00110#5 ++ 0b100#3 ++ 0b00101#5 ++ 0b0010011#7) = .instr (.xori 5#5 6#5 0xfff#12)
    ∧ decode (0b000011110000#12 ++ 0b00110#5 ++ 0b110#3 ++ 0b00101#5 ++ 0b0010011#7) = .instr (.ori 5#5 6#5 0xf0#12)
    ∧ decode (0b111100000000#12 ++ 0b00110#5 ++ 0b111#3 ++ 0b00101#5 ++ 0b0010011#7) = .instr (.andi 5#5 6#5 0xf00#12) := by decide

/-- The encoder gives the words the spec writes for these instructions. -/
theorem test_encode_immediate :
    encode (.addi 5#5 6#5 0x800#12) = 0x80030293#32
    ∧ encode (.slti 5#5 6#5 0x7ff#12) = 0x7FF32293#32
    ∧ encode (.sltiu 5#5 6#5 0x1#12) = 0x00133293#32
    ∧ encode (.xori 5#5 6#5 0xfff#12) = 0xFFF34293#32
    ∧ encode (.ori 5#5 6#5 0xf0#12) = 0x0F036293#32
    ∧ encode (.andi 5#5 6#5 0xf00#12) = 0xF0037293#32 := by decide

theorem test_decode_immediate_shifts :
    decode (0b0000000#7 ++ 0b11111#5 ++ 0b00110#5 ++ 0b001#3 ++ 0b00101#5 ++ 0b0010011#7) = .instr (.slli 5#5 6#5 31#5)
    ∧ decode (0b0000000#7 ++ 0b00100#5 ++ 0b00110#5 ++ 0b101#3 ++ 0b00101#5 ++ 0b0010011#7) = .instr (.srli 5#5 6#5 4#5)
    ∧ decode (0b0100000#7 ++ 0b11111#5 ++ 0b00110#5 ++ 0b101#3 ++ 0b00101#5 ++ 0b0010011#7) = .instr (.srai 5#5 6#5 31#5) := by decide

/-- The encoder gives the words the spec writes for these instructions. -/
theorem test_encode_immediate_shifts :
    encode (.slli 5#5 6#5 31#5) = 0x01F31293#32
    ∧ encode (.srli 5#5 6#5 4#5) = 0x00435293#32
    ∧ encode (.srai 5#5 6#5 31#5) = 0x41F35293#32 := by decide

theorem test_decode_register :
    decode (0b0000000#7 ++ 0b00111#5 ++ 0b00110#5 ++ 0b000#3 ++ 0b00101#5 ++ 0b0110011#7) = .instr (.add 5#5 6#5 7#5)
    ∧ decode (0b0100000#7 ++ 0b00111#5 ++ 0b00110#5 ++ 0b000#3 ++ 0b00101#5 ++ 0b0110011#7) = .instr (.sub 5#5 6#5 7#5)
    ∧ decode (0b0000000#7 ++ 0b00111#5 ++ 0b00110#5 ++ 0b001#3 ++ 0b00101#5 ++ 0b0110011#7) = .instr (.sll 5#5 6#5 7#5)
    ∧ decode (0b0000000#7 ++ 0b00111#5 ++ 0b00110#5 ++ 0b010#3 ++ 0b00101#5 ++ 0b0110011#7) = .instr (.slt 5#5 6#5 7#5)
    ∧ decode (0b0000000#7 ++ 0b00111#5 ++ 0b00110#5 ++ 0b011#3 ++ 0b00101#5 ++ 0b0110011#7) = .instr (.sltu 5#5 6#5 7#5)
    ∧ decode (0b0000000#7 ++ 0b00111#5 ++ 0b00110#5 ++ 0b100#3 ++ 0b00101#5 ++ 0b0110011#7) = .instr (.xor 5#5 6#5 7#5)
    ∧ decode (0b0000000#7 ++ 0b00111#5 ++ 0b00110#5 ++ 0b101#3 ++ 0b00101#5 ++ 0b0110011#7) = .instr (.srl 5#5 6#5 7#5)
    ∧ decode (0b0100000#7 ++ 0b00111#5 ++ 0b00110#5 ++ 0b101#3 ++ 0b00101#5 ++ 0b0110011#7) = .instr (.sra 5#5 6#5 7#5)
    ∧ decode (0b0000000#7 ++ 0b00111#5 ++ 0b00110#5 ++ 0b110#3 ++ 0b00101#5 ++ 0b0110011#7) = .instr (.or 5#5 6#5 7#5)
    ∧ decode (0b0000000#7 ++ 0b00111#5 ++ 0b00110#5 ++ 0b111#3 ++ 0b00101#5 ++ 0b0110011#7) = .instr (.and 5#5 6#5 7#5) := by decide

/-- The encoder gives the words the spec writes for these instructions. -/
theorem test_encode_register :
    encode (.add 5#5 6#5 7#5) = 0x007302B3#32
    ∧ encode (.sub 5#5 6#5 7#5) = 0x407302B3#32
    ∧ encode (.sll 5#5 6#5 7#5) = 0x007312B3#32
    ∧ encode (.slt 5#5 6#5 7#5) = 0x007322B3#32
    ∧ encode (.sltu 5#5 6#5 7#5) = 0x007332B3#32
    ∧ encode (.xor 5#5 6#5 7#5) = 0x007342B3#32
    ∧ encode (.srl 5#5 6#5 7#5) = 0x007352B3#32
    ∧ encode (.sra 5#5 6#5 7#5) = 0x407352B3#32
    ∧ encode (.or 5#5 6#5 7#5) = 0x007362B3#32
    ∧ encode (.and 5#5 6#5 7#5) = 0x007372B3#32 := by decide

theorem test_decode_no_effect :
    decode (0b0000#4 ++ 0b1111#4 ++ 0b1111#4 ++ 0b00000#5 ++ 0b000#3 ++ 0b00000#5 ++ 0b0001111#7) = .instr (.fence 0#5 0#5 0#4 15#4 15#4)
    ∧ decode (0b1000#4 ++ 0b0011#4 ++ 0b0011#4 ++ 0b00000#5 ++ 0b000#3 ++ 0b00000#5 ++ 0b0001111#7) = .instr (.fence 0#5 0#5 8#4 3#4 3#4)
    ∧ decode (0b000000000000#12 ++ 0b00000#5 ++ 0b000#3 ++ 0b00000#5 ++ 0b1110011#7) = .instr (.ecall)
    ∧ decode (0b000000000001#12 ++ 0b00000#5 ++ 0b000#3 ++ 0b00000#5 ++ 0b1110011#7) = .instr (.ebreak) := by decide

/-- The encoder gives the words the spec writes for these instructions. -/
theorem test_encode_no_effect :
    encode (.fence 0#5 0#5 0#4 15#4 15#4) = 0x0FF0000F#32
    ∧ encode (.fence 0#5 0#5 8#4 3#4 3#4) = 0x8330000F#32
    ∧ encode (.ecall) = 0x00000073#32
    ∧ encode (.ebreak) = 0x00100073#32 := by decide

/-- Words outside the table (R137, R146, R154, R200, R204). -/
theorem test_decode_unlisted :
    decode 0x0062A863#32 = .unlisted .reservedBranch ∧ decode 0x0062B863#32 = .unlisted .reservedBranch
    ∧ decode 0x00033283#32 = .unlisted (.reservedLoad 5#5) ∧ decode 0x00036283#32 = .unlisted (.reservedLoad 5#5)
    ∧ decode 0x00037283#32 = .unlisted (.reservedLoad 5#5) ∧ decode 0x00733023#32 = .unlisted .reservedStore
    ∧ decode 0x00737023#32 = .unlisted .reservedStore ∧ decode 0x0000028B#32 = .unlisted (.otherOpcode 5#5)
    ∧ decode 0x0000100F#32 = .unlisted (.otherOpcode 0#5) ∧ decode 0x30200073#32 = .unlisted (.otherOpcode 0#5)
    ∧ decode 0xC00022F3#32 = .unlisted (.otherOpcode 5#5) := by decide

/-- The statuses of spec/95_test_vectors.md (R77). -/
theorem test_decode_status :
    decodeStatus 0x123452B7#32 = .ok ∧ decodeStatus 0x000290E7#32 = .aliased ∧ decodeStatus 0x02131293#32 = .aliased
    ∧ decodeStatus 0x80435293#32 = .aliased ∧ decodeStatus 0x407342B3#32 = .aliased ∧ decodeStatus 0x027302B3#32 = .aliased
    ∧ decodeStatus 0x0FF0028F#32 = .noEffect ∧ decodeStatus 0x00100073#32 = .noEffect
    ∧ decodeStatus 0x0000100F#32 = .unrecognized ∧ decodeStatus 0x0062A863#32 = .unrecognized
    ∧ decodeStatus 0x10500073#32 = .unrecognized ∧ decodeStatus 0x00004501#32 = .unrecognized := by decide

/-- The immediates of the decoder's vector table (spec/95_test_vectors.md 2.1): SW x7, -4(x6) and JAL x0, -4. -/
theorem test_immediates :
    (immI 0xFE732E23#32).toInt = -25 ∧ (immS 0xFE732E23#32).toInt = -4 ∧ (immB 0xFE732E23#32).toInt = -2052
    ∧ immU 0xFE732E23#32 = 0xFE732000#32 ∧ (immJ 0xFE732E23#32).toInt = -839706
    ∧ (immI 0xFFDFF06F#32).toInt = -3 ∧ (immS 0xFFDFF06F#32).toInt = -32 ∧ (immB 0xFFDFF06F#32).toInt = -2080
    ∧ immU 0xFFDFF06F#32 = 0xFFDFF000#32 ∧ (immJ 0xFFDFF06F#32).toInt = -4 := by decide

theorem test_decodeTableWord :
    decodeTableWord 32 0x407302B3 = some (.sub 5#5 6#5 7#5) ∧ decodeTableWord 32 0x00100073 = some .ebreak
    ∧ decodeTableWord 32 0x0000100F = none := by decide

theorem test_withFetchWord :
    fetchWord (State.reset.withFetchWord 32 0x00500513) = some 0x00500513#32
    ∧ (State.reset.withFetchWord 32 0x00500513).pc = 0x00010000#32
    ∧ after 10#5 (State.reset.withFetchWord 32 0x00500513) = some (5#32, 0x00010004#32) := by decide

/-! ### One step of each instruction (spec/95_test_vectors.md 2.2 to 2.10) -/

theorem test_lui_1 : after 5#5 (vec 0x123452B7#32 [(5#5, 0xDEADBEEF#32)]) = some (0x12345000#32, 0x00010104#32) := by decide
theorem test_lui_2 : after 5#5 (vec 0xFFFFF2B7#32 [(5#5, 0x55555555#32)]) = some (0xFFFFF000#32, 0x00010104#32) := by decide
theorem test_auipc_1 : after 5#5 (vec 0x00001297#32 [(5#5, 0x55555555#32)]) = some (0x00011100#32, 0x00010104#32) := by decide
theorem test_auipc_2 : after 5#5 (vec 0xFFF00297#32 [(5#5, 0x55555555#32)]) = some (0xFFF10100#32, 0x00010104#32) := by decide
theorem test_jal_1 : after 1#5 (vec 0x008000EF#32 []) = some (0x00010104#32, 0x00010108#32) := by decide
theorem test_jal_2 : after 1#5 (vec 0x800000EF#32 []) = some (0x00010104#32, 0xFFF10100#32) := by decide
theorem test_jalr_1 : after 1#5 (vec 0x003280E7#32 [(5#5, 0x00010100#32)]) = some (0x00010104#32, 0x00010102#32) := by decide
theorem test_jalr_2 : after 5#5 (vec 0x000282E7#32 [(5#5, 0x00010200#32)]) = some (0x00010104#32, 0x00010200#32) := by decide
theorem test_beq_1 : after 5#5 (vec 0x00628863#32 [(5#5, 0x00000007#32), (6#5, 0x00000007#32)]) = some (0x00000007#32, 0x00010110#32) := by decide
theorem test_bne_1 : after 5#5 (vec 0x00629863#32 [(5#5, 0x00000007#32), (6#5, 0x00000007#32)]) = some (0x00000007#32, 0x00010104#32) := by decide
theorem test_blt_1 : after 5#5 (vec 0x0062C863#32 [(5#5, 0xFFFFFFFF#32), (6#5, 0x00000001#32)]) = some (0xFFFFFFFF#32, 0x00010110#32) := by decide
theorem test_bge_1 : after 5#5 (vec 0x0062D863#32 [(5#5, 0xFFFFFFFF#32), (6#5, 0x00000001#32)]) = some (0xFFFFFFFF#32, 0x00010104#32) := by decide
theorem test_bltu_1 : after 5#5 (vec 0x0062E863#32 [(5#5, 0xFFFFFFFF#32), (6#5, 0x00000001#32)]) = some (0xFFFFFFFF#32, 0x00010104#32) := by decide
theorem test_bgeu_1 : after 5#5 (vec 0x0062F863#32 [(5#5, 0xFFFFFFFF#32), (6#5, 0x00000001#32)]) = some (0xFFFFFFFF#32, 0x00010110#32) := by decide
theorem test_beq_2 : after 5#5 (vec 0x00628863#32 [(5#5, 0xFFFFFFFF#32), (6#5, 0x00000001#32)]) = some (0xFFFFFFFF#32, 0x00010104#32) := by decide
theorem test_bne_2 : after 5#5 (vec 0x00629863#32 [(5#5, 0xFFFFFFFF#32), (6#5, 0x00000001#32)]) = some (0xFFFFFFFF#32, 0x00010110#32) := by decide
theorem test_blt_2 : after 5#5 (vec 0x0062C863#32 [(5#5, 0x00000007#32), (6#5, 0x00000007#32)]) = some (0x00000007#32, 0x00010104#32) := by decide
theorem test_bge_2 : after 5#5 (vec 0x0062D863#32 [(5#5, 0x00000007#32), (6#5, 0x00000007#32)]) = some (0x00000007#32, 0x00010110#32) := by decide
theorem test_bltu_2 : after 5#5 (vec 0x0062E863#32 [(5#5, 0x00000001#32), (6#5, 0xFFFFFFFF#32)]) = some (0x00000001#32, 0x00010110#32) := by decide
theorem test_bgeu_2 : after 5#5 (vec 0x0062F863#32 [(5#5, 0x00000001#32), (6#5, 0xFFFFFFFF#32)]) = some (0x00000001#32, 0x00010104#32) := by decide
theorem test_lb_1 : after 5#5 (withM (vec 0x00030283#32 [(5#5, 0x55555555#32), (6#5, 0x00012000#32)])) = some (0xFFFFFF80#32, 0x00010104#32) := by decide
theorem test_lb_2 : after 5#5 (withM (vec 0xFFF30283#32 [(5#5, 0x55555555#32), (6#5, 0x00012001#32)])) = some (0xFFFFFF80#32, 0x00010104#32) := by decide
theorem test_lh_1 : after 5#5 (withM (vec 0x00031283#32 [(5#5, 0x55555555#32), (6#5, 0x00012000#32)])) = some (0x00007F80#32, 0x00010104#32) := by decide
theorem test_lh_2 : after 5#5 (withM (vec 0x00131283#32 [(5#5, 0x55555555#32), (6#5, 0x00012000#32)])) = some (0xFFFFFF7F#32, 0x00010104#32) := by decide
theorem test_lw_1 : after 5#5 (withM (vec 0x00132283#32 [(5#5, 0x55555555#32), (6#5, 0x00012000#32)])) = some (0x0001FF7F#32, 0x00010104#32) := by decide
theorem test_lw_2 : after 6#5 (withM (vec 0x00032303#32 [(6#5, 0x00012000#32)])) = some (0x01FF7F80#32, 0x00010104#32) := by decide
theorem test_lbu_1 : after 5#5 (withM (vec 0x00034283#32 [(5#5, 0x55555555#32), (6#5, 0x00012000#32)])) = some (0x00000080#32, 0x00010104#32) := by decide
theorem test_lhu_1 : after 5#5 (withM (vec 0x00135283#32 [(5#5, 0x55555555#32), (6#5, 0x00012000#32)])) = some (0x0000FF7F#32, 0x00010104#32) := by decide
theorem test_addi_1 : after 5#5 (vec 0x00130293#32 [(5#5, 0x55555555#32), (6#5, 0x7FFFFFFF#32)]) = some (0x80000000#32, 0x00010104#32) := by decide
theorem test_addi_2 : after 5#5 (vec 0x80030293#32 [(5#5, 0x55555555#32), (6#5, 0x00000000#32)]) = some (0xFFFFF800#32, 0x00010104#32) := by decide
theorem test_slti_1 : after 5#5 (vec 0xFFF32293#32 [(5#5, 0x55555555#32), (6#5, 0xFFFFFFFE#32)]) = some (0x00000001#32, 0x00010104#32) := by decide
theorem test_slti_2 : after 5#5 (vec 0x7FF32293#32 [(5#5, 0x55555555#32), (6#5, 0x7FFFFFFF#32)]) = some (0x00000000#32, 0x00010104#32) := by decide
theorem test_sltiu_1 : after 5#5 (vec 0xFFF33293#32 [(5#5, 0x55555555#32), (6#5, 0xFFFFFFFE#32)]) = some (0x00000001#32, 0x00010104#32) := by decide
theorem test_sltiu_2 : after 5#5 (vec 0xFFF33293#32 [(5#5, 0x55555555#32), (6#5, 0xFFFFFFFF#32)]) = some (0x00000000#32, 0x00010104#32) := by decide
theorem test_xori_1 : after 5#5 (vec 0x7FF34293#32 [(5#5, 0x55555555#32), (6#5, 0xFFFFFFFF#32)]) = some (0xFFFFF800#32, 0x00010104#32) := by decide
theorem test_ori_1 : after 5#5 (vec 0x80036293#32 [(5#5, 0x55555555#32), (6#5, 0x00000000#32)]) = some (0xFFFFF800#32, 0x00010104#32) := by decide
theorem test_andi_1 : after 5#5 (vec 0xF0037293#32 [(5#5, 0x55555555#32), (6#5, 0x12345678#32)]) = some (0x12345600#32, 0x00010104#32) := by decide
theorem test_slli_1 : after 5#5 (vec 0x01F31293#32 [(5#5, 0x55555555#32), (6#5, 0x00000003#32)]) = some (0x80000000#32, 0x00010104#32) := by decide
theorem test_slli_2 : after 5#5 (vec 0x02131293#32 [(5#5, 0x55555555#32), (6#5, 0x00000003#32)]) = some (0x00000006#32, 0x00010104#32) := by decide
theorem test_srli_1 : after 5#5 (vec 0x00435293#32 [(5#5, 0x55555555#32), (6#5, 0xF0000000#32)]) = some (0x0F000000#32, 0x00010104#32) := by decide
theorem test_srli_2 : after 5#5 (vec 0x80435293#32 [(5#5, 0x55555555#32), (6#5, 0xF0000000#32)]) = some (0x0F000000#32, 0x00010104#32) := by decide
theorem test_srai_1 : after 5#5 (vec 0x40435293#32 [(5#5, 0x55555555#32), (6#5, 0xF0000000#32)]) = some (0xFF000000#32, 0x00010104#32) := by decide
theorem test_srai_2 : after 5#5 (vec 0x40435293#32 [(5#5, 0x55555555#32), (6#5, 0x70000000#32)]) = some (0x07000000#32, 0x00010104#32) := by decide
theorem test_add_1 : after 5#5 (vec 0x007302B3#32 [(5#5, 0x55555555#32), (6#5, 0xFFFFFFFF#32), (7#5, 0x00000001#32)]) = some (0x00000000#32, 0x00010104#32) := by decide
theorem test_add_2 : after 5#5 (vec 0x005282B3#32 [(5#5, 0x40000000#32)]) = some (0x80000000#32, 0x00010104#32) := by decide
theorem test_sub_1 : after 5#5 (vec 0x407302B3#32 [(5#5, 0x55555555#32), (6#5, 0x0000000A#32), (7#5, 0x00000003#32)]) = some (0x00000007#32, 0x00010104#32) := by decide
theorem test_sub_2 : after 5#5 (vec 0x407302B3#32 [(5#5, 0x55555555#32), (6#5, 0x00000000#32), (7#5, 0x00000001#32)]) = some (0xFFFFFFFF#32, 0x00010104#32) := by decide
theorem test_sll_1 : after 5#5 (vec 0x007312B3#32 [(5#5, 0x55555555#32), (6#5, 0x00000001#32), (7#5, 0x00000021#32)]) = some (0x00000002#32, 0x00010104#32) := by decide
theorem test_slt_1 : after 5#5 (vec 0x007322B3#32 [(5#5, 0x55555555#32), (6#5, 0xFFFFFFFF#32), (7#5, 0x00000001#32)]) = some (0x00000001#32, 0x00010104#32) := by decide
theorem test_slt_2 : after 5#5 (vec 0x007322B3#32 [(5#5, 0x55555555#32), (6#5, 0x7FFFFFFF#32), (7#5, 0x80000000#32)]) = some (0x00000000#32, 0x00010104#32) := by decide
theorem test_sltu_1 : after 5#5 (vec 0x007332B3#32 [(5#5, 0x55555555#32), (6#5, 0xFFFFFFFF#32), (7#5, 0x00000001#32)]) = some (0x00000000#32, 0x00010104#32) := by decide
theorem test_sltu_2 : after 5#5 (vec 0x007032B3#32 [(5#5, 0x55555555#32), (7#5, 0x00000100#32)]) = some (0x00000001#32, 0x00010104#32) := by decide
theorem test_xor_1 : after 5#5 (vec 0x007342B3#32 [(5#5, 0x55555555#32), (6#5, 0xFF00FF00#32), (7#5, 0x0FF00FF0#32)]) = some (0xF0F0F0F0#32, 0x00010104#32) := by decide
theorem test_srl_1 : after 5#5 (vec 0x007352B3#32 [(5#5, 0x55555555#32), (6#5, 0x80000000#32), (7#5, 0x0000001F#32)]) = some (0x00000001#32, 0x00010104#32) := by decide
theorem test_srl_2 : after 5#5 (vec 0x007352B3#32 [(5#5, 0x55555555#32), (6#5, 0x80000000#32), (7#5, 0x00000020#32)]) = some (0x80000000#32, 0x00010104#32) := by decide
theorem test_sra_1 : after 5#5 (vec 0x407352B3#32 [(5#5, 0x55555555#32), (6#5, 0x80000000#32), (7#5, 0xFFFFFFE4#32)]) = some (0xF8000000#32, 0x00010104#32) := by decide
theorem test_or_1 : after 5#5 (vec 0x007362B3#32 [(5#5, 0x55555555#32), (6#5, 0xFF00FF00#32), (7#5, 0x0FF00FF0#32)]) = some (0xFFF0FFF0#32, 0x00010104#32) := by decide
theorem test_and_1 : after 5#5 (vec 0x007372B3#32 [(5#5, 0x55555555#32), (6#5, 0xFF00FF00#32), (7#5, 0x0FF00FF0#32)]) = some (0x0F000F00#32, 0x00010104#32) := by decide
theorem test_fence_1 : after 5#5 (vec 0x0FF0000F#32 [(5#5, 0x55555555#32)]) = some (0x55555555#32, 0x00010104#32) := by decide
theorem test_fence_2 : after 5#5 (vec 0x0FF0028F#32 [(5#5, 0x55555555#32)]) = some (0x00000000#32, 0x00010104#32) := by decide
theorem test_ecall_1 : after 10#5 (vec 0x00000073#32 [(10#5, 0x55555555#32)]) = some (0x55555555#32, 0x00010104#32) := by decide
theorem test_ebreak_1 : after 10#5 (vec 0x00100073#32 [(10#5, 0x55555555#32)]) = some (0x55555555#32, 0x00010104#32) := by decide
theorem test_mul_runs_as_add_1 : after 5#5 (vec 0x027302B3#32 [(5#5, 0x55555555#32), (6#5, 0x00000006#32), (7#5, 0x00000007#32)]) = some (0x0000000D#32, 0x00010104#32) := by decide
theorem test_reserved_branch_1 : after 5#5 (vec 0x0062A863#32 [(5#5, 0x00000007#32), (6#5, 0x00000007#32)]) = some (0x00000007#32, 0x00010104#32) := by decide
theorem test_reserved_load_1 : after 5#5 (vec 0x00037283#32 [(5#5, 0x55555555#32), (6#5, 0x04010000#32)]) = some (0x00000000#32, 0x00010104#32) := by decide
theorem test_reserved_store_1 : after 7#5 (vec 0x00737023#32 [(6#5, 0x04010000#32), (7#5, 0x00000001#32)]) = some (0x00000001#32, 0x00010104#32) := by decide
theorem test_all_ones_1 : after 31#5 (vec 0xFFFFFFFF#32 [(31#5, 0x00000009#32)]) = some (0x00000000#32, 0x00010104#32) := by decide

theorem test_sb_1 : bytesAfter 0x00012000#32 (vec 0x00730023#32 [(6#5, 0x00012000#32), (7#5, 0x12345678#32)])
    = some ([some 0x78#8, some 0x00#8, some 0x00#8, some 0x00#8], 0x00010104#32) := by decide
theorem test_sh_1 : bytesAfter 0x00012000#32 (vec 0x007310A3#32 [(6#5, 0x00012000#32), (7#5, 0x0000BEEF#32)])
    = some ([some 0x00#8, some 0xEF#8, some 0xBE#8, some 0x00#8], 0x00010104#32) := by decide
theorem test_sw_1 : bytesAfter 0x00011FFC#32 (vec 0xFE732E23#32 [(6#5, 0x00012000#32), (7#5, 0xCAFEBABE#32)])
    = some ([some 0xBE#8, some 0xBA#8, some 0xFE#8, some 0xCA#8], 0x00010104#32) := by decide
theorem test_sw_2 : bytesAfter 0x00012000#32 (withM (vec 0x00032023#32 [(6#5, 0x00012000#32)]))
    = some ([some 0x00#8, some 0x00#8, some 0x00#8, some 0x00#8], 0x00010104#32) := by decide

/-- The fault vectors of sections 2.5, 2.6 and 2.10. -/
theorem test_faults :
    faultOf (step (vec 0x00032283#32 [(6#5, 0x0400FFFE#32)])) = some (.outOfBounds .load 0x0400FFFE#32)
    ∧ faultOf (step (vec 0xFFF30283#32 [(6#5, 0x00010000#32)])) = some (.outOfBounds .load 0x0000FFFF#32)
    ∧ faultOf (step (vec 0x00032003#32 [(6#5, 0x04010000#32)])) = some (.outOfBounds .load 0x04010000#32)
    ∧ faultOf (step (vec 0x00732023#32 [(6#5, 0x0400FFFD#32)])) = some (.outOfBounds .store 0x0400FFFD#32)
    ∧ faultOf (step (setPc 0x0400FFFE#32 State.reset)) = some (.outOfBounds .fetch 0x0400FFFE#32)
    ∧ faultOf (step (setPc 0x0000FFFC#32 State.reset)) = some (.outOfBounds .fetch 0x0000FFFC#32)
    ∧ faultOf (step (setPc 0xFFFFFFFE#32 State.reset)) = some (.outOfBounds .fetch 0xFFFFFFFE#32) := by decide

/-- The last fetchable word and an unaligned pc (section 2.10). -/
theorem test_fetch_edges :
    after 5#5 (stateAt 0x0400FFFC#32 0x00100293#32 []) = some (1#32, 0x04010000#32)
    ∧ after 5#5 (stateAt 0x00010002#32 0x00100293#32 []) = some (1#32, 0x00010006#32) := by decide

/-- x0 is not written (S1, R23). -/
theorem test_x0 : after 0#5 (vec 0x00500013#32 []) = some (0#32, 0x00010104#32)
    ∧ after 0#5 (vec 0x40730033#32 [(6#5, 10#32), (7#5, 3#32)]) = some (0#32, 0x00010104#32) := by decide

/-! ### Witnesses -/

/-- A state used below: SW x7, 0(x6) at 0x00010100, x6 = 0x00012000, x7 = 0x12345678. -/
def sw0 : State := vec 0x00732023#32 [(6#5, 0x00012000#32), (7#5, 0x12345678#32)]

/-- The same after the store's step. -/
def sw1 : State := setPc 0x00010104#32 (storeBytes 0x00012000#32 4 0x12345678#32 sw0)

/-- The last bytes of the buffer: x6 = BASE + MEM_SIZE - 1, - 2, - 4 in x6, x7, x8; x9 one past the end. -/
def edge : State :=
  vec 0x00000013#32 [(6#5, 0x0400FFFF#32), (7#5, 0x0400FFFE#32), (8#5, 0x0400FFFC#32), (9#5, 0x04010000#32)]

theorem witness_DecodeOfEncodeIsTheInstruction :
    (Instr.jal 1#5 0x100000#21).wf = true ∧ (Instr.beq 0#5 31#5 0x1000#13).wf = true
    ∧ (Instr.bgeu 31#5 0#5 0x0FFE#13).wf = true ∧ (Instr.lui 5#5 0xFFFFF#20).wf = true := by decide

theorem witness_EncodeOfDecodeIsTheStandardWord :
    (decode 0x407302B3#32 = .instr (.sub 5#5 6#5 7#5) ∧ decodeStatus 0x407302B3#32 = .ok)
    ∧ (decode 0x0FF0028F#32 = .instr (.fence 5#5 0#5 0#4 15#4 15#4) ∧ decodeStatus 0x0FF0028F#32 = .noEffect) := by decide

theorem witness_DecodedInstructionsAreWellFormed : decode 0x80000063#32 = .instr (.beq 0#5 0#5 0x1000#13) := by decide

theorem witness_DecoderAgreesWithTheOpcodeTable :
    decode 0x027302B3#32 = .instr (.add 5#5 6#5 7#5)
    ∧ (⟨"ADD", 0x00000033#32, 0x4000707F#32, 0x00000033#32, 0xFE00707F#32⟩ : OpRow) ∈ opRows
    ∧ OpRow.matchesBlock ⟨"ADD", 0x00000033#32, 0x4000707F#32, 0x00000033#32, 0xFE00707F#32⟩ 0x027302B3#32 = true := by
  decide

theorem witness_IgnoredBitsDoNotChangeDecoding :
    (fieldOpcode 0x007302B3#32 = opOp ∧ fieldFunct3 0x007302B3#32 = 0#3
      ∧ 0x007302B3#32 &&& 0x41FFFFFF#32 = 0xBE7302B3#32 &&& 0x41FFFFFF#32)
    ∧ (fieldOpcode 0x407352B3#32 = opOp ∧ fieldFunct3 0x407352B3#32 = 5#3
      ∧ 0x407352B3#32 &&& 0x41FFFFFF#32 = 0xFE7352B3#32 &&& 0x41FFFFFF#32)
    ∧ (fieldOpcode 0x007342B3#32 = opOp ∧ fieldFunct3 0x007342B3#32 ≠ 0#3 ∧ fieldFunct3 0x007342B3#32 ≠ 5#3
      ∧ 0x007342B3#32 &&& 0x01FFFFFF#32 = 0x407342B3#32 &&& 0x01FFFFFF#32)
    ∧ (fieldOpcode 0x00131293#32 = opOpImm ∧ fieldFunct3 0x00131293#32 = 1#3
      ∧ 0x00131293#32 &&& 0x01FFFFFF#32 = 0x02131293#32 &&& 0x01FFFFFF#32)
    ∧ (fieldOpcode 0x00435293#32 = opOpImm ∧ fieldFunct3 0x00435293#32 = 5#3
      ∧ 0x00435293#32 &&& 0x41FFFFFF#32 = 0x80435293#32 &&& 0x41FFFFFF#32)
    ∧ (fieldOpcode 0x000280E7#32 = opJalr ∧ 0x000280E7#32 &&& 0xFFFF8FFF#32 = 0x000290E7#32 &&& 0xFFFF8FFF#32) := by decide

/-- Both ends of the offset ranges are words of the decoder's vector table. -/
theorem witness_OffsetAndUpperImmediateBits :
    (immB 0x80000063#32).toInt = -4096 ∧ (immB 0x7E000FE3#32).toInt = 4094
    ∧ (immJ 0x800000EF#32).toInt = -1048576 ∧ (immJ 0x7FFFF0EF#32).toInt = 1048574 ∧ 31 < 32 := by decide

theorem witness_SignedTwelveBitImmediateBits :
    (immI 0x80000063#32).toInt = -2048 ∧ (immI 0x7FFFF0EF#32).toInt = 2047
    ∧ (immS 0x7E732FA3#32).toInt = 2047 ∧ (immS 0x80732023#32).toInt = -2048 ∧ 31 < 32 := by decide

theorem witness_ZeroRegisterIsNeverMutated : ∃ t, step (vec 0x00500013#32 []) = .next t := exists_next (by decide)

/-- For a destination, for x0 and for a store. -/
theorem witness_StepWritesOnlyTheResolvedRegister :
    (fetchWord (vec 0x00130293#32 []) = some 0x00130293#32 ∧ ∃ t, step (vec 0x00130293#32 []) = .next t)
    ∧ (6#5 ≠ fieldRd 0x00130293#32 ∧ fieldOpcode 0x00130293#32 ≠ opBranch ∧ fieldOpcode 0x00130293#32 ≠ opStore
      ∧ fieldRd 0x00130293#32 ≠ 0#5) ∧ (fieldRd 0x00500013#32 = 0#5 ∧ ∃ t, step (vec 0x00500013#32 []) = .next t)
    ∧ (fieldOpcode 0x00732023#32 = opStore ∧ fetchWord sw0 = some 0x00732023#32 ∧ ∃ t, step sw0 = .next t) :=
  ⟨⟨by decide, exists_next (by decide)⟩, by decide, ⟨by decide, exists_next (by decide)⟩,
    ⟨by decide, by decide, exists_next (by decide)⟩⟩

theorem witness_AluComputesTheStatedFunctions : 31 < 32 := by decide

theorem witness_BoundsCheckIsTheStatedOne :
    4 ≤ edge.memSize ∧ inBounds edge 0x0400FFFC#32 AccessSize.word.bytes = true
    ∧ inBounds edge 0x0400FFFD#32 AccessSize.word.bytes = false ∧ inBounds edge 0x0000FFFF#32 AccessSize.byte.bytes = false := by
  decide

theorem witness_ReadAssemblesBytesLeastSignificantFirst :
    edge.memSize ≤ 2 ^ 32 ∧ inBounds edge 0x0400FFFE#32 AccessSize.half.bytes = true
    ∧ inBounds edge 0x0400FFFF#32 AccessSize.half.bytes = false ∧ AccessSize.half.bytes ≤ 2 ∧ 1 < AccessSize.half.bytes := by
  decide

theorem witness_WriteStoresBytesAndReadsBack :
    edge.mem.wf = true ∧ edge.memSize ≤ 2 ^ 32 ∧ inBounds edge 0x0400FFFC#32 AccessSize.word.bytes = true
    ∧ inBounds edge 0x0400FFFD#32 AccessSize.word.bytes = false := by decide

theorem witness_StoreThenLoadReturnsTheStoredValue :
    sw0.mem.wf = true ∧ sw0.memSize ≤ 2 ^ 32 ∧ (5#5 : RegIdx) ≠ 0#5
    ∧ (∃ t, exec (.sb 7#5 6#5 0#12) edge = .next t) ∧ (∃ t, exec (.sh 7#5 7#5 0#12) edge = .next t)
    ∧ (∃ t, exec (.sw 7#5 8#5 0#12) edge = .next t) ∧ (∃ t, exec (.sw 7#5 6#5 0#12) sw0 = .next t) :=
  ⟨by decide, by decide, by decide, exists_next (by decide), exists_next (by decide), exists_next (by decide),
    exists_next (by decide)⟩

theorem witness_WordStoreReadsBackAsBytes :
    sw0.mem.wf = true ∧ sw0.memSize ≤ 2 ^ 32 ∧ (5#5 : RegIdx) ≠ 0#5 ∧ exec (.sw 7#5 6#5 0#12) sw0 = .next sw1
    ∧ 3 < 4 ∧ effectiveAddress 6#5 3#12 sw1 = effectiveAddress 6#5 0#12 sw0 + BitVec.ofNat 32 3
    ∧ effectiveAddress 6#5 1#12 sw1 = effectiveAddress 6#5 0#12 sw0 + 1#32 :=
  ⟨by decide, by decide, by decide, rfl, by decide, by decide, by decide⟩

theorem witness_FetchReadsFourBytesAtThePc :
    edge.memSize ≤ 2 ^ 32
    ∧ inBounds (setPc 0x0400FFFC#32 edge) (setPc 0x0400FFFC#32 edge).pc 4 = true
    ∧ inBounds (setPc 0x0400FFFD#32 edge) (setPc 0x0400FFFD#32 edge).pc 4 = false := by decide

theorem witness_StepRunsTheDecodedInstruction :
    sw0.memSize ≤ 2 ^ 32 ∧ inBounds sw0 sw0.pc 4 = true ∧ byteAt sw0 sw0.pc = some 0x23#8
    ∧ byteAt sw0 (sw0.pc + 1#32) = some 0x20#8 ∧ byteAt sw0 (sw0.pc + 2#32) = some 0x73#8
    ∧ byteAt sw0 (sw0.pc + 3#32) = some 0x00#8
    ∧ decodeBytes 0x23#8 0x20#8 0x73#8 0x00#8 = .instr (.sw 7#5 6#5 0#12)
    ∧ decodeBytes 0x8B#8 0x02#8 0x00#8 0x00#8 = .unlisted (.otherOpcode 5#5) := by decide

/-- A state for the second clause of the same statement: custom-0 at the pc. -/
theorem witness_StepRunsTheDecodedInstruction_unlisted :
    inBounds (vec 0x0000028B#32 []) (vec 0x0000028B#32 []).pc 4 = true
    ∧ byteAt (vec 0x0000028B#32 []) (vec 0x0000028B#32 []).pc = some 0x8B#8
    ∧ byteAt (vec 0x0000028B#32 []) ((vec 0x0000028B#32 []).pc + 1#32) = some 0x02#8
    ∧ byteAt (vec 0x0000028B#32 []) ((vec 0x0000028B#32 []).pc + 2#32) = some 0x00#8
    ∧ byteAt (vec 0x0000028B#32 []) ((vec 0x0000028B#32 []).pc + 3#32) = some 0x00#8 := by decide

/-- Each of the three causes happens. -/
theorem witness_StepFaultsExactlyOnOutOfBoundsAccess :
    fetchWord (setPc 0x0400FFFD#32 edge) = none
    ∧ (fetchWord (vec 0x00032283#32 [(6#5, 0x0400FFFE#32)]) = some 0x00032283#32
      ∧ fieldOpcode 0x00032283#32 = opLoad ∧ loadSize (fieldFunct3 0x00032283#32) = some .word
      ∧ inBounds (vec 0x00032283#32 [(6#5, 0x0400FFFE#32)]) (0x0400FFFE#32 + immI 0x00032283#32) 4 = false)
    ∧ (fieldOpcode 0xFE730FA3#32 = opStore ∧ storeSize (fieldFunct3 0xFE730FA3#32) = some .byte
      ∧ inBounds (vec 0xFE730FA3#32 [(6#5, 0x00010000#32)]) (0x00010000#32 + immS 0xFE730FA3#32) 1 = false) := by decide

theorem witness_NextPcIsTheStatedOne :
    fieldOpcode 0x00628863#32 = opBranch ∧ branchTaken (fieldFunct3 0x00628863#32) 7#32 7#32 = true
    ∧ fetchWord (vec 0x00628863#32 [(5#5, 7#32), (6#5, 7#32)]) = some 0x00628863#32
    ∧ (∃ t, step (vec 0x00628863#32 [(5#5, 7#32), (6#5, 7#32)]) = .next t)
    ∧ fieldOpcode 0x008000EF#32 = opJal ∧ (∃ t, step (vec 0x008000EF#32 []) = .next t)
    ∧ fieldOpcode 0x003280E7#32 = opJalr ∧ (∃ t, step (vec 0x003280E7#32 []) = .next t) :=
  ⟨by decide, by decide, by decide, exists_next (by decide), by decide, exists_next (by decide), by decide,
    exists_next (by decide)⟩

theorem witness_StepKeepsBaseAndSize : ∃ t, step sw0 = .next t := exists_next (by decide)

theorem witness_OnlyStoresChangeMemory :
    (fetchWord edge = some 0x00000013#32 ∧ (∃ t, step edge = .next t) ∧ fieldOpcode 0x00000013#32 ≠ opStore)
    ∧ (fetchWord (vec 0x00733023#32 []) = some 0x00733023#32 ∧ (∃ t, step (vec 0x00733023#32 []) = .next t)
      ∧ storeSize (fieldFunct3 0x00733023#32) = none) :=
  ⟨⟨by decide, exists_next (by decide), by decide⟩, ⟨by decide, exists_next (by decide), by decide⟩⟩

/-- A register that ADD x5, x6, x7 does not read, its destination, and a faulting load. -/
theorem witness_UnreadRegistersDoNotMatter :
    (fetchWord (vec 0x007302B3#32 []) = some 0x007302B3#32
      ∧ (readsRs1 0x007302B3#32 = true ∧ fieldRs1 0x007302B3#32 ≠ 8#5)
      ∧ (readsRs2 0x007302B3#32 = true ∧ fieldRs2 0x007302B3#32 ≠ 8#5)
      ∧ (∃ t, step (vec 0x007302B3#32 []) = .next t) ∧ resolvedRd 0x007302B3#32 ≠ 8#5)
    ∧ (resolvedRd 0x007302B3#32 = 5#5 ∧ fieldRs1 0x007302B3#32 ≠ 5#5 ∧ fieldRs2 0x007302B3#32 ≠ 5#5)
    ∧ (fetchWord (vec 0x00032283#32 [(6#5, 0x04010000#32)]) = some 0x00032283#32 ∧ fieldRs1 0x00032283#32 ≠ 8#5
      ∧ readsRs2 0x00032283#32 = false
      ∧ faultOf (step (vec 0x00032283#32 [(6#5, 0x04010000#32)])) = some (.outOfBounds .load 0x04010000#32)) :=
  ⟨⟨by decide, by decide, by decide, exists_next (by decide), by decide⟩, by decide, by decide⟩

theorem witness_FetchSeesAnEarlierStore : sw0.mem.wf = true ∧ exec (.sw 7#5 6#5 0#12) sw0 = .next sw1 :=
  ⟨by decide, rfl⟩

theorem witness_StepKeepsTheInvariant : Machine.Inv sw0 ∧ ∃ t, step sw0 = .next t :=
  ⟨⟨by decide, by decide, by decide, by decide, by decide⟩, exists_next (by decide)⟩

/-- Program P7's launch (spec/95_test_vectors.md section 4), over a buffer whose rest is not zero, without and with arguments. -/
def launchP7 : Launch where
  base := 0x00010000#32
  memSize := 0x04000000
  content := [(9, 0xAA#8), (0x03FFFFFF, 0x55#8)]
  image := [0x13#8, 0x05#8, 0x50#8, 0x00#8, 0x67#8, 0x00#8, 0x00#8, 0x00#8]
  args := none

def launchArgs : Launch :=
  { launchP7 with
    args := some ⟨2#5, 0x0400FFF8#32, 10#5, 11#5, 0x0400FFF8#32, [(0x0400FFF8#32, 7#32), (0x0400FFFC#32, 9#32)]⟩ }

/-- The report before the first step of program P7 with two arguments: the word at BASE, and the stack region's bytes as the
marshaler wrote them (the last byte of the content is overwritten by the zero byte of the word 9). -/
theorem test_report :
    (report launchArgs.state).pc = 0x00010000#32 ∧ (report launchArgs.state).word = some 0x00500513#32
    ∧ (report launchArgs.state).stack = [(0x03FFFFF8, 0x07#8), (0x03FFFFFC, 0x09#8)] := by decide

/-- The model's rounding for an odd MEM_SIZE (log 14). -/
theorem test_textSize : textSize 0x04000000 = 0x02000000 ∧ textSize 5 = 2 := by decide

theorem witness_LaunchStatesSatisfyTheInvariant : launchP7.ok 8 = true ∧ launchArgs.ok 2 = true := by decide

theorem witness_LaunchStateHoldsTheImage :
    launchArgs.ok 2 = true ∧ 7 < launchArgs.image.length ∧ launchP7.args = none ∧ (2#5 : RegIdx) ≠ 0#5 ∧ (10#5 : RegIdx) ≠ 0#5
    ∧ (11#5 : RegIdx) ≠ 0#5 ∧ (2#5 : RegIdx) ≠ 10#5 ∧ (2#5 : RegIdx) ≠ 11#5 ∧ (10#5 : RegIdx) ≠ 11#5 := by decide

/-- How a run stands. -/
def kindOf : RunStatus → Nat
  | .halted _ => 0
  | .faulted _ _ => 1
  | .refused _ _ => 2
  | .running _ => 3

theorem exists_halted {r : RunStatus} (h : kindOf r = 0) : ∃ t, r = .halted t := by
  cases r with
  | halted t => exact ⟨t, rfl⟩
  | faulted t f => cases h
  | refused t q => cases h
  | running t => cases h

theorem exists_faulted {r : RunStatus} (h : kindOf r = 1) : ∃ t f, r = .faulted t f := by
  cases r with
  | halted t => cases h
  | faulted t f => exact ⟨t, f, rfl⟩
  | refused t q => cases h
  | running t => cases h

theorem exists_running {r : RunStatus} (h : kindOf r = 3) : ∃ t, r = .running t := by
  cases r with
  | halted t => cases h
  | faulted t f => cases h
  | refused t q => cases h
  | running t => exact ⟨t, rfl⟩

theorem witness_DriverStopsAtZeroPcOrFirstFault :
    (∃ t, drive 1 (vec 0x00000067#32 []) = .halted t)
    ∧ (∃ t f, drive 1 (vec 0x00032283#32 [(6#5, 0x04010000#32)]) = .faulted t f)
    ∧ (∃ t, drive 1 sw0 = .running t) :=
  ⟨exists_halted (by decide), exists_faulted (by decide), exists_running (by decide)⟩

theorem witness_FaultedAndHaltedRunsStayAsTheyAre :
    1 ≤ 2 ∧ (∃ t f, drive 1 (vec 0x00032283#32 [(6#5, 0x04010000#32)]) = .faulted t f)
    ∧ (∃ t, drive 1 (vec 0x00000067#32 []) = .halted t) :=
  ⟨by decide, exists_faulted (by decide), exists_halted (by decide)⟩

/-- An in-bounds load, an out-of-bounds load and a store make a request, each with its width; a fetch out of bounds makes none. -/
theorem witness_OutputPortsReportTheStep :
    fetchWord (vec 0x00035283#32 [(6#5, 0x0400FFFE#32)]) = some 0x00035283#32 ∧ fieldOpcode 0x00035283#32 = opLoad
    ∧ (outputs (vec 0x00035283#32 [(6#5, 0x0400FFFE#32)])).data.map (fun d => (d.we, d.size, d.oob)) = some (false, .half, false)
    ∧ (outputs (vec 0x00035283#32 [(6#5, 0x0400FFFF#32)])).data.map (fun d => (d.we, d.size, d.oob)) = some (false, .half, true)
    ∧ fieldOpcode 0x00732023#32 = opStore
    ∧ (outputs sw0).data.map (fun d => (d.we, d.size, d.oob)) = some (true, .word, false)
    ∧ fetchWord (setPc 0x0400FFFD#32 edge) = none := by decide

theorem witness_LuiLoadsTheUpperImmediate : 0xFFFFF2B7#32 &&& 0x0000007F#32 = 0x00000037#32 := by decide
theorem witness_AuipcAddsTheUpperImmediateToThePc : 0xFFF00297#32 &&& 0x0000007F#32 = 0x00000017#32 := by decide
theorem witness_JalLinksAndJumpsRelative : 0x800000EF#32 &&& 0x0000007F#32 = 0x0000006F#32 := by decide
theorem witness_JalrLinksAndJumpsToRegister : 0x000290E7#32 &&& 0x0000007F#32 = 0x00000067#32 := by decide

theorem witness_JalThenJalrReturnsAfterTheCall :
    pcEven State.reset = true ∧ (1#5 : RegIdx) ≠ 0#5 ∧ ∃ t, exec (.jal 1#5 8#21) State.reset = .next t :=
  ⟨by decide, by decide, exists_next (by decide)⟩

theorem witness_BranchesCompareAndJump :
    0x00628863#32 &&& 0x0000707F#32 = 0x00000063#32 ∧ 0x00629863#32 &&& 0x0000707F#32 = 0x00001063#32
    ∧ 0x0062C863#32 &&& 0x0000707F#32 = 0x00004063#32 ∧ 0x0062D863#32 &&& 0x0000707F#32 = 0x00005063#32
    ∧ 0x0062E863#32 &&& 0x0000707F#32 = 0x00006063#32 ∧ 0x0062F863#32 &&& 0x0000707F#32 = 0x00007063#32 := by decide

/-- A branch whose operands are out-of-bounds addresses. -/
theorem witness_BranchesNeverAccessMemory :
    fetchWord (vec 0x00628863#32 [(5#5, 0x04010000#32), (6#5, 0x04010000#32)]) = some 0x00628863#32
    ∧ fieldOpcode 0x00628863#32 = opBranch := by decide

theorem witness_ReservedBranchesAreNeverTaken :
    fetchWord (vec 0x0062A863#32 []) = some 0x0062A863#32 ∧ fieldOpcode 0x0062A863#32 = opBranch
    ∧ fieldFunct3 0x0062A863#32 = 2#3 ∧ fieldOpcode 0x0062B863#32 = opBranch ∧ fieldFunct3 0x0062B863#32 = 3#3 := by decide

theorem witness_LoadsReadAndExtend :
    (0x00030283#32 &&& 0x0000707F#32 = 0x00000003#32 ∧ 0x00031283#32 &&& 0x0000707F#32 = 0x00001003#32
      ∧ 0x00032283#32 &&& 0x0000707F#32 = 0x00002003#32 ∧ 0x00034283#32 &&& 0x0000707F#32 = 0x00004003#32
      ∧ 0x00035283#32 &&& 0x0000707F#32 = 0x00005003#32)
    ∧ edge.memSize ≤ 2 ^ 32 ∧ 0x0400FFFF#32 = readReg 6#5 edge + (0#12 : BitVec 12).signExtend 32
    ∧ inBounds edge 0x0400FFFF#32 1 = true ∧ inBounds edge 0x0400FFFE#32 2 = true ∧ inBounds edge 0x0400FFFC#32 4 = true
    ∧ inBounds edge 0x04010000#32 1 = false ∧ inBounds edge 0x0400FFFF#32 2 = false
    ∧ inBounds edge 0x0400FFFD#32 4 = false := by decide

theorem witness_ReservedLoadsWriteZero :
    fetchWord (vec 0x00037283#32 [(6#5, 0x04010000#32)]) = some 0x00037283#32 ∧ fieldOpcode 0x00037283#32 = opLoad
    ∧ fieldFunct3 0x00037283#32 = 7#3 ∧ fieldFunct3 0x00033283#32 = 3#3 ∧ fieldFunct3 0x00036283#32 = 6#3 := by decide

theorem witness_StoresWriteTheLowBytes :
    (0x00730023#32 &&& 0x0000707F#32 = 0x00000023#32 ∧ 0x00731023#32 &&& 0x0000707F#32 = 0x00001023#32
      ∧ 0x00732023#32 &&& 0x0000707F#32 = 0x00002023#32)
    ∧ edge.mem.wf = true ∧ edge.memSize ≤ 2 ^ 32
    ∧ 0x0400FFFF#32 = readReg 6#5 edge + (0#12 : BitVec 12).signExtend 32
    ∧ inBounds edge 0x0400FFFF#32 1 = true ∧ inBounds edge 0x0400FFFE#32 2 = true ∧ inBounds edge 0x0400FFFC#32 4 = true
    ∧ inBounds edge 0x04010000#32 1 = false ∧ inBounds edge 0x0400FFFF#32 2 = false
    ∧ inBounds edge 0x0400FFFD#32 4 = false := by decide

theorem witness_ReservedStoresOnlyAdvance :
    fetchWord (vec 0x00737023#32 [(6#5, 0x04010000#32)]) = some 0x00737023#32 ∧ fieldOpcode 0x00737023#32 = opStore
    ∧ fieldFunct3 0x00737023#32 ≠ 0#3 ∧ fieldFunct3 0x00737023#32 ≠ 1#3 ∧ fieldFunct3 0x00737023#32 ≠ 2#3 := by decide

theorem witness_ImmediateOperationsCompute :
    (0x00130293#32 &&& 0x0000707F#32 = 0x00000013#32 ∧ 0xFFF32293#32 &&& 0x0000707F#32 = 0x00002013#32
      ∧ 0xFFF33293#32 &&& 0x0000707F#32 = 0x00003013#32 ∧ 0xFFF34293#32 &&& 0x0000707F#32 = 0x00004013#32
      ∧ 0x80036293#32 &&& 0x0000707F#32 = 0x00006013#32 ∧ 0xF0037293#32 &&& 0x0000707F#32 = 0x00007013#32)
    ∧ 0xFFFFF800#32 = (0x800#12 : BitVec 12).signExtend 32 := by decide

theorem witness_ImmediateShiftsCompute :
    0x02131293#32 &&& 0x0000707F#32 = 0x00001013#32 ∧ 0x80435293#32 &&& 0x4000707F#32 = 0x00005013#32
    ∧ 0xC0435293#32 &&& 0x4000707F#32 = 0x40005013#32 := by decide

theorem witness_RegisterOperationsCompute :
    (0x027302B3#32 &&& 0x4000707F#32 = 0x00000033#32 ∧ 0x427302B3#32 &&& 0x4000707F#32 = 0x40000033#32
      ∧ 0x007322B3#32 &&& 0x0000707F#32 = 0x00002033#32 ∧ 0x007332B3#32 &&& 0x0000707F#32 = 0x00003033#32
      ∧ 0x407342B3#32 &&& 0x0000707F#32 = 0x00004033#32 ∧ 0x407362B3#32 &&& 0x0000707F#32 = 0x00006033#32
      ∧ 0x007372B3#32 &&& 0x0000707F#32 = 0x00007033#32)
    ∧ 0x00012000#32 = readReg 6#5 sw0 ∧ 0x12345678#32 = readReg 7#5 sw0 := by decide

theorem witness_RegisterShiftsCompute :
    (0x007312B3#32 &&& 0x0000707F#32 = 0x00001033#32 ∧ 0x027352B3#32 &&& 0x4000707F#32 = 0x00005033#32
      ∧ 0x407352B3#32 &&& 0x4000707F#32 = 0x40005033#32)
    ∧ 0 = (readReg 7#5 (vec 0x007352B3#32 [(7#5, 32#32)])).toNat % 32 := by decide

theorem witness_IntegerWordsRunTheSelectedOperation :
    (fetchWord (vec 0xC0435293#32 []) = some 0xC0435293#32 ∧ fieldOpcode 0xC0435293#32 = opOpImm)
    ∧ (fetchWord (vec 0x027352B3#32 []) = some 0x027352B3#32 ∧ fieldOpcode 0x027352B3#32 = opOp) := by decide

theorem witness_FenceEcallEbreakOnlyAdvance : 0x0FF0028F#32 &&& 0x0000707F#32 = 0x0000000F#32 := by decide

theorem witness_UnrecognizedWordsZeroRdAndAdvance :
    fetchWord (vec 0xC00022F3#32 []) = some 0xC00022F3#32
    ∧ (0xC00022F3#32 : Word).extractLsb' 0 7 ∉ [0b0110111#7, 0b0010111#7, 0b1101111#7, 0b1100111#7, 0b1100011#7, 0b0000011#7,
      0b0100011#7, 0b0010011#7, 0b0110011#7] := by decide

theorem witness_AllZeroAndAllOneWords :
    fetchWord State.reset = some 0x00000000#32 ∧ fetchWord (vec 0xFFFFFFFF#32 []) = some 0xFFFFFFFF#32 := by decide

/-- The last pc of the text region and the first of the stack region; the first and last byte of the stack region. -/
theorem witness_ReportShowsTheState :
    translate (setPc 0x0200FFFF#32 edge) (setPc 0x0200FFFF#32 edge).pc < (setPc 0x0200FFFF#32 edge).memSize / 2
    ∧ (setPc 0x02010000#32 edge).memSize / 2 ≤ translate (setPc 0x02010000#32 edge) (setPc 0x02010000#32 edge).pc
    ∧ (1#5 : RegIdx) ≠ 0#5
    ∧ (edge.memSize / 2 ≤ translate edge 0x02010000#32 ∧ inBounds edge 0x02010000#32 1 = true)
    ∧ (edge.memSize / 2 ≤ translate edge 0x0400FFFF#32 ∧ inBounds edge 0x0400FFFF#32 1 = true)
    ∧ (0x03FFFFF8, 0x07#8) ∈ (report launchArgs.state).stack ∧ edge.mem.wf = true := by decide

/-- A run whose step 0 completes and whose step 1 faults (out of the buffer): two reports. -/
theorem witness_ReporterFollowsEachStepAndChangesNothing :
    1 < (driveReporting 3 (vec 0x000280E7#32 [(5#5, 0x04010000#32)])).1.length
    ∧ (∃ t, Host.Core.run core 0 (vec 0x000280E7#32 [(5#5, 0x04010000#32)]) = .next t ∧ t.pc ≠ 0#32)
    ∧ (∃ t, Host.Core.run core 1 (vec 0x000280E7#32 [(5#5, 0x04010000#32)]) = .next t ∧ t.pc ≠ 0#32) :=
  ⟨by decide, ⟨_, rfl, by decide⟩, ⟨_, rfl, by decide⟩⟩

end Sys2Proof.Tests
end

/-! SUPPORT. What the decoded instruction of a word does, by opcode and over the word's fields, and from it that a step by
instructions is the step of the datapath (R90 to R101): a completed step commits `commitWord`. -/

namespace Sys2Proof.Machine

/-! ### The effect of a word, by opcode -/

/-- The two readings of an immediate shift's amount agree: the I-immediate and bits 24:20 (R68). -/
theorem shiftAmount_immI (w : Word) : shiftAmount (immI w) = (fieldRs2 w).toNat := by
  apply congrArg BitVec.toNat
  ext i hi
  simp only [immI, sext12, fieldImmI, fieldRs2, BitVec.getElem_extractLsb', BitVec.getLsbD_signExtend,
    BitVec.getLsbD_extractLsb']
  grind

theorem execDecoded_opImm {w : Word} (h : fieldOpcode w = opOpImm) (s : State) :
    execDecoded (decode w) s = writeBack (fieldRd w)
      (alu (aluSelect false (fieldFunct3 w) (fieldBit30 w)) (readReg (fieldRs1 w) s) (immI w)) s := by
  have himm : immOperand (fieldImmI w) = immI w := rfl
  rw [decode_opImm h]
  cases hb : fieldBit30 w <;>
    rcases funct3_cases (fieldFunct3 w) with hf | hf | hf | hf | hf | hf | hf | hf <;>
    simp [decodeOpImm, aluSelect, hf, hb, execDecoded, exec, execAddi, execSlli, execSlti, execSltiu, execXori, execSrli,
      execSrai, execOri, execAndi, regOperand, himm, alu, shiftAmount_immI]

theorem execDecoded_op {w : Word} (h : fieldOpcode w = opOp) (s : State) :
    execDecoded (decode w) s = writeBack (fieldRd w)
      (alu (aluSelect true (fieldFunct3 w) (fieldBit30 w)) (readReg (fieldRs1 w) s) (readReg (fieldRs2 w) s)) s := by
  rw [decode_op h]
  cases hb : fieldBit30 w <;>
    rcases funct3_cases (fieldFunct3 w) with hf | hf | hf | hf | hf | hf | hf | hf <;>
    simp only [decodeOp, aluSelect, hf, hb] <;> rfl

theorem execDecoded_branch {w : Word} (h : fieldOpcode w = opBranch) (s : State) :
    execDecoded (decode w) s
      = branchTo (branchTaken (fieldFunct3 w) (readReg (fieldRs1 w) s) (readReg (fieldRs2 w) s)) (s.pc + immB w) s := by
  rw [decode_branch h]
  rcases funct3_cases (fieldFunct3 w) with hf | hf | hf | hf | hf | hf | hf | hf <;>
    simp only [decodeBranch, branchTaken, hf] <;> rfl

theorem execDecoded_load {w : Word} (h : fieldOpcode w = opLoad) {size : AccessSize}
    (hs : loadSize (fieldFunct3 w) = some size) (s : State) :
    execDecoded (decode w) s
      = loadTo size (loadExtend (fieldFunct3 w)) (fieldRd w) (readReg (fieldRs1 w) s + immI w) s := by
  rw [decode_load h]
  rcases funct3_cases (fieldFunct3 w) with hf | hf | hf | hf | hf | hf | hf | hf <;>
    simp only [loadSize, hf] at hs <;> cases hs <;> simp only [decodeLoad, hf] <;> rfl

theorem execDecoded_reservedLoad {w : Word} (h : fieldOpcode w = opLoad) (hs : loadSize (fieldFunct3 w) = none)
    (s : State) : execDecoded (decode w) s = writeBack (fieldRd w) 0#32 s := by
  rw [decode_load h]
  rcases funct3_cases (fieldFunct3 w) with hf | hf | hf | hf | hf | hf | hf | hf <;>
    simp only [loadSize, hf] at hs <;> cases hs <;> simp only [decodeLoad, hf] <;> rfl

theorem execDecoded_store {w : Word} (h : fieldOpcode w = opStore) {size : AccessSize}
    (hs : storeSize (fieldFunct3 w) = some size) (s : State) :
    execDecoded (decode w) s = storeFrom size (readReg (fieldRs1 w) s + immS w) (readReg (fieldRs2 w) s) s := by
  rw [decode_store h]
  rcases funct3_cases (fieldFunct3 w) with hf | hf | hf | hf | hf | hf | hf | hf <;>
    simp only [storeSize, hf] at hs <;> cases hs <;> simp only [decodeStore, hf] <;> rfl

theorem execDecoded_reservedStore {w : Word} (h : fieldOpcode w = opStore) (hs : storeSize (fieldFunct3 w) = none)
    (s : State) : execDecoded (decode w) s = advance s := by
  rw [decode_store h]
  rcases funct3_cases (fieldFunct3 w) with hf | hf | hf | hf | hf | hf | hf | hf <;>
    simp only [storeSize, hf] at hs <;> cases hs <;> simp only [decodeStore, hf] <;> rfl

theorem execDecoded_other {w : Word} (h : fieldOpcode w ∉ recognizedOpcodes) (s : State) :
    execDecoded (decode w) s = writeBack (fieldRd w) 0#32 s := by
  rw [decode_other h]
  unfold decodeOther
  split
  · rfl
  · split
    · next hw => rw [hw]; rfl
    · split
      · next hw => rw [hw]; rfl
      · rfl

/-! ### The datapath's selections, by what a word asks of memory -/

theorem datapathStep_of_noData {s : State} {w : Word} (hw : fetchWord s = some w) (hd : (controlOf w).data = none) :
    datapathStep s = .next (commitWord w s) := by
  simp only [datapathStep, hw, hd]

theorem datapathStep_of_data {s : State} {w : Word} (hw : fetchWord s = some w) {d : DataControl}
    (hd : (controlOf w).data = some d) :
    datapathStep s = if inBounds s (aluOutput w s) d.size.bytes then .next (commitWord w s)
      else raiseOutOfBounds (if d.we then .store else .load) (aluOutput w s) := by
  simp only [datapathStep, hw, hd]

/-- A word without a data access commits its write-back and its next pc, and leaves memory alone (R103). -/
theorem commitWord_of_noData {w : Word} (hd : (controlOf w).data = none) (s : State) :
    commitWord w s = commit (resolvedRd w) (resultValue w s) (nextPcValue w s) s := by
  simp only [commitWord, hd]; rfl

theorem commitWord_of_load {w : Word} {size : AccessSize} (hd : (controlOf w).data = some ⟨false, size⟩) (s : State) :
    commitWord w s = commit (resolvedRd w) (resultValue w s) (nextPcValue w s) s := by
  simp only [commitWord, hd]; rfl

theorem commitWord_of_store {w : Word} {size : AccessSize} (hd : (controlOf w).data = some ⟨true, size⟩) (s : State) :
    commitWord w s = commit (resolvedRd w) (resultValue w s) (nextPcValue w s)
      (storeBytes (aluOutput w s) size.bytes (readReg (fieldRs2 w) s) s) := by
  simp only [commitWord, hd]; rfl

/-- A word that asks nothing of memory and whose effect is one commit of the datapath's values: both steps agree. -/
theorem step_eq_datapathStep_of_noData {s : State} {w : Word} (hw : fetchWord s = some w)
    (hd : (controlOf w).data = none)
    (he : execDecoded (decode w) s = .next (commit (resolvedRd w) (resultValue w s) (nextPcValue w s) s)) :
    step s = datapathStep s := by
  rw [step_of_fetchWord hw, he, datapathStep_of_noData hw hd, commitWord_of_noData hd]

theorem step_eq_datapathStep_of_load {s : State} {w : Word} (hw : fetchWord s = some w) (h : fieldOpcode w = opLoad)
    {size : AccessSize} (hs : loadSize (fieldFunct3 w) = some size) : step s = datapathStep s := by
  have hc := control_load h hs
  have hd : (controlOf w).data = some ⟨false, size⟩ := by rw [hc]
  rw [step_of_fetchWord hw, execDecoded_load h hs, datapathStep_of_data hw hd, commitWord_of_load hd]
  simp only [resolvedRd, resultValue, nextPcValue, aluOutput, hc]
  rfl

theorem step_eq_datapathStep_of_store {s : State} {w : Word} (hw : fetchWord s = some w) (h : fieldOpcode w = opStore)
    {size : AccessSize} (hs : storeSize (fieldFunct3 w) = some size) : step s = datapathStep s := by
  have hc : controlOf w = ⟨some .add, .rs1, .immS, false, .none, .pcPlus4, some ⟨true, size⟩⟩ := by
    rw [control_store h, hs]; rfl
  have hd : (controlOf w).data = some ⟨true, size⟩ := by rw [hc]
  rw [step_of_fetchWord hw, execDecoded_store h hs, datapathStep_of_data hw hd, commitWord_of_store hd]
  simp only [resolvedRd, resultValue, nextPcValue, aluOutput, hc]
  rfl

/-- The step by instructions is the step of the datapath (R92): by opcode, what the decoded instruction does is the commit of
what the decoder selects. -/
theorem step_eq_datapathStep (s : State) : step s = datapathStep s := by
  cases hw : fetchWord s with
  | none => simp only [step, datapathStep, hw]
  | some w =>
    have ofControl := step_eq_datapathStep_of_noData hw
    simp only [resolvedRd, resultValue, nextPcValue, aluOutput] at ofControl
    rcases opcode_cases w with h | h | h | h | h | h | h | h | h | h
    · exact ofControl (by rw [control_lui h]) (by rw [decode_lui h, control_lui h]; rfl)
    · exact ofControl (by rw [control_auipc h]) (by rw [decode_auipc h, control_auipc h]; rfl)
    · exact ofControl (by rw [control_jal h]) (by rw [decode_jal h, control_jal h]; rfl)
    · exact ofControl (by rw [control_jalr h]) (by rw [decode_jalr h, control_jalr h]; rfl)
    · exact ofControl (by rw [control_branch h]) (by rw [execDecoded_branch h, control_branch h]; rfl)
    · cases hs : loadSize (fieldFunct3 w) with
      | none =>
        exact ofControl (by rw [control_reservedLoad h hs]; rfl)
          (by rw [execDecoded_reservedLoad h hs, control_reservedLoad h hs]; rfl)
      | some size => exact step_eq_datapathStep_of_load hw h hs
    · cases hs : storeSize (fieldFunct3 w) with
      | none =>
        exact ofControl (by rw [control_store h, hs]; rfl) (by rw [execDecoded_reservedStore h hs, control_store h]; rfl)
      | some size => exact step_eq_datapathStep_of_store hw h hs
    · exact ofControl (by rw [control_opImm h]) (by rw [execDecoded_opImm h, control_opImm h]; rfl)
    · exact ofControl (by rw [control_op h]) (by rw [execDecoded_op h, control_op h]; rfl)
    · exact ofControl (by rw [control_other h]; rfl) (by rw [execDecoded_other h, control_other h]; rfl)

end Sys2Proof.Machine

/-! SUPPORT. What a step of a fetched word can do, and the commit of a word field by field; that the commit keeps the
invariant. Proofs about completed steps cite these and never unfold `commitWord`. -/

namespace Sys2Proof.Machine

/-! ### What a step of a fetched word can do -/

/-- The words with a data access, and its width (R57): LOAD and STORE where funct3 has a row. -/
theorem control_data_eq_some_iff (w : Word) (d : DataControl) :
    (controlOf w).data = some d ↔
      (fieldOpcode w = opLoad ∧ d.we = false ∧ loadSize (fieldFunct3 w) = some d.size)
      ∨ (fieldOpcode w = opStore ∧ d.we = true ∧ storeSize (fieldFunct3 w) = some d.size) := by
  obtain ⟨we, size⟩ := d
  rcases opcode_cases w with h | h | h | h | h | h | h | h | h | h
  · simp [control_lui h, h, opLui, opLoad, opStore]
  · simp [control_auipc h, h, opAuipc, opLoad, opStore]
  · simp [control_jal h, h, opJal, opLoad, opStore]
  · simp [control_jalr h, h, opJalr, opLoad, opStore]
  · simp [control_branch h, h, opBranch, opLoad, opStore]
  · cases hs : loadSize (fieldFunct3 w) with
    | none => simp [control_reservedLoad h hs, controlZero, h, opLoad, opStore]
    | some size' => simp [control_load h hs, h, opLoad, opStore, eq_comm]
  · cases hs : storeSize (fieldFunct3 w) <;> simp [control_store h, hs, h, opLoad, opStore, eq_comm]
  · simp [control_opImm h, h, opOpImm, opLoad, opStore]
  · simp [control_op h, h, opOp, opLoad, opStore]
  · have hn := h
    simp only [recognizedOpcodes, List.mem_cons, not_or] at hn
    simp [control_other h, controlZero, hn]

/-- The data access a word asks for, if any, is in bounds. -/
def accessInBounds (w : Word) (s : State) : Prop :=
  ∀ d, (controlOf w).data = some d → inBounds s (aluOutput w s) d.size.bytes = true

theorem step_of_accessInBounds {s : State} {w : Word} (hw : fetchWord s = some w) (hb : accessInBounds w s) :
    step s = .next (commitWord w s) := by
  rw [step_eq_datapathStep]
  cases hd : (controlOf w).data with
  | none => exact datapathStep_of_noData hw hd
  | some d => rw [datapathStep_of_data hw hd, if_pos (hb d hd)]

theorem step_of_access_outOfBounds {s : State} {w : Word} (hw : fetchWord s = some w) {d : DataControl}
    (hd : (controlOf w).data = some d) (hb : inBounds s (aluOutput w s) d.size.bytes = false) :
    step s = .fault (.outOfBounds (if d.we then .store else .load) (aluOutput w s)) := by
  rw [step_eq_datapathStep, datapathStep_of_data hw hd, hb]; rfl

/-- Everything a step of a fetched word can do: it commits the word, or the word's data access faults. -/
theorem step_cases_of_fetchWord {s : State} {w : Word} (hw : fetchWord s = some w) :
    (accessInBounds w s ∧ step s = .next (commitWord w s))
    ∨ ∃ d, (controlOf w).data = some d ∧ inBounds s (aluOutput w s) d.size.bytes = false
      ∧ step s = .fault (.outOfBounds (if d.we then .store else .load) (aluOutput w s)) := by
  by_cases hb : accessInBounds w s
  · exact .inl ⟨hb, step_of_accessInBounds hw hb⟩
  · simp only [accessInBounds, not_forall, Bool.not_eq_true] at hb
    obtain ⟨d, hd, hb⟩ := hb
    exact .inr ⟨d, hd, hb, step_of_access_outOfBounds hw hd hb⟩

/-- A completed step of a fetched word is that word's commit. -/
theorem eq_commitWord_of_step {s t : State} {w : Word} (hw : fetchWord s = some w) (h : step s = .next t) :
    t = commitWord w s ∧ accessInBounds w s := by
  rcases step_cases_of_fetchWord hw with ⟨hb, hs⟩ | ⟨d, -, -, hs⟩
  · rw [hs] at h; cases h; exact ⟨rfl, hb⟩
  · rw [hs] at h; cases h

/-- A completed step fetched a word and committed it. -/
theorem exists_commitWord_of_step {s t : State} (h : step s = .next t) :
    ∃ w, fetchWord s = some w ∧ t = commitWord w s ∧ accessInBounds w s := by
  rcases step_cases s with ⟨-, hf⟩ | ⟨-, hw, -⟩
  · rw [hf] at h; cases h
  · exact ⟨_, hw, eq_commitWord_of_step hw h⟩

/-! ### The commit of a word, field by field -/

/-- A word's commit is one write-back and one next pc, after the store if the word is one (R103). -/
theorem commitWord_cases (w : Word) (s : State) :
    commitWord w s = commit (resolvedRd w) (resultValue w s) (nextPcValue w s) s
    ∨ ∃ size, (controlOf w).data = some ⟨true, size⟩
      ∧ commitWord w s = commit (resolvedRd w) (resultValue w s) (nextPcValue w s)
        (storeBytes (aluOutput w s) size.bytes (readReg (fieldRs2 w) s) s) := by
  rcases hd : (controlOf w).data with _ | ⟨_ | _, size⟩
  · exact .inl (commitWord_of_noData hd s)
  · exact .inl (commitWord_of_load hd s)
  · exact .inr ⟨size, rfl, commitWord_of_store hd s⟩

@[simp] theorem commitWord_pc (w : Word) (s : State) : (commitWord w s).pc = nextPcValue w s := rfl

@[simp] theorem commitWord_base (w : Word) (s : State) : (commitWord w s).base = s.base := by
  rcases commitWord_cases w s with h | ⟨_, -, h⟩ <;> simp [h]

@[simp] theorem commitWord_memSize (w : Word) (s : State) : (commitWord w s).memSize = s.memSize := by
  rcases commitWord_cases w s with h | ⟨_, -, h⟩ <;> simp [h]

theorem readReg_commitWord (r : RegIdx) (w : Word) (s : State) :
    readReg r (commitWord w s) = if r = 0#5 then 0#32 else if r = resolvedRd w then resultValue w s else readReg r s := by
  rcases commitWord_cases w s with h | ⟨_, -, h⟩ <;> simp [h, readReg_commit]

@[simp] theorem regCell_zero_commitWord (w : Word) (s : State) : regCell 0#5 (commitWord w s) = regCell 0#5 s := by
  rcases commitWord_cases w s with h | ⟨_, -, h⟩ <;> simp [h]

theorem commitWord_regs_of_resolvedRd_zero {w : Word} (h0 : resolvedRd w = 0#5) (s : State) :
    (commitWord w s).regs = s.regs := by
  rcases commitWord_cases w s with h | ⟨_, -, h⟩ <;> simp [h, h0, commit_zero]

/-- The resolved destination (R99). -/
theorem resolvedRd_eq (w : Word) :
    resolvedRd w = if fieldOpcode w = opBranch ∨ fieldOpcode w = opStore then 0#5 else fieldRd w := by
  rcases opcode_cases w with h | h | h | h | h | h | h | h | h | h
  · simp [resolvedRd, control_lui h, h, opLui, opBranch, opStore]
  · simp [resolvedRd, control_auipc h, h, opAuipc, opBranch, opStore]
  · simp [resolvedRd, control_jal h, h, opJal, opBranch, opStore]
  · simp [resolvedRd, control_jalr h, h, opJalr, opBranch, opStore]
  · simp [resolvedRd, control_branch h, h]
  · cases hs : loadSize (fieldFunct3 w) with
    | none => simp [resolvedRd, control_reservedLoad h hs, controlZero, h, opLoad, opBranch, opStore]
    | some size => simp [resolvedRd, control_load h hs, h, opLoad, opBranch, opStore]
  · simp [resolvedRd, control_store h, h]
  · simp [resolvedRd, control_opImm h, h, opOpImm, opBranch, opStore]
  · simp [resolvedRd, control_op h, h, opOp, opBranch, opStore]
  · have hn := h
    simp only [recognizedOpcodes, List.mem_cons, not_or] at hn
    simp [resolvedRd, control_other h, controlZero, hn]

/-- The next pc by opcode (R101). -/
theorem nextPcValue_eq (w : Word) (s : State) :
    nextPcValue w s = if fieldOpcode w = opJal then s.pc + immJ w
      else if fieldOpcode w = opJalr then (readReg (fieldRs1 w) s + immI w) &&& ~~~1#32
      else if fieldOpcode w = opBranch
          ∧ branchTaken (fieldFunct3 w) (readReg (fieldRs1 w) s) (readReg (fieldRs2 w) s) = true then s.pc + immB w
      else s.pc + 4#32 := by
  rcases opcode_cases w with h | h | h | h | h | h | h | h | h | h
  · simp [nextPcValue, pcPlus4, control_lui h, h, opLui, opJal, opJalr, opBranch]
  · simp [nextPcValue, pcPlus4, control_auipc h, h, opAuipc, opJal, opJalr, opBranch]
  · simp [nextPcValue, control_jal h, h]
  · simp [nextPcValue, aluOutput, control_jalr h, h, opJal, opJalr, alu, operandAValue, operandBValue]
  · simp [nextPcValue, pcPlus4, control_branch h, h, opJal, opJalr, opBranch]
  · cases hs : loadSize (fieldFunct3 w) with
    | none =>
      simp [nextPcValue, pcPlus4, control_reservedLoad h hs, controlZero, h, opLoad, opJal, opJalr, opBranch]
    | some size => simp [nextPcValue, pcPlus4, control_load h hs, h, opLoad, opJal, opJalr, opBranch]
  · simp [nextPcValue, pcPlus4, control_store h, h, opStore, opJal, opJalr, opBranch]
  · simp [nextPcValue, pcPlus4, control_opImm h, h, opOpImm, opJal, opJalr, opBranch]
  · simp [nextPcValue, pcPlus4, control_op h, h, opOp, opJal, opJalr, opBranch]
  · have hn := h
    simp only [recognizedOpcodes, List.mem_cons, not_or] at hn
    simp [nextPcValue, pcPlus4, control_other h, controlZero, hn]

/-! ### The invariant -/

@[simp] theorem getLsbD_zero_immB (w : Word) : (immB w).getLsbD 0 = false := by
  have h := evenOffsetB_fieldImmB w
  rw [evenOffsetB, Bool.not_eq_true'] at h
  rw [immB, sext13, BitVec.getLsbD_signExtend, if_pos (by omega), h, Bool.and_false]

@[simp] theorem getLsbD_zero_immJ (w : Word) : (immJ w).getLsbD 0 = false := by
  have h := evenOffsetJ_fieldImmJ w
  rw [evenOffsetJ, Bool.not_eq_true'] at h
  rw [immJ, sext21, BitVec.getLsbD_signExtend, if_pos (by omega), h, Bool.and_false]

/-- The next pc is even when the pc is (R27): offsets are even and JALR clears bit 0. -/
theorem nextPcValue_even {s : State} (h : pcEven s = true) (w : Word) : (nextPcValue w s).getLsbD 0 = false := by
  have hpc : s.pc.getLsbD 0 = false := by simpa [pcEven] using h
  rw [nextPcValue_eq]
  split
  · rw [getLsbD_zero_add, hpc, getLsbD_zero_immJ]; rfl
  · split
    · simp
    · split
      · rw [getLsbD_zero_add, hpc, getLsbD_zero_immB]; rfl
      · rw [getLsbD_zero_add, hpc]; rfl

/-- The commit of a word whose data access is in bounds keeps the invariant. -/
theorem Inv.commitWord {s : State} (h : Inv s) {w : Word} (hb : accessInBounds w s) : Inv (commitWord w s) := by
  have heven := nextPcValue_even h.pcEven w
  rcases commitWord_cases w s with hc | ⟨size, hd, hc⟩ <;> rw [hc]
  · exact h.commit _ _ heven
  · exact (h.storeBytes (hb _ hd) _).commit _ _ heven

end Sys2Proof.Machine

/-! SUPPORT. What a word reads (R24): two states that agree on its read ports give the same selections, and a register it does
not read commutes with its commit. -/

namespace Sys2Proof.Machine

/-! ### Register writes against the other updates -/

theorem writeReg_writeReg_same (r : RegIdx) (x v : Word) (s : State) :
    writeReg r x (writeReg r v s) = writeReg r x s := by
  unfold writeReg
  split
  · rfl
  · simp [Vector.set_set]

theorem writeReg_comm {r r' : RegIdx} (h : r ≠ r') (x v : Word) (s : State) :
    writeReg r x (writeReg r' v s) = writeReg r' v (writeReg r x s) := by
  have hn : r.toNat ≠ r'.toNat := fun c => h (BitVec.eq_of_toNat_eq c)
  unfold writeReg
  split <;> split <;> simp [Vector.set_comm _ _ hn]

theorem setPc_writeReg (r : RegIdx) (v x : Word) (s : State) : setPc x (writeReg r v s) = writeReg r v (setPc x s) := by
  unfold writeReg; split <;> rfl

theorem storeBytes_writeReg (r : RegIdx) (v a : Word) (n : Nat) (x : Word) (s : State) :
    storeBytes a n x (writeReg r v s) = writeReg r v (storeBytes a n x s) := by
  unfold writeReg; split <;> rfl

/-- A commit after a register write: it overwrites the register, or leaves the write standing (R23, R103). -/
theorem commit_writeReg (rd r : RegIdx) (v x next : Word) (s : State) :
    commit rd x next (writeReg r v s) = if rd = r then commit rd x next s else writeReg r v (commit rd x next s) := by
  split
  · next h => subst h; rw [commit, writeReg_writeReg_same]; rfl
  · next h => rw [commit, writeReg_comm h, setPc_writeReg]; rfl

/-! ### What a word reads -/

/-- Two states that a word cannot tell apart: they agree on all but the registers, and on the registers its read ports
read (R24). -/
structure ReadsAlike (w : Word) (s s' : State) : Prop where
  pc : s'.pc = s.pc
  mem : s'.mem = s.mem
  base : s'.base = s.base
  memSize : s'.memSize = s.memSize
  rs1 : readsRs1 w = true → readReg (fieldRs1 w) s' = readReg (fieldRs1 w) s
  rs2 : readsRs2 w = true → readReg (fieldRs2 w) s' = readReg (fieldRs2 w) s

theorem readReg_writeReg_of_ne {r r' : RegIdx} (h : r ≠ r') (v : Word) (s : State) :
    readReg r (writeReg r' v s) = readReg r s := by
  rw [readReg_writeReg, if_neg h]
  split
  · next h0 => rw [h0]; rfl
  · rfl

theorem readsAlike_writeReg {w : Word} {r : RegIdx} (h1 : readsRs1 w = true → fieldRs1 w ≠ r)
    (h2 : readsRs2 w = true → fieldRs2 w ≠ r) (v : Word) (s : State) : ReadsAlike w s (writeReg r v s) where
  pc := writeReg_pc r v s
  mem := writeReg_mem r v s
  base := writeReg_base r v s
  memSize := writeReg_memSize r v s
  rs1 h := readReg_writeReg_of_ne (h1 h) v s
  rs2 h := readReg_writeReg_of_ne (h2 h) v s

/-- A STORE word with a reserved funct3 (R154). -/
def reservedStoreWord (w : Word) : Prop := fieldOpcode w = opStore ∧ storeSize (fieldFunct3 w) = none

theorem control_reservedStore {w : Word} (h : reservedStoreWord w) :
    controlOf w = ⟨some .add, .rs1, .immS, false, .none, .pcPlus4, none⟩ := by
  rw [control_store h.1, h.2]; rfl

theorem not_reservedStoreWord_of_data {w : Word} {d : DataControl} (hd : (controlOf w).data = some d) :
    ¬ reservedStoreWord w := by
  intro hs
  rw [control_reservedStore hs] at hd
  cases hd

/-- Where the ALU takes rs1, the word reads it, but for the reserved STORE words. -/
theorem readsRs1_of_alu {w : Word} (hs : ¬ reservedStoreWord w) {op : AluOp} (ha : (controlOf w).aluOp = some op)
    (hA : (controlOf w).operandA = .rs1) : readsRs1 w = true := by
  rcases opcode_cases w with h | h | h | h | h | h | h | h | h | h
  · simp [control_lui h] at ha
  · simp [control_auipc h] at hA
  · simp [control_jal h] at ha
  · simp [readsRs1, h]
  · simp [control_branch h] at ha
  · cases hl : loadSize (fieldFunct3 w) with
    | none => simp [control_reservedLoad h hl, controlZero] at ha
    | some size => simp [readsRs1, h, hl]
  · cases hl : storeSize (fieldFunct3 w) with
    | none => exact absurd ⟨h, hl⟩ hs
    | some size => simp [readsRs1, h, hl]
  · simp [readsRs1, h]
  · simp [readsRs1, h]
  · simp [control_other h, controlZero] at ha

/-- Where the ALU takes rs2, the word reads it. -/
theorem readsRs2_of_alu {w : Word} {op : AluOp} (ha : (controlOf w).aluOp = some op)
    (hB : (controlOf w).operandB = .rs2) : readsRs2 w = true := by
  rcases opcode_cases w with h | h | h | h | h | h | h | h | h | h
  · simp [control_lui h] at ha
  · simp [control_auipc h] at hB
  · simp [control_jal h] at ha
  · simp [control_jalr h] at hB
  · simp [control_branch h] at ha
  · cases hl : loadSize (fieldFunct3 w) with
    | none => simp [control_reservedLoad h hl, controlZero] at ha
    | some size => simp [control_load h hl] at hB
  · simp [control_store h] at hB
  · simp [control_opImm h] at hB
  · simp [readsRs2, h]
  · simp [control_other h, controlZero] at ha

/-- A word that stores reads rs2, the value stored. -/
theorem readsRs2_of_store {w : Word} {size : AccessSize} (hd : (controlOf w).data = some ⟨true, size⟩) :
    readsRs2 w = true := by
  rcases (control_data_eq_some_iff w _).1 hd with ⟨-, hwe, -⟩ | ⟨ho, -, hsize⟩
  · cases hwe
  · simp [readsRs2, ho, hsize]

/-- The reserved BRANCH words are never taken (R137). -/
theorem branchTaken_reserved {f : BitVec 3} (h : f = 2#3 ∨ f = 3#3) (a b : Word) : branchTaken f a b = false := by
  rcases h with rfl | rfl <;> simp [branchTaken]

/-- The taken decision depends on registers only where the word reads both (R137: funct3 2 and 3 read none). -/
theorem branchTaken_congr {w : Word} {s s' : State} (h : ReadsAlike w s s') (hb : fieldOpcode w = opBranch) :
    branchTaken (fieldFunct3 w) (readReg (fieldRs1 w) s') (readReg (fieldRs2 w) s')
      = branchTaken (fieldFunct3 w) (readReg (fieldRs1 w) s) (readReg (fieldRs2 w) s) := by
  by_cases hf : fieldFunct3 w = 2#3 ∨ fieldFunct3 w = 3#3
  · rw [branchTaken_reserved hf, branchTaken_reserved hf]
  · rw [not_or] at hf
    rw [h.rs1 (by simp [readsRs1, hb, hf]), h.rs2 (by simp [readsRs2, hb, hf])]

section
variable {w : Word} {s s' : State} (h : ReadsAlike w s s')
include h

theorem aluOutput_congr (hs : ¬ reservedStoreWord w) : aluOutput w s' = aluOutput w s := by
  unfold aluOutput
  cases ha : (controlOf w).aluOp with
  | none => rfl
  | some op =>
    have hA : operandAValue (controlOf w).operandA w s' = operandAValue (controlOf w).operandA w s := by
      cases hA : (controlOf w).operandA with
      | rs1 => exact h.rs1 (readsRs1_of_alu hs ha hA)
      | pc => exact h.pc
    have hB : operandBValue (controlOf w).operandB w s' = operandBValue (controlOf w).operandB w s := by
      cases hB : (controlOf w).operandB with
      | rs2 => exact h.rs2 (readsRs2_of_alu ha hB)
      | immI | immS | immU => rfl
    rw [hA, hB]

theorem pcPlus4_congr : pcPlus4 s' = pcPlus4 s := by rw [pcPlus4, h.pc]; rfl

theorem resultValue_congr : resultValue w s' = resultValue w s := by
  by_cases hs : reservedStoreWord w
  · simp only [resultValue, control_reservedStore hs]
  · simp only [resultValue, aluOutput_congr h hs, pcPlus4_congr h, memValue_congr h.base h.mem]

theorem nextPcValue_congr : nextPcValue w s' = nextPcValue w s := by
  rw [nextPcValue_eq, nextPcValue_eq, h.pc]
  split
  · rfl
  · split
    · next hj => rw [h.rs1 (by simp [readsRs1, hj])]
    · by_cases hb : fieldOpcode w = opBranch
      · rw [branchTaken_congr h hb]
      · rw [if_neg (fun c => hb c.1), if_neg (fun c => hb c.1)]

theorem accessInBounds_congr : accessInBounds w s' ↔ accessInBounds w s := by
  by_cases hs : reservedStoreWord w
  · simp only [accessInBounds, control_reservedStore hs, reduceCtorEq, false_implies, implies_true]
  · simp only [accessInBounds, aluOutput_congr h hs, inBounds_congr h.base h.memSize]

theorem fetchWord_congr : fetchWord s' = fetchWord s := by
  rw [fetchWord, h.pc, inBounds_congr h.base h.memSize, memValue_congr h.base h.mem]; rfl

end

/-- A word that reads neither port as `r` commits the same from a changed `r`, which its write-back may overwrite. -/
theorem commitWord_writeReg {w : Word} {r : RegIdx} (h1 : readsRs1 w = true → fieldRs1 w ≠ r)
    (h2 : readsRs2 w = true → fieldRs2 w ≠ r) (v : Word) (s : State) :
    commitWord w (writeReg r v s) = if resolvedRd w = r then commitWord w s else writeReg r v (commitWord w s) := by
  have h := readsAlike_writeReg h1 h2 v s
  rcases hd : (controlOf w).data with _ | ⟨_ | _, size⟩
  · rw [commitWord_of_noData hd, commitWord_of_noData hd, resultValue_congr h, nextPcValue_congr h, commit_writeReg]
  · rw [commitWord_of_load hd, commitWord_of_load hd, resultValue_congr h, nextPcValue_congr h, commit_writeReg]
  · have hs := not_reservedStoreWord_of_data hd
    rw [commitWord_of_store hd, commitWord_of_store hd, resultValue_congr h, nextPcValue_congr h, aluOutput_congr h hs,
      h.rs2 (readsRs2_of_store hd), storeBytes_writeReg, commit_writeReg]

end Sys2Proof.Machine

/-! SUPPORT. The launch state field by field (R33, R230 to R234): the argument words, the priming writes, the image. -/

namespace Sys2Proof.Machine

/-! ### The launch state -/

/-- The argument words change memory only. -/
theorem writeArgWords_eq (ws : List (Word × Word)) (s : State) :
    writeArgWords ws s = { s with mem := (writeArgWords ws s).mem } := by
  induction ws generalizing s with
  | nil => rfl
  | cons c ws ih => exact ih (storeBytes c.1 4 c.2 s)

@[simp] theorem writeArgWords_regs (ws : List (Word × Word)) (s : State) : (writeArgWords ws s).regs = s.regs := by
  rw [writeArgWords_eq]
@[simp] theorem writeArgWords_pc (ws : List (Word × Word)) (s : State) : (writeArgWords ws s).pc = s.pc := by
  rw [writeArgWords_eq]
@[simp] theorem writeArgWords_base (ws : List (Word × Word)) (s : State) : (writeArgWords ws s).base = s.base := by
  rw [writeArgWords_eq]
@[simp] theorem writeArgWords_memSize (ws : List (Word × Word)) (s : State) :
    (writeArgWords ws s).memSize = s.memSize := by
  rw [writeArgWords_eq]

/-- The argument words leave every byte below all of them as it was. -/
theorem read_writeArgWords_of_lt {ws : List (Word × Word)} {s : State} (hw : s.mem.wf = true) {i : Nat}
    (hi : ∀ c ∈ ws, i < translate s c.1) : Memory.read (writeArgWords ws s).mem i = Memory.read s.mem i := by
  induction ws generalizing s with
  | nil => rfl
  | cons c ws ih =>
    have hc := hi c List.mem_cons_self
    calc Memory.read (writeArgWords ws (storeBytes c.1 4 c.2 s)).mem i
        = Memory.read (storeBytes c.1 4 c.2 s).mem i :=
          ih (Memory.wf_writeLE hw _ _ _) fun c' hc' => hi c' (List.mem_cons_of_mem c hc')
      _ = Memory.read s.mem i := by rw [storeBytes_mem, Memory.read_writeLE hw, if_neg (by omega)]

@[simp] theorem marshalArguments_pc (a : Arguments) (s : State) : (marshalArguments a s).pc = s.pc := by
  simp [marshalArguments]
@[simp] theorem marshalArguments_base (a : Arguments) (s : State) : (marshalArguments a s).base = s.base := by
  simp [marshalArguments]
@[simp] theorem marshalArguments_memSize (a : Arguments) (s : State) :
    (marshalArguments a s).memSize = s.memSize := by
  simp [marshalArguments]
@[simp] theorem marshalArguments_mem (a : Arguments) (s : State) :
    (marshalArguments a s).mem = (writeArgWords a.words s).mem := by
  simp [marshalArguments]

theorem readReg_congr {s t : State} (h : t.regs = s.regs) (r : RegIdx) : readReg r t = readReg r s := by
  simp only [readReg, regCell, h]

/-- A register after marshaling: the last priming write that names it (log 9), or as before (R233). -/
theorem readReg_marshalArguments (a : Arguments) (s : State) {r : RegIdx} (hr : r ≠ 0#5) :
    readReg r (marshalArguments a s) = if r = a.spReg then a.spInit else if r = a.argvReg then a.argvAddr
      else if r = a.argcReg then BitVec.ofNat 32 a.words.length else readReg r s := by
  simp only [marshalArguments, readReg_writeReg, if_neg hr, readReg_congr (writeArgWords_regs a.words s)]

/-- After reset every register reads 0 (R230). -/
theorem readReg_rst (r : RegIdx) (s : State) : readReg r s.rst = 0#32 := by
  simp [readReg, regCell]

theorem Launch.readReg_loaded (l : Launch) (r : RegIdx) : readReg r (loadImage l.image l.created) = 0#32 :=
  (readReg_congr (loadImage_regs ..) r).trans (readReg_rst r _)

theorem Launch.state_of_none {l : Launch} (h : l.args = none) : l.state = loadImage l.image l.created := by
  simp only [Launch.state, h]

theorem Launch.state_of_some {l : Launch} {a : Arguments} (h : l.args = some a) :
    l.state = marshalArguments a (loadImage l.image l.created) := by
  simp only [Launch.state, h]

@[simp] theorem Launch.state_pc (l : Launch) : l.state.pc = l.base := by
  rcases h : l.args with _ | a <;> simp [state_of_none, state_of_some, h, Launch.created]

@[simp] theorem Launch.state_base (l : Launch) : l.state.base = l.base := by
  rcases h : l.args with _ | a <;> simp [state_of_none, state_of_some, h, Launch.created]

@[simp] theorem Launch.state_memSize (l : Launch) : l.state.memSize = l.memSize := by
  rcases h : l.args with _ | a <;> simp [state_of_none, state_of_some, h, Launch.created]

/-- The launch premises taken apart (R6, R231, R234). -/
structure Launch.Premises (l : Launch) : Prop where
  memSize_le : l.memSize ≤ 4294967296
  contentWf : l.content.wf = true
  image_le : l.image.length ≤ textSize l.memSize
  argsInStack : ∀ a, l.args = some a → ∀ c ∈ a.words, textSize l.memSize ≤ translate l.created c.1

theorem Launch.premises_of_ok {argMax : Nat} {l : Launch} (h : l.ok argMax = true) : l.Premises := by
  simp only [Launch.ok, Config.legal, Bool.and_eq_true, decide_eq_true_eq] at h
  obtain ⟨⟨⟨⟨⟨-, hsize⟩, hwf⟩, -⟩, himage⟩, hargs⟩ := h
  refine ⟨hsize, hwf, himage, fun a ha c hc => ?_⟩
  simp only [ha, Bool.and_eq_true, List.all_eq_true] at hargs
  have := hargs.2 c hc
  simp only [Launch.argInStack, Bool.and_eq_true, decide_eq_true_eq] at this
  exact this.1

/-- The argument words lie in the stack region, so the text region holds what the loader left (R232, R233). -/
theorem Launch.read_state_of_text {l : Launch} (h : l.Premises) {i : Nat} (hi : i < textSize l.memSize) :
    Memory.read l.state.mem i = Memory.read (Memory.writeBytes l.content 0 l.image) i := by
  cases ha : l.args with
  | none => rw [state_of_none ha]; rfl
  | some a =>
    have hwf : (loadImage l.image l.created).mem.wf = true := Memory.wf_writeBytes h.contentWf 0 l.image
    rw [state_of_some ha, marshalArguments_mem,
      read_writeArgWords_of_lt hwf fun c hc => Nat.lt_of_lt_of_le hi (h.argsInStack a ha c hc)]
    rfl

/-- Byte `k` of the image is at BASE + k (R232, R33). -/
theorem Launch.byteAt_image {l : Launch} (h : l.Premises) {k : Nat} (hk : k < l.image.length) :
    byteAt l.state (l.base + BitVec.ofNat 32 k) = some l.image[k] := by
  have htext : k < textSize l.memSize := Nat.lt_of_lt_of_le hk h.image_le
  have hsize : textSize l.memSize ≤ l.memSize := Nat.div_le_self ..
  have hmax := h.memSize_le
  have ht : translate l.state (l.base + BitVec.ofNat 32 k) = k := by
    rw [translate, Launch.state_base, BitVec.add_comm, BitVec.add_sub_cancel, BitVec.toNat_ofNat]
    omega
  have hb : inBounds l.state (l.base + BitVec.ofNat 32 k) 1 = true := by
    rw [inBounds_iff, ht, Launch.state_memSize]; omega
  rw [byteAt, if_pos hb, ht, read_state_of_text h htext, Memory.read_writeBytes h.contentWf, if_pos (by omega),
    Nat.sub_zero, List.getD_eq_getElem _ _ hk]

/-- A register that the marshaler does not prime is 0 (R33). -/
theorem Launch.readReg_unprimed {l : Launch} {r : RegIdx}
    (hr : ∀ a, l.args = some a → r ≠ a.spReg ∧ r ≠ a.argcReg ∧ r ≠ a.argvReg) : readReg r l.state = 0#32 := by
  by_cases h0 : r = 0#5
  · rw [h0]; rfl
  · cases ha : l.args with
    | none => rw [state_of_none ha, readReg_loaded]
    | some a =>
      obtain ⟨hsp, hargc, hargv⟩ := hr a ha
      rw [state_of_some ha, readReg_marshalArguments a _ h0, if_neg hsp, if_neg hargv, if_neg hargc, readReg_loaded]

end Sys2Proof.Machine

/-! The statements of 10_state.md. -/

namespace Sys2Proof.Machine

/-- Settles O29: a completed step is the commit of the fetched word, and that commit keeps each part of the invariant. -/
theorem stepKeepsTheInvariant : Obligations.StepKeepsTheInvariant := by
  intro s t hinv h
  obtain ⟨w, -, rfl, hb⟩ := exists_commitWord_of_step h
  exact hinv.commitWord hb

/-- Settles O11: the write port ignores x0, and no commit changes cell 0. -/
theorem zeroRegisterIsNeverMutated : Obligations.ZeroRegisterIsNeverMutated := by
  intro s
  refine ⟨readReg_zero s, fun v => writeReg_zero v s, fun t h => ?_⟩
  obtain ⟨w, -, rfl, -⟩ := exists_commitWord_of_step h
  exact ⟨regCell_zero_commitWord w s, readReg_zero _⟩

/-- Settles O12, from the registers of a commit and the resolved destination. -/
theorem stepWritesOnlyTheResolvedRegister : Obligations.StepWritesOnlyTheResolvedRegister := by
  intro s t w hw h
  obtain ⟨rfl, -⟩ := eq_commitWord_of_step hw h
  have hrd := resolvedRd_eq w
  refine ⟨fun r hr => ?_, fun h0 => commitWord_regs_of_resolvedRd_zero ?_ s, fun hnb hns hnz => ?_⟩
  · rw [readReg_commitWord]
    by_cases hr0 : r = 0#5
    · rw [hr0]; rfl
    · rw [if_neg hr0, if_neg]
      rw [hrd]
      split
      · exact hr0
      · tauto
  · rw [hrd]
    split
    · rfl
    · tauto
  · rw [readReg_commitWord, if_neg hnz, if_pos]
    rw [hrd, if_neg (by tauto)]

/-- Settles O24: the pc of the fetched word's commit, by opcode. -/
theorem nextPcIsTheStatedOne : Obligations.NextPcIsTheStatedOne := by
  intro s t w hw h
  obtain ⟨rfl, -⟩ := eq_commitWord_of_step hw h
  rw [commitWord_pc, nextPcValue_eq]

/-- Settles O27: the changed state fetches the same word, which reads alike in both, so it faults alike or commits alike. -/
theorem unreadRegistersDoNotMatter : Obligations.UnreadRegistersDoNotMatter := by
  intro s w v r hw h1 h2
  have h := readsAlike_writeReg h1 h2 v s
  have hw' : fetchWord (writeReg r v s) = some w := (fetchWord_congr h).trans hw
  rcases step_cases_of_fetchWord hw with ⟨hb, hstep⟩ | ⟨d, hd, hb, hstep⟩
  · have hstep' := step_of_accessInBounds hw' ((accessInBounds_congr h).2 hb)
    rw [commitWord_writeReg h1 h2] at hstep'
    rw [hstep, hstep']
    exact ⟨nofun, fun t ht => by cases ht; rfl⟩
  · have hs := not_reservedStoreWord_of_data hd
    rw [← inBounds_congr h.base h.memSize, ← aluOutput_congr h hs] at hb
    rw [hstep, step_of_access_outOfBounds hw' hd hb, aluOutput_congr h hs]
    exact ⟨fun f hf => hf, nofun⟩

/-- Settles O33, part by part: the pc, the image, the registers left at 0 and the three primed ones. -/
theorem launchStateHoldsTheImage : Obligations.LaunchStateHoldsTheImage := by
  intro argMax l hok
  have h := Launch.premises_of_ok hok
  refine ⟨Launch.state_pc l, fun k hk => Launch.byteAt_image h hk, fun r hr => Launch.readReg_unprimed hr, ?_⟩
  intro a ha hsp0 hargc0 hargv0 hsc hsv hcv
  rw [Launch.state_of_some ha, readReg_marshalArguments a _ hsp0, readReg_marshalArguments a _ hargv0,
    readReg_marshalArguments a _ hargc0]
  exact ⟨if_pos rfl, by rw [if_neg hsv.symm, if_pos rfl], by rw [if_neg hsc.symm, if_neg hcv, if_pos rfl]⟩

/-- Settles O25: no commit touches the two parameters. -/
theorem stepKeepsBaseAndSize : Obligations.StepKeepsBaseAndSize := by
  intro s t h
  obtain ⟨w, -, rfl, -⟩ := exists_commitWord_of_step h
  exact ⟨commitWord_base w s, commitWord_memSize w s⟩

end Sys2Proof.Machine

/-! SUPPORT. Memory through the load/store interface (R41 to R48): the bounds check, the slices of a read, the bytes of a
word, and what a load or a fetch finds after a completed store. -/

namespace Sys2Proof.Machine

/-! ### Translation and bounds (R41, R42) -/

/-- Translation over the integers (R41). -/
theorem translate_cast (s : State) (a : Word) :
    (translate s a : Int) = ((a.toNat : Int) - s.base.toNat) % 2 ^ 32 := by
  rw [translate, BitVec.toNat_sub]
  have := a.isLt
  have := s.base.isLt
  omega

/-- An access of at least one byte is in bounds exactly when each of its bytes is (R42). -/
theorem inBounds_iff_forall (s : State) (a : Word) {n : Nat} (hn : 0 < n) :
    inBounds s a n = true ↔ ∀ k, k < n → translate s a + k < s.memSize := by
  rw [inBounds_iff]
  constructor
  · intro h k hk
    omega
  · intro h
    have := h (n - 1) (by omega)
    omega

/-- Part of an in-bounds access is in bounds. -/
theorem inBounds_add {s : State} (hs : s.memSize ≤ 4294967296) {a : Word} {n k m : Nat} (hb : inBounds s a n = true)
    (hk : k < n) (hm : k + m ≤ n) : inBounds s (a + BitVec.ofNat 32 k) m = true := by
  have ht := translate_add hs hb hk
  rw [inBounds_iff] at hb ⊢
  omega

/-! ### Bytes and slices of a read (R43, R48) -/

/-- The bytes above a read's width are 0 (R43). -/
theorem Memory.byteOfWord_readLE_of_le (m : Memory) (i : Nat) {n k : Nat} (hk : n ≤ k) :
    byteOfWord (Memory.readLE m i n) k = 0#8 := by
  unfold byteOfWord
  ext b hb
  have hout : ¬ (8 * k + b) / 8 < n := by omega
  simp [BitVec.getElem_extractLsb', getLsbD_readLE, hout]

/-- A read inside a wider read is a slice of its value (R48). -/
theorem Memory.readLE_slice (m : Memory) (i : Nat) {n k l : Nat} (h : k + l ≤ n) (h4 : n ≤ 4) :
    Memory.readLE m (i + k) l = ((Memory.readLE m i n).extractLsb' (8 * k) (8 * l)).setWidth 32 := by
  apply BitVec.eq_of_getLsbD_eq
  intro j hj
  rw [getLsbD_readLE, BitVec.getLsbD_setWidth, BitVec.getLsbD_extractLsb', getLsbD_readLE,
    show (8 * k + j) / 8 = k + j / 8 by omega, show (8 * k + j) % 8 = j % 8 by omega, ← Nat.add_assoc]
  by_cases hl : j / 8 < l
  · simp [hl, hj, show j < 8 * l by omega, show 8 * k + j < 32 by omega, show k + j / 8 < n by omega]
  · simp [hl, show ¬ j < 8 * l by omega]

theorem memValue_slice {s : State} (hs : s.memSize ≤ 4294967296) {a : Word} {n k l : Nat} (hb : inBounds s a n = true)
    (hk : k < n) (h : k + l ≤ n) (h4 : n ≤ 4) :
    memValue s (a + BitVec.ofNat 32 k) l = ((memValue s a n).extractLsb' (8 * k) (8 * l)).setWidth 32 := by
  rw [memValue, translate_add hs hb hk, Memory.readLE_slice _ _ h h4, memValue]

/-- A word is its four bytes, most significant first (R47). -/
theorem append_byteOfWord (v : Word) : byteOfWord v 3 ++ byteOfWord v 2 ++ byteOfWord v 1 ++ byteOfWord v 0 = v := by
  apply BitVec.eq_of_getLsbD_eq
  intro j hj
  simp only [byteOfWord, BitVec.getLsbD_append, BitVec.getLsbD_extractLsb']
  grind

/-! ### A completed store, and the loads and fetches after it (R44, R48, R55) -/

theorem setWidth_setWidth_eq_and (v : Word) (n : Nat) :
    (v.setWidth n).setWidth 32 = v &&& BitVec.ofNat 32 (2 ^ n - 1) := by
  apply BitVec.eq_of_getLsbD_eq
  intro j hj
  rw [BitVec.getLsbD_setWidth, BitVec.getLsbD_setWidth, BitVec.getLsbD_and, BitVec.getLsbD_ofNat,
    Nat.testBit_two_pow_sub_one]
  simp [hj, Bool.and_comm]

/-- What a store wrote, read back: the value cut to the width (R44). -/
theorem memValue_storeBytes {s : State} (hw : s.mem.wf = true) (a : Word) (n : Nat) (v : Word) :
    memValue (storeBytes a n v s) a n = (v.setWidth (8 * n)).setWidth 32 :=
  (Memory.readLE_writeLE hw _ n v).trans (setWidth_setWidth_eq_and v _).symm

theorem toNat_setWidth_setWidth {n : Nat} (h : n ≤ 32) (v : Word) :
    ((v.setWidth n).setWidth 32).toNat = v.toNat % 2 ^ n := by
  rw [BitVec.toNat_setWidth_of_le h, BitVec.toNat_setWidth]

theorem storeFrom_eq_next_iff {size : AccessSize} {a v : Word} {s t : State} :
    storeFrom size a v s = .next t
      ↔ inBounds s a size.bytes = true ∧ t = setPc (pcPlus4 s) (storeBytes a size.bytes v s) := by
  rcases storeFrom_cases size a v s with ⟨hb, h⟩ | ⟨hb, h⟩
  · rw [h]
    constructor
    · intro ht
      cases ht
      exact ⟨hb, rfl⟩
    · rintro ⟨-, rfl⟩
      rfl
  · rw [h, hb]
    exact ⟨nofun, nofun⟩

/-- After a completed store its address is in bounds and holds the value cut to the width, at any pc. -/
theorem memValue_of_stored {size : AccessSize} {a v : Word} {s t : State} (hw : s.mem.wf = true)
    (h : storeFrom size a v s = .next t) :
    inBounds t a size.bytes = true ∧ memValue t a size.bytes = (v.setWidth (8 * size.bytes)).setWidth 32 := by
  obtain ⟨hb, rfl⟩ := storeFrom_eq_next_iff.1 h
  exact ⟨hb, memValue_storeBytes hw a _ v⟩

theorem memValue_of_storedWord {a v : Word} {s t : State} (hw : s.mem.wf = true) (h : storeFrom .word a v s = .next t) :
    inBounds t a 4 = true ∧ memValue t a 4 = v := by
  obtain ⟨hb, hv⟩ := memValue_of_stored hw h
  exact ⟨hb, hv.trans (by simp only [AccessSize.bytes, Nat.reduceMul, BitVec.setWidth_eq])⟩

/-- A store changes no register, so an address computed again after it is the same. -/
theorem effectiveAddress_of_stored {size : AccessSize} {a v : Word} {s t : State} (h : storeFrom size a v s = .next t)
    (rs1 : RegIdx) (imm : BitVec 12) : effectiveAddress rs1 imm t = effectiveAddress rs1 imm s := by
  obtain ⟨-, rfl⟩ := storeFrom_eq_next_iff.1 h
  rfl

theorem memSize_of_stored {size : AccessSize} {a v : Word} {s t : State} (h : storeFrom size a v s = .next t) :
    t.memSize = s.memSize := by
  obtain ⟨-, rfl⟩ := storeFrom_eq_next_iff.1 h
  rfl

/-- An in-bounds load completes and leaves the extended value in its register. -/
theorem exists_loadTo_next {size : AccessSize} {a : Word} {s : State} (hb : inBounds s a size.bytes = true)
    (ext : Word → Word) {rd : RegIdx} (hrd : rd ≠ 0#5) :
    ∃ t, loadTo size ext rd a s = .next t ∧ readReg rd t = ext (memValue s a size.bytes) :=
  ⟨_, loadTo_next hb ext rd, by rw [readReg_commit, if_neg hrd, if_pos rfl]⟩

/-- A load by the base and offset of a completed store of its width gives the stored value, cut to the width and extended. -/
theorem exists_loadTo_of_stored {size : AccessSize} {rs1 rd : RegIdx} {imm : BitVec 12} {v : Word} {s t : State}
    (hw : s.mem.wf = true) (h : storeFrom size (effectiveAddress rs1 imm s) v s = .next t) (hrd : rd ≠ 0#5)
    {ext : Word → Word} {x : Word} (hext : ext ((v.setWidth (8 * size.bytes)).setWidth 32) = x) :
    ∃ u, loadTo size ext rd (effectiveAddress rs1 imm t) t = .next u ∧ readReg rd u = x := by
  obtain ⟨hb, hv⟩ := memValue_of_stored hw h
  rw [effectiveAddress_of_stored h, ← hext, ← hv]
  exact exists_loadTo_next hb ext hrd

/-- A load of bytes `k` and up of a stored word gives that slice of the word, extended (R48). -/
theorem exists_loadTo_of_storedWord {size : AccessSize} {a b v : Word} {rd : RegIdx} {s t : State} (hw : s.mem.wf = true)
    (hs : s.memSize ≤ 4294967296) (h : storeFrom .word a v s = .next t) (hrd : rd ≠ 0#5) {k : Nat}
    (hk : k + size.bytes ≤ 4) (ha : b = a + BitVec.ofNat 32 k) {ext : Word → Word} {x : Word}
    (hext : ext ((v.extractLsb' (8 * k) (8 * size.bytes)).setWidth 32) = x) :
    ∃ u, loadTo size ext rd b t = .next u ∧ readReg rd u = x := by
  obtain ⟨hb, hv⟩ := memValue_of_storedWord hw h
  have hs' : t.memSize ≤ 4294967296 := (memSize_of_stored h).trans_le hs
  have hlt : k < 4 := by
    have := size.bytes_pos
    omega
  have hslice := memValue_slice hs' hb hlt hk (le_refl 4)
  rw [hv] at hslice
  rw [ha, ← hext, ← hslice]
  exact exists_loadTo_next (inBounds_add hs' hb hlt hk) ext hrd

/-! ### The load extensions of a value already cut to their width (R69) -/

theorem extByteUnsigned_setWidth (b : BitVec 8) : extByteUnsigned (b.setWidth 32) = b.setWidth 32 := by
  rw [extByteUnsigned, BitVec.setWidth_setWidth_of_le b (by decide), BitVec.setWidth_eq]

theorem extByteSigned_setWidth (b : BitVec 8) : extByteSigned (b.setWidth 32) = b.signExtend 32 := by
  rw [extByteSigned, BitVec.setWidth_setWidth_of_le b (by decide), BitVec.setWidth_eq]

theorem extHalfUnsigned_setWidth (h : BitVec 16) : extHalfUnsigned (h.setWidth 32) = h.setWidth 32 := by
  rw [extHalfUnsigned, BitVec.setWidth_setWidth_of_le h (by decide), BitVec.setWidth_eq]

theorem extHalfSigned_setWidth (h : BitVec 16) : extHalfSigned (h.setWidth 32) = h.signExtend 32 := by
  rw [extHalfSigned, BitVec.setWidth_setWidth_of_le h (by decide), BitVec.setWidth_eq]

end Sys2Proof.Machine

/-! SUPPORT. The output ports of a step (R57, R91, R211), one lemma for each group of signals. -/

namespace Sys2Proof.Machine

/-- The ALU of a word with a data access forms its effective address (R140, R150). -/
theorem aluOutput_of_data {w : Word} {d : DataControl} (hd : (controlOf w).data = some d) (s : State) :
    aluOutput w s = readReg (fieldRs1 w) s + (if d.we then immS w else immI w) := by
  rcases (control_data_eq_some_iff w d).1 hd with ⟨ho, hwe, hsize⟩ | ⟨ho, hwe, -⟩
  · simp [aluOutput, control_load ho hsize, hwe, alu, operandAValue, operandBValue]
  · simp [aluOutput, control_store ho, hwe, alu, operandAValue, operandBValue]

/-- The words with a data request (R57). -/
theorem control_data_isSome_iff (w : Word) :
    (controlOf w).data.isSome = true
      ↔ (fieldOpcode w = opLoad ∧ (loadSize (fieldFunct3 w)).isSome = true)
        ∨ (fieldOpcode w = opStore ∧ (storeSize (fieldFunct3 w)).isSome = true) := by
  simp only [Option.isSome_iff_exists]
  constructor
  · rintro ⟨d, hd⟩
    rcases (control_data_eq_some_iff w d).1 hd with ⟨ho, -, hsize⟩ | ⟨ho, -, hsize⟩
    · exact .inl ⟨ho, _, hsize⟩
    · exact .inr ⟨ho, _, hsize⟩
  · rintro (⟨ho, size, hsize⟩ | ⟨ho, size, hsize⟩)
    · exact ⟨⟨false, size⟩, (control_data_eq_some_iff w _).2 (.inl ⟨ho, rfl, hsize⟩)⟩
    · exact ⟨⟨true, size⟩, (control_data_eq_some_iff w _).2 (.inr ⟨ho, rfl, hsize⟩)⟩

/-- A data access writes for a STORE, and its width is the one of funct3 (R57, R69, R150). -/
theorem control_data_spec {w : Word} {d : DataControl} (hd : (controlOf w).data = some d) :
    (d.we = true ↔ fieldOpcode w = opStore)
      ∧ (fieldOpcode w = opLoad → loadSize (fieldFunct3 w) = some d.size)
      ∧ (fieldOpcode w = opStore → storeSize (fieldFunct3 w) = some d.size) := by
  have hne : opLoad ≠ opStore := by decide
  rcases (control_data_eq_some_iff w d).1 hd with ⟨ho, hwe, hsize⟩ | ⟨ho, hwe, hsize⟩
  · simp [ho, hwe, hsize, hne]
  · simp [ho, hwe, hsize, hne.symm]

/-- The request of a word with the data control `c`, at the address of the ALU (R57). -/
def requestOf (w : Word) (s : State) (c : DataControl) : DataRequest where
  we := c.we
  size := c.size
  addr := aluOutput w s
  index := translate s (aluOutput w s)
  wdata := readReg (fieldRs2 w) s
  rdata :=
    if inBounds s (aluOutput w s) c.size.bytes && !c.we then some (memValue s (aluOutput w s) c.size.bytes) else none
  oob := !inBounds s (aluOutput w s) c.size.bytes

theorem requestOf_oob_iff (w : Word) (s : State) (c : DataControl) :
    (requestOf w s c).oob = true ↔ inBounds s (aluOutput w s) c.size.bytes = false := by
  simp [requestOf]

/-- An in-bounds load delivers its value (R57). -/
theorem requestOf_rdata_of_load {w : Word} {s : State} {c : DataControl} (hoob : (requestOf w s c).oob = false)
    (hwe : c.we = false) : (requestOf w s c).rdata = some (memValue s (aluOutput w s) c.size.bytes) := by
  have hb : inBounds s (aluOutput w s) c.size.bytes = true := by simpa [requestOf] using hoob
  simp [requestOf, hb, hwe]

/-- A store, or an access out of bounds, delivers none. -/
theorem requestOf_rdata_of_noLoad {w : Word} {s : State} {c : DataControl}
    (h : (requestOf w s c).oob = true ∨ c.we = true) : (requestOf w s c).rdata = none := by
  rcases h with hoob | hwe
  · have hb : inBounds s (aluOutput w s) c.size.bytes = false := (requestOf_oob_iff w s c).1 hoob
    simp [requestOf, hb]
  · simp [requestOf, hwe]

/-- There is a data request exactly where the decoder selects a data access. -/
theorem dataRequest_eq_map (w : Word) (s : State) : dataRequest w s = (controlOf w).data.map (requestOf w s) := by
  unfold dataRequest
  cases (controlOf w).data <;> rfl

theorem outputs_data_of_fetchWord {s : State} {w : Word} (hw : fetchWord s = some w) :
    (outputs s).data = dataRequest w s := by
  rw [outputs, hw]; rfl

theorem outputs_data_of_noFetch {s : State} (hw : fetchWord s = none) : (outputs s).data = none := by
  rw [outputs, hw]; rfl

theorem outputs_retired_iff (s : State) : (outputs s).retired = true ↔ ∃ t, step s = .next t := by
  unfold outputs
  cases step s <;> simp

theorem outputs_fault_iff (s : State) (n : BitVec 2) (a : Word) :
    (outputs s).fault = some (n, a) ↔ ∃ kind, step s = .fault (.outOfBounds kind a) ∧ n = kind.number := by
  rcases h : step s with t | ⟨kind, b⟩ | r <;> simp only [outputs, h]
  · exact ⟨nofun, nofun⟩
  · constructor
    · intro hf
      cases hf
      exact ⟨kind, rfl, rfl⟩
    · rintro ⟨kind', hf, rfl⟩
      cases hf
      rfl
  · exact ⟨nofun, nofun⟩

end Sys2Proof.Machine

/-! The statements of 20_memory.md. -/

namespace Sys2Proof.Machine

/-- Settles O14: the check on the last byte is the check on every byte, and the subtraction cannot underflow. -/
theorem boundsCheckIsTheStatedOne : Obligations.BoundsCheckIsTheStatedOne := by
  intro s a size
  have hle := size.bytes_le
  refine ⟨translate_cast s a, fun h4 => ?_, inBounds_iff_forall s a size.bytes_pos⟩
  rw [inBounds_iff]
  omega

/-- Settles O15: the bytes of the read are the bytes at its addresses, and it has no others. -/
theorem readAssemblesBytesLeastSignificantFirst : Obligations.ReadAssemblesBytesLeastSignificantFirst := by
  intro s a size ext rd hs
  have hle := size.bytes_le
  exact ⟨fun hb => loadTo_fault hb ext rd, fun hb =>
    ⟨fun k hk => byteAt_memValue hs hb hk (by omega), fun k hk => Memory.byteOfWord_readLE_of_le _ _ hk⟩⟩

/-- Settles O16: the bytes stored and the frame, and the same bytes read back. -/
theorem writeStoresBytesAndReadsBack : Obligations.WriteStoresBytesAndReadsBack := by
  intro s a v size hw hs
  refine ⟨fun hb => storeFrom_fault hb v, fun hb => ?_⟩
  have hnext := storeFrom_next hb v
  obtain ⟨hb', hv⟩ := memValue_of_stored hw hnext
  have hle := size.bytes_le
  refine ⟨_, hnext, storeBytes_stores hw hs hb v _, hb', ?_⟩
  rw [hv, toNat_setWidth_setWidth (by omega)]

/-- Settles O17: each load extends the stored value, cut to the width. -/
theorem storeThenLoadReturnsTheStoredValue : Obligations.StoreThenLoadReturnsTheStoredValue := by
  intro s t rs2 rs1 rd imm hw _ hrd
  refine ⟨fun h => ⟨?_, ?_⟩, fun h => ⟨?_, ?_⟩, fun h => ?_⟩
  · exact exists_loadTo_of_stored hw h hrd ((extByteUnsigned_setWidth _).trans (setWidth_setWidth_eq_and _ 8))
  · exact exists_loadTo_of_stored hw h hrd (extByteSigned_setWidth _)
  · exact exists_loadTo_of_stored hw h hrd ((extHalfUnsigned_setWidth _).trans (setWidth_setWidth_eq_and _ 16))
  · exact exists_loadTo_of_stored hw h hrd (extHalfSigned_setWidth _)
  · exact exists_loadTo_of_stored hw h hrd ((BitVec.setWidth_eq _).trans (BitVec.setWidth_eq _))

/-- Settles O18: both loads read a slice of the stored word. -/
theorem wordStoreReadsBackAsBytes : Obligations.WordStoreReadsBackAsBytes := by
  intro s t rs2 rs1 rd r imm off k hw hs hrd h
  refine ⟨fun hk ha => ?_, fun ha => ?_⟩
  · exact exists_loadTo_of_storedWord (size := .byte) hw hs h hrd hk ha (extByteUnsigned_setWidth _)
  · exact exists_loadTo_of_storedWord (size := .half) (k := 1) hw hs h hrd (by decide) ha (extHalfUnsigned_setWidth _)

/-- Settles O19: the word fetched is the 4-byte read at the pc, and a word is its four bytes. -/
theorem fetchReadsFourBytesAtThePc : Obligations.FetchReadsFourBytesAtThePc := by
  intro s hs
  refine ⟨fun hb => by rw [fetchWord, hb]; rfl, fun hb => ?_⟩
  have hbyte : ∀ k, k < 4 → byteAt s (s.pc + BitVec.ofNat 32 k) = some (byteOfWord (memValue s s.pc 4) k) :=
    fun k hk => byteAt_memValue hs hb hk hk
  have h0 := hbyte 0 (by decide)
  rw [BitVec.add_zero] at h0
  refine ⟨_, _, _, _, h0, hbyte 1 (by decide), hbyte 2 (by decide), hbyte 3 (by decide), ?_⟩
  rw [append_byteOfWord, fetchWord, if_pos hb]

/-- Settles O26: only a STORE of a width commits a store. -/
theorem onlyStoresChangeMemory : Obligations.OnlyStoresChangeMemory := by
  intro s t w hw h hno
  obtain ⟨rfl, -⟩ := eq_commitWord_of_step hw h
  have hmem : (commitWord w s).mem = s.mem := by
    rcases commitWord_cases w s with hc | ⟨size, hd, -⟩
    · rw [hc, commit_mem]
    · rcases (control_data_eq_some_iff w _).1 hd with ⟨-, hwe, -⟩ | ⟨ho, -, hsize⟩
      · cases hwe
      · simp [ho, hsize] at hno
  exact ⟨hmem, byteAt_congr (commitWord_base w s) (commitWord_memSize w s) hmem⟩

/-- Settles O28: the fetch at the address stored to is a word read there. -/
theorem fetchSeesAnEarlierStore : Obligations.FetchSeesAnEarlierStore := by
  intro s t rs2 rs1 imm hw h
  obtain ⟨hb, hv⟩ := memValue_of_storedWord hw h
  calc fetchWord (setPc (effectiveAddress rs1 imm s) t)
      = some (memValue t (effectiveAddress rs1 imm s) 4) := if_pos hb
    _ = some (readReg rs2 s) := congrArg some hv

/-- Settles O36: the step's outcome gives `retired` and the fault outputs, the decoder's data control the data request. -/
theorem outputPortsReportTheStep : Obligations.OutputPortsReportTheStep := by
  intro s
  refine ⟨⟨rfl, rfl, rfl⟩, outputs_retired_iff s, outputs_fault_iff s, outputs_data_of_noFetch, fun w hw => ?_⟩
  rw [outputs_data_of_fetchWord hw, dataRequest_eq_map]
  refine ⟨by rw [Option.isSome_map, control_data_isSome_iff], fun d hd => ?_⟩
  obtain ⟨c, hc, rfl⟩ := Option.map_eq_some_iff.1 hd
  obtain ⟨hwe, hload, hstore⟩ := control_data_spec hc
  exact ⟨hwe, hload, hstore, aluOutput_of_data hc s, rfl, rfl, requestOf_oob_iff w s c, requestOf_rdata_of_load,
    requestOf_rdata_of_noLoad⟩

end Sys2Proof.Machine

/-! SUPPORT. The decoder (R61 to R77): that it inverts the encoder and answers only well-formed instructions, that it does not
read the ignored bits, what it answers for each value of decode_status, and the immediates bit by bit with their ranges. -/

namespace Sys2Proof

/-! ### The decoder and the encoder -/

/-- Decoding inverts encoding, format by format: the fields of an encoded word are its operands. -/
theorem decode_encode {i : Instr} (h : i.wf = true) : decode (encode i) = .instr i := by
  cases i with
  | lui | auipc => simp [encode, decode_lui, decode_auipc]
  | jal => simp [encode, decode_jal, fieldImmJ_encJ _ _ _ h]
  | jalr => simp [encode, decode_jalr]
  | beq | bne | blt | bge | bltu | bgeu =>
    simp [encode, decode_branch, decodeBranch, fieldImmB_encB _ _ _ _ _ h]
  | lb | lh | lw | lbu | lhu => simp [encode, decode_load, decodeLoad]
  | sb | sh | sw => simp [encode, decode_store, decodeStore]
  | addi | slti | sltiu | xori | ori | andi | slli | srli | srai => simp [encode, decode_opImm, decodeOpImm]
  | add | sub | sll | slt | sltu | xor | srl | sra | or | and => simp [encode, decode_op, decodeOp]
  | fence rd rs1 fm pred succ =>
    have hop : fieldOpcode (encode (.fence rd rs1 fm pred succ)) ∉ recognizedOpcodes := by
      rw [encode, fieldOpcode_encFence]
      decide
    rw [decode_other hop, encode]
    simp [decodeOther]
  | ecall => decide
  | ebreak => decide

/-! ### Decoded instructions are well-formed (R65, R67) -/

theorem decodeOpImm_wf (w : Word) : (decodeOpImm w).wf = true := by
  unfold decodeOpImm; split_ifs <;> rfl

theorem decodeOp_wf (w : Word) : (decodeOp w).wf = true := by
  unfold decodeOp; split_ifs <;> rfl

theorem decodeBranch_wf {w : Word} {i : Instr} (h : decodeBranch w = .instr i) : i.wf = true := by
  unfold decodeBranch at h
  split_ifs at h <;> cases h <;> exact evenOffsetB_fieldImmB w

theorem decodeLoad_wf {w : Word} {i : Instr} (h : decodeLoad w = .instr i) : i.wf = true := by
  unfold decodeLoad at h
  split_ifs at h <;> cases h <;> rfl

theorem decodeStore_wf {w : Word} {i : Instr} (h : decodeStore w = .instr i) : i.wf = true := by
  unfold decodeStore at h
  split_ifs at h <;> cases h <;> rfl

theorem decodeOther_wf {w : Word} {i : Instr} (h : decodeOther w = .instr i) : i.wf = true := by
  unfold decodeOther at h
  split_ifs at h <;> cases h <;> rfl

/-- Only branches and JAL carry a condition, and their offset fields are even. -/
theorem wf_of_decode {w : Word} {i : Instr} (h : decode w = .instr i) : i.wf = true := by
  rcases opcode_cases w with ho | ho | ho | ho | ho | ho | ho | ho | ho | ho
  · rw [decode_lui ho] at h; cases h; rfl
  · rw [decode_auipc ho] at h; cases h; rfl
  · rw [decode_jal ho] at h; cases h; exact evenOffsetJ_fieldImmJ w
  · rw [decode_jalr ho] at h; cases h; rfl
  · exact decodeBranch_wf (decode_branch ho ▸ h)
  · exact decodeLoad_wf (decode_load ho ▸ h)
  · exact decodeStore_wf (decode_store ho ▸ h)
  · rw [decode_opImm ho] at h; cases h; exact decodeOpImm_wf w
  · rw [decode_op ho] at h; cases h; exact decodeOp_wf w
  · exact decodeOther_wf (decode_other ho ▸ h)

/-! ### Ignored bits (R73) -/

/-- Two words that agree under a mask agree on every field the mask covers. -/
theorem extractLsb'_eq_of_and_eq {w v m : Word} (h : w &&& m = v &&& m) {k n : Nat}
    (hm : m.extractLsb' k n = BitVec.allOnes n) : w.extractLsb' k n = v.extractLsb' k n := by
  have := congrArg (BitVec.extractLsb' k n) h
  rwa [BitVec.extractLsb'_and, BitVec.extractLsb'_and, hm, BitVec.and_allOnes, BitVec.and_allOnes] at this

theorem fieldBit30_eq_of_and_eq {w v m : Word} (h : w &&& m = v &&& m) (hm : fieldBit30 m = true) :
    fieldBit30 w = fieldBit30 v := by
  rw [fieldBit30_of_mask h hm, fieldBit30_and, hm, Bool.and_true]

/-- Two words with the same fields below funct7 (R61). -/
structure SameLowFields (w v : Word) : Prop where
  opcode : fieldOpcode w = fieldOpcode v
  rd : fieldRd w = fieldRd v
  funct3 : fieldFunct3 w = fieldFunct3 v
  rs1 : fieldRs1 w = fieldRs1 v
  rs2 : fieldRs2 w = fieldRs2 v

theorem sameLowFields_of_and_eq {w v : Word} (h : w &&& 0x01FFFFFF#32 = v &&& 0x01FFFFFF#32) : SameLowFields w v where
  opcode := extractLsb'_eq_of_and_eq h (by decide)
  rd := extractLsb'_eq_of_and_eq h (by decide)
  funct3 := extractLsb'_eq_of_and_eq h (by decide)
  rs1 := extractLsb'_eq_of_and_eq h (by decide)
  rs2 := extractLsb'_eq_of_and_eq h (by decide)

/-- The mask with bit 30 keeps that bit and the fields below funct7. -/
theorem sameLowFields_and_fieldBit30_of_and_eq {w v : Word} (h : w &&& 0x41FFFFFF#32 = v &&& 0x41FFFFFF#32) :
    SameLowFields w v ∧ fieldBit30 w = fieldBit30 v := by
  have hmask : 0x01FFFFFF#32 = 0x41FFFFFF#32 &&& 0x01FFFFFF#32 := by decide
  refine ⟨sameLowFields_of_and_eq ?_, fieldBit30_eq_of_and_eq h (by decide)⟩
  rw [hmask, ← BitVec.and_assoc, h, BitVec.and_assoc]

/-- An OP word decodes by its fields below funct7 and, for funct3 0 and 5, its bit 30 (R72, R73). -/
theorem decode_op_congr {w v : Word} (ho : fieldOpcode w = opOp) (h : SameLowFields w v)
    (hb : fieldFunct3 w = 0#3 ∨ fieldFunct3 w = 5#3 → fieldBit30 w = fieldBit30 v) : decode v = decode w := by
  rw [decode_op ho, decode_op (h.opcode ▸ ho), decodeOp, decodeOp, ← h.funct3, ← h.rd, ← h.rs1, ← h.rs2]
  by_cases hf : fieldFunct3 w = 0#3 ∨ fieldFunct3 w = 5#3
  · rw [hb hf]
  · rw [not_or] at hf
    simp only [hf.1, hf.2, if_false]

/-- An immediate shift decodes by its fields below funct7 and, for funct3 5, its bit 30 (R72, R73). -/
theorem decode_opImm_shift_congr {w v : Word} (ho : fieldOpcode w = opOpImm) (h : SameLowFields w v)
    (hf : fieldFunct3 w = 1#3 ∨ fieldFunct3 w = 5#3 ∧ fieldBit30 w = fieldBit30 v) : decode v = decode w := by
  rw [decode_opImm ho, decode_opImm (h.opcode ▸ ho), decodeOpImm, decodeOpImm, ← h.funct3, ← h.rd, ← h.rs1, ← h.rs2]
  rcases hf with hf | ⟨hf, hb⟩
  · simp [hf]
  · simp [hf, hb]

/-- JALR decodes whatever its funct3 (R73). -/
theorem decode_jalr_congr {w v : Word} (ho : fieldOpcode w = opJalr)
    (h : w &&& 0xFFFF8FFF#32 = v &&& 0xFFFF8FFF#32) : decode v = decode w := by
  have hop : fieldOpcode w = fieldOpcode v := extractLsb'_eq_of_and_eq h (by decide)
  have hrd : fieldRd w = fieldRd v := extractLsb'_eq_of_and_eq h (by decide)
  have hrs1 : fieldRs1 w = fieldRs1 v := extractLsb'_eq_of_and_eq h (by decide)
  have himm : fieldImmI w = fieldImmI v := extractLsb'_eq_of_and_eq h (by decide)
  rw [decode_jalr ho, decode_jalr (hop ▸ ho), hrd, hrs1, himm]

/-! ### decode_status and the decoder (R77) -/

/-- FENCE, ECALL and EBREAK (R201 to R203). -/
def Instr.isNoEffect : Instr → Bool
  | .fence .. | .ecall | .ebreak => true
  | _ => false

theorem isNoEffect_iff_mnemonic (i : Instr) :
    i.isNoEffect = true ↔ i.mnemonic = "FENCE" ∨ i.mnemonic = "ECALL" ∨ i.mnemonic = "EBREAK" := by
  constructor
  · intro h
    cases i with
    | fence => exact .inl rfl
    | ecall => exact .inr (.inl rfl)
    | ebreak => exact .inr (.inr rfl)
    | _ => cases h
  · intro h
    cases i with
    | fence | ecall | ebreak => rfl
    | _ => simp [Instr.mnemonic] at h

/-- The words of the three rows whose rule is in file 47, as decode_status tests them (R77). -/
def noEffectWord (w : Word) : Prop := w &&& 0x0000707F#32 = 0x0000000F#32 ∨ w = 0x00000073#32 ∨ w = 0x00100073#32

theorem opcode_not_mem_of_noEffectWord {w : Word} (h : noEffectWord w) : fieldOpcode w ∉ recognizedOpcodes := by
  rcases h with h | rfl | rfl
  · rw [((row_fence w).1 h).1]; decide
  · decide
  · decide

theorem decodeOpImm_isNoEffect (w : Word) : (decodeOpImm w).isNoEffect = false := by
  unfold decodeOpImm; split_ifs <;> rfl

theorem decodeOp_isNoEffect (w : Word) : (decodeOp w).isNoEffect = false := by
  unfold decodeOp; split_ifs <;> rfl

/-- A word with one of the 37 rows decodes to an instruction other than FENCE, ECALL and EBREAK. -/
theorem exists_instr_of_recognized {w : Word} (h : recognized w) :
    ∃ i, decode w = .instr i ∧ i.isNoEffect = false := by
  rcases h with h | h | h | h | ⟨h, h2, h3⟩ | ⟨h, h3, h6, h7⟩ | ⟨h, hf⟩ | h | h
  · exact ⟨_, decode_lui h, rfl⟩
  · exact ⟨_, decode_auipc h, rfl⟩
  · exact ⟨_, decode_jal h, rfl⟩
  · exact ⟨_, decode_jalr h, rfl⟩
  · have hf : fieldFunct3 w = 0#3 ∨ fieldFunct3 w = 1#3 ∨ fieldFunct3 w = 4#3 ∨ fieldFunct3 w = 5#3
        ∨ fieldFunct3 w = 6#3 ∨ fieldFunct3 w = 7#3 := by have := funct3_cases (fieldFunct3 w); tauto
    rw [decode_branch h]
    rcases hf with hf | hf | hf | hf | hf | hf <;> simp only [decodeBranch, hf] <;> exact ⟨_, rfl, rfl⟩
  · have hf : fieldFunct3 w = 0#3 ∨ fieldFunct3 w = 1#3 ∨ fieldFunct3 w = 2#3 ∨ fieldFunct3 w = 4#3
        ∨ fieldFunct3 w = 5#3 := by have := funct3_cases (fieldFunct3 w); tauto
    rw [decode_load h]
    rcases hf with hf | hf | hf | hf | hf <;> simp only [decodeLoad, hf] <;> exact ⟨_, rfl, rfl⟩
  · rw [decode_store h]
    rcases hf with hf | hf | hf <;> simp only [decodeStore, hf] <;> exact ⟨_, rfl, rfl⟩
  · exact ⟨_, decode_opImm h, decodeOpImm_isNoEffect w⟩
  · exact ⟨_, decode_op h, decodeOp_isNoEffect w⟩

theorem exists_instr_of_noEffectWord {w : Word} (h : noEffectWord w) :
    ∃ i, decode w = .instr i ∧ i.isNoEffect = true := by
  rw [decode_other (opcode_not_mem_of_noEffectWord h)]
  rcases h with h | rfl | rfl
  · exact ⟨_, if_pos ((row_fence w).1 h), rfl⟩
  · exact ⟨.ecall, by decide, rfl⟩
  · exact ⟨.ebreak, by decide, rfl⟩

/-- A word that no row matches decodes to a word outside the table (R137, R146, R154, R204). -/
theorem exists_unlisted_of_noRow {w : Word} (hr : ¬ recognized w) (hn : ¬ noEffectWord w) :
    ∃ u, decode w = .unlisted u := by
  simp only [recognized, not_or, not_and, ne_eq, Decidable.not_not] at hr
  obtain ⟨hlui, hauipc, hjal, hjalr, hbranch, hload, hstore, hopImm, hop⟩ := hr
  rcases opcode_cases w with h | h | h | h | h | h | h | h | h | h
  · contradiction
  · contradiction
  · contradiction
  · contradiction
  · have hf : fieldFunct3 w = 2#3 ∨ fieldFunct3 w = 3#3 := Classical.or_iff_not_imp_left.2 (hbranch h)
    rw [decode_branch h]
    rcases hf with hf | hf <;> simp [decodeBranch, hf]
  · have hf : fieldFunct3 w = 3#3 ∨ fieldFunct3 w = 6#3 ∨ fieldFunct3 w = 7#3 := by tauto
    rw [decode_load h]
    rcases hf with hf | hf | hf <;> simp [decodeLoad, hf]
  · obtain ⟨h0, h1, h2⟩ := hstore h
    simp [decode_store h, decodeStore, h0, h1, h2]
  · contradiction
  · contradiction
  · simp only [noEffectWord, row_fence, not_or] at hn
    obtain ⟨hfence, hecall, hebreak⟩ := hn
    rw [decode_other h, decodeOther, if_neg hfence, if_neg hecall, if_neg hebreak]
    exact ⟨_, rfl⟩

/-- decode_status and the decoder's answer, for the three kinds of words (R77). -/
theorem decodeStatus_cases (w : Word) :
    ((decodeStatus w = .ok ∨ decodeStatus w = .aliased) ∧ ∃ i, decode w = .instr i ∧ i.isNoEffect = false)
    ∨ (decodeStatus w = .noEffect ∧ ∃ i, decode w = .instr i ∧ i.isNoEffect = true)
    ∨ (decodeStatus w = .unrecognized ∧ ∃ u, decode w = .unlisted u) := by
  by_cases hr : recognized w
  · exact .inl ⟨decodeStatus_of_recognized hr, exists_instr_of_recognized hr⟩
  · have hs := decodeStatus_of_not_recognized hr
    by_cases hn : noEffectWord w
    · exact .inr (.inl ⟨hs.trans (if_pos hn), exists_instr_of_noEffectWord hn⟩)
    · exact .inr (.inr ⟨hs.trans (if_neg hn), exists_unlisted_of_noRow hr hn⟩)

/-! ### The immediates bit by bit (R63 to R67) -/

theorem immI_getLsbD (w : Word) {k : Nat} (hk : k < 32) :
    (immI w).getLsbD k = if k < 11 then w.getLsbD (k + 20) else w.getLsbD 31 := by
  simp only [immI, sext12, fieldImmI, BitVec.getLsbD_signExtend, BitVec.msb_extractLsb', BitVec.getLsbD_extractLsb']
  grind

theorem immS_getLsbD (w : Word) {k : Nat} (hk : k < 32) :
    (immS w).getLsbD k =
      if k < 5 then w.getLsbD (k + 7) else if k < 11 then w.getLsbD (k + 20) else w.getLsbD 31 := by
  simp only [immS, sext12, fieldImmS, BitVec.getLsbD_signExtend, BitVec.msb_append, BitVec.msb_extractLsb',
    BitVec.getLsbD_append, BitVec.getLsbD_extractLsb']
  grind

theorem immB_getLsbD (w : Word) {k : Nat} (hk : k < 32) :
    (immB w).getLsbD k =
      if k = 0 then false else if k < 5 then w.getLsbD (k + 7) else if k < 11 then w.getLsbD (k + 20)
      else if k = 11 then w.getLsbD 7 else w.getLsbD 31 := by
  simp only [immB, sext13, fieldImmB, BitVec.getLsbD_signExtend, BitVec.msb_append, BitVec.msb_extractLsb',
    BitVec.getLsbD_append, BitVec.getLsbD_extractLsb']
  grind

theorem immJ_getLsbD (w : Word) {k : Nat} (hk : k < 32) :
    (immJ w).getLsbD k =
      if k = 0 then false else if k < 11 then w.getLsbD (k + 20) else if k = 11 then w.getLsbD 20
      else if k < 20 then w.getLsbD k else w.getLsbD 31 := by
  simp only [immJ, sext21, fieldImmJ, BitVec.getLsbD_signExtend, BitVec.msb_append, BitVec.msb_extractLsb',
    BitVec.getLsbD_append, BitVec.getLsbD_extractLsb']
  grind

theorem immU_getLsbD (w : Word) {k : Nat} (hk : k < 32) :
    (immU w).getLsbD k = if k < 12 then false else w.getLsbD k := by
  simp only [immU, upper20, fieldImmU, BitVec.getLsbD_append, BitVec.getLsbD_extractLsb']
  grind

theorem immU_eq_and (w : Word) : immU w = w &&& 0xFFFFF000#32 := by
  have hmask : ∀ k : Nat, k < 32 → (0xFFFFF000#32).getLsbD k = decide (12 ≤ k) := by decide
  apply BitVec.eq_of_getLsbD_eq
  intro k hk
  rw [immU_getLsbD w hk, BitVec.getLsbD_and, hmask k hk]
  grind

/-- An `n`-bit field and a 0 bit after it, read as a signed number: even, and twice the field's range. -/
theorem toInt_append_zero_bounds {n : Nat} (x : BitVec n) :
    -2 ^ n ≤ (x ++ 0#1).toInt ∧ (x ++ 0#1).toInt < 2 ^ n ∧ (x ++ 0#1).toInt % 2 = 0 := by
  have hlo := x.le_two_mul_toInt
  have hhi := x.two_mul_toInt_lt
  rw [BitVec.toInt_append_zero]
  omega

theorem toInt_sext12_bounds (v : BitVec 12) : -2048 ≤ (sext12 v).toInt ∧ (sext12 v).toInt ≤ 2047 := by
  have hlo := v.le_toInt
  have hhi := v.toInt_lt
  rw [sext12, BitVec.toInt_signExtend_of_le (by decide)]
  omega

theorem toInt_immB_bounds (w : Word) :
    -4096 ≤ (immB w).toInt ∧ (immB w).toInt ≤ 4094 ∧ (immB w).toInt % 2 = 0 := by
  obtain ⟨x, hx⟩ : ∃ x : BitVec 12, fieldImmB w = x ++ 0#1 := ⟨_, rfl⟩
  have h := toInt_append_zero_bounds x
  rw [immB, sext13, BitVec.toInt_signExtend_of_le (by decide), hx]
  omega

theorem toInt_immJ_bounds (w : Word) :
    -1048576 ≤ (immJ w).toInt ∧ (immJ w).toInt ≤ 1048574 ∧ (immJ w).toInt % 2 = 0 := by
  obtain ⟨x, hx⟩ : ∃ x : BitVec 20, fieldImmJ w = x ++ 0#1 := ⟨_, rfl⟩
  have h := toInt_append_zero_bounds x
  rw [immJ, sext21, BitVec.toInt_signExtend_of_le (by decide), hx]
  omega

end Sys2Proof

/-! The statements of 30_encoding.md. -/

namespace Sys2Proof.Machine

/-- Settles O1: the decoder reads back every field the encoder wrote. -/
theorem decodeOfEncodeIsTheInstruction : Obligations.DecodeOfEncodeIsTheInstruction := fun _ h => decode_encode h

/-- Settles O3: the offset fields end in a 0 bit. -/
theorem decodedInstructionsAreWellFormed : Obligations.DecodedInstructionsAreWellFormed := fun _ _ h => wf_of_decode h

/-- Settles O5, over the three kinds of words that decode_status tells apart. -/
theorem decodeStatusAgreesWithTheDecoder : Obligations.DecodeStatusAgreesWithTheDecoder := by
  intro w
  simp only [← isNoEffect_iff_mnemonic]
  rcases decodeStatus_cases w with ⟨hs | hs, i, hd, hi⟩ | ⟨hs, i, hd, hi⟩ | ⟨hs, u, hd⟩
  · simp [hs, hd, hi]
  · simp [hs, hd, hi]
  · simp [hs, hd, hi]
  · simp [hs, hd]

/-- Settles O6: the masks keep every field the decoder reads. -/
theorem ignoredBitsDoNotChangeDecoding : Obligations.IgnoredBitsDoNotChangeDecoding := by
  intro w v
  refine ⟨fun ho _ h => ?_, fun ho h0 h5 h => ?_, fun ho hf h => ?_, fun ho hf h => ?_, decode_jalr_congr⟩
  · obtain ⟨hlow, hbit⟩ := sameLowFields_and_fieldBit30_of_and_eq h
    exact decode_op_congr ho hlow fun _ => hbit
  · exact decode_op_congr ho (sameLowFields_of_and_eq h) fun hf => absurd hf (not_or.2 ⟨h0, h5⟩)
  · exact decode_opImm_shift_congr ho (sameLowFields_of_and_eq h) (.inl hf)
  · obtain ⟨hlow, hbit⟩ := sameLowFields_and_fieldBit30_of_and_eq h
    exact decode_opImm_shift_congr ho hlow (.inr ⟨hf, hbit⟩)

/-- Settles O8: each offset is a signed field followed by a 0 bit. -/
theorem offsetAndUpperImmediateBits : Obligations.OffsetAndUpperImmediateBits := by
  intro w
  obtain ⟨hBlo, hBhi, hBeven⟩ := toInt_immB_bounds w
  exact ⟨fun _ => immB_getLsbD w, hBlo, hBhi, hBeven, fun _ => immU_getLsbD w, immU_eq_and w, fun _ => immJ_getLsbD w,
    toInt_immJ_bounds w⟩

/-- Settles O9: both immediates are sign-extended 12-bit fields. -/
theorem signedTwelveBitImmediateBits : Obligations.SignedTwelveBitImmediateBits := by
  intro w
  obtain ⟨hIlo, hIhi⟩ := toInt_sext12_bounds (fieldImmI w)
  obtain ⟨hSlo, hShi⟩ := toInt_sext12_bounds (fieldImmS w)
  exact ⟨fun _ => immI_getLsbD w, hIlo, hIhi, fun _ => immS_getLsbD w, hSlo, hShi, shiftAmount_immI w⟩

/-- Settles O22: a step faults at its fetch, commits the word fetched, or faults at that word's data access. -/
theorem stepNeverRefuses : Obligations.StepNeverRefuses := by
  intro s r
  rcases step_cases s with ⟨-, hfault⟩ | ⟨-, hw, -⟩
  · rw [hfault]
    exact nofun
  · rcases step_cases_of_fetchWord hw with ⟨-, hnext⟩ | ⟨d, -, -, hfault⟩
    · rw [hnext]
      exact nofun
    · rw [hfault]
      exact nofun

end Sys2Proof.Machine

/-! SUPPORT. The step engine (R90 to R103): the ALU's arithmetic operations over the integers, the write-back of a computed
word, and the word that a fetch makes of the four bytes at the pc. -/

namespace Sys2Proof.Machine

theorem toNat_alu_sub (a b : Word) : ((alu .sub a b).toNat : Int) = ((a.toNat : Int) - b.toNat) % 2 ^ 32 := by
  rw [alu, BitVec.toNat_sub]
  omega

theorem toNat_alu_sll (a b : Word) : (alu .sll a b).toNat = a.toNat * 2 ^ (b.toNat % 32) % 2 ^ 32 := by
  rw [alu, shiftAmount_eq, BitVec.toNat_shiftLeft, Nat.shiftLeft_eq]

theorem toNat_alu_srl (a b : Word) : (alu .srl a b).toNat = a.toNat / 2 ^ (b.toNat % 32) := by
  rw [alu, shiftAmount_eq, BitVec.toNat_ushiftRight, Nat.shiftRight_eq_div_pow]

/-- Shifting the sign in is floor division: `/` on `Int` rounds down for a positive divisor. -/
theorem toInt_alu_sra (a b : Word) : (alu .sra a b).toInt = a.toInt / 2 ^ (b.toNat % 32) := by
  rw [alu, shiftAmount_eq, BitVec.toInt_sshiftRight, Int.shiftRight_eq_div_pow, Nat.cast_pow, Nat.cast_ofNat]

theorem exists_writeBack_retires (rd : RegIdx) (v : Word) (s : State) :
    ∃ t, writeBack rd v s = .next t ∧ Retires s t rd v (s.pc + 4#32) :=
  ⟨_, rfl, commit_retires rd v _ s⟩

theorem fetchWord_eq_wordOfBytes {s : State} {b0 b1 b2 b3 : Byte} (hs : s.memSize ≤ 2 ^ 32)
    (hb : inBounds s s.pc 4 = true) (h0 : byteAt s s.pc = some b0) (h1 : byteAt s (s.pc + 1#32) = some b1)
    (h2 : byteAt s (s.pc + 2#32) = some b2) (h3 : byteAt s (s.pc + 3#32) = some b3) :
    fetchWord s = some (wordOfBytes b0 b1 b2 b3) := by
  obtain ⟨c0, c1, c2, c3, hc0, hc1, hc2, hc3, hw⟩ := (fetchReadsFourBytesAtThePc s hs).2 hb
  cases h0.symm.trans hc0
  cases h1.symm.trans hc1
  cases h2.symm.trans hc2
  cases h3.symm.trans hc3
  exact hw

end Sys2Proof.Machine

/-! The statements of 40_step_engine.md. -/

namespace Sys2Proof.Machine

/-- Settles O21: opcode by opcode, what the decoded instruction does is what the decoder's selections commit. -/
theorem stepEqualsTheDatapathStep : Obligations.StepEqualsTheDatapathStep := step_eq_datapathStep

/-- Settles O13, operation by operation. -/
theorem aluComputesTheStatedFunctions : Obligations.AluComputesTheStatedFunctions := by
  intro a b
  exact ⟨BitVec.toNat_add a b, toNat_alu_sub a b, toNat_alu_sll a b, boolWord_ltSigned a b, boolWord_ltUnsigned a b,
    toNat_alu_srl a b, toInt_alu_sra a b, fun k _ => ⟨BitVec.getLsbD_xor, BitVec.getLsbD_or, BitVec.getLsbD_and⟩⟩

/-- Settles O53: the effect of each of the two opcodes is the write-back of the selected ALU operation. -/
theorem integerWordsRunTheSelectedOperation : Obligations.IntegerWordsRunTheSelectedOperation := by
  intro s w hw
  refine ⟨fun h => ?_, fun h => ?_⟩
  · rw [step_of_fetchWord hw, execDecoded_opImm h]
    exact exists_writeBack_retires _ _ s
  · rw [step_of_fetchWord hw, execDecoded_op h]
    exact exists_writeBack_retires _ _ s

/-- Settles O20: the fetched word is the one the four bytes make, and a step is the effect of what it decodes to. -/
theorem stepRunsTheDecodedInstruction : Obligations.StepRunsTheDecodedInstruction := by
  intro s b0 b1 b2 b3 hs hb h0 h1 h2 h3
  have hstep : step s = execDecoded (decodeBytes b0 b1 b2 b3) s :=
    step_of_fetchWord (fetchWord_eq_wordOfBytes hs hb h0 h1 h2 h3)
  refine ⟨fun i hi => ?_, fun u hu => ?_⟩
  · rw [hstep, hi]; rfl
  · rw [hstep, hu]; rfl

end Sys2Proof.Machine

/-! The statements of 41_upper_immediate.md. Each of the two instructions is one write-back. -/

namespace Sys2Proof.Machine

theorem exec_lui_eq_writeBack (rd : RegIdx) (imm : BitVec 20) (s : State) :
    exec (.lui rd imm) s = writeBack rd (imm ++ 0#12) s := rfl

theorem exec_auipc_eq_writeBack (rd : RegIdx) (imm : BitVec 20) (s : State) :
    exec (.auipc rd imm) s = writeBack rd (s.pc + (imm ++ 0#12)) s := rfl

/-- Settles O37: the row fixes the opcode alone, and the value written back reads no register. -/
theorem luiLoadsTheUpperImmediate : Obligations.LuiLoadsTheUpperImmediate := by
  refine ⟨fun w hrow => decode_lui ((row_lui w).1 hrow), fun rd imm s => ?_⟩
  rw [exec_lui_eq_writeBack]
  exact exists_writeBack_retires rd _ s

/-- Settles O38: the row fixes the opcode alone, and the pc added is the one before the step. -/
theorem auipcAddsTheUpperImmediateToThePc : Obligations.AuipcAddsTheUpperImmediateToThePc := by
  refine ⟨fun w hrow => decode_auipc ((row_auipc w).1 hrow), fun rd imm s => ?_⟩
  rw [exec_auipc_eq_writeBack]
  exact exists_writeBack_retires rd _ s

end Sys2Proof.Machine

/-! The statements of 42_jumps.md. Both jumps are one `linkAndJump`; they differ in the target. -/

namespace Sys2Proof.Machine

theorem exec_jal_eq_linkAndJump (rd : RegIdx) (off : BitVec 21) (s : State) :
    exec (.jal rd off) s = linkAndJump rd (s.pc + off.signExtend 32) s := rfl

theorem exec_jalr_eq_linkAndJump (rd rs1 : RegIdx) (imm : BitVec 12) (s : State) :
    exec (.jalr rd rs1 imm) s = linkAndJump rd ((readReg rs1 s + imm.signExtend 32) &&& 0xFFFFFFFE#32) s := rfl

theorem exists_linkAndJump_retires (rd : RegIdx) (target : Word) (s : State) :
    ∃ t, linkAndJump rd target s = .next t ∧ Retires s t rd (s.pc + 4#32) target :=
  ⟨_, rfl, commit_retires rd _ target s⟩

/-- Without a link register only the pc changes (R23). -/
theorem exists_linkAndJump_zero_onlyPc (target : Word) (s : State) :
    ∃ t, linkAndJump 0#5 target s = .next t ∧ OnlyPc s t target :=
  ⟨_, rfl, setPc_onlyPc target s⟩

/-- JALR's clearing of bit 0 keeps an even target. -/
theorem and_clearBit0_of_even {x : Word} (h : x.getLsbD 0 = false) : x &&& 0xFFFFFFFE#32 = x := by
  have hmask : 0xFFFFFFFE#32 = ~~~BitVec.twoPow 32 0 := by decide
  rw [hmask]
  ext k hk
  cases k with
  | zero => simpa using h
  | succ k => simp

theorem pcPlus4_even_of_pcEven {s : State} (h : pcEven s = true) : (pcPlus4 s).getLsbD 0 = false := by
  rw [pcEven, Bool.not_eq_true'] at h
  rw [pcPlus4, getLsbD_zero_add, h]
  rfl

/-- Settles O39: the row fixes the opcode alone, and the link and the target are taken from the pc before the step. -/
theorem jalLinksAndJumpsRelative : Obligations.JalLinksAndJumpsRelative := by
  refine ⟨fun w hrow => ⟨fieldImmJ w, decode_jal ((row_jal w).1 hrow), rfl⟩, fun rd off s => ?_⟩
  rw [exec_jal_eq_linkAndJump]
  exact exists_linkAndJump_retires rd _ s

/-- Settles O40: the row fixes the opcode alone, and the target is taken from `x[rs1]` before the link is written. -/
theorem jalrLinksAndJumpsToRegister : Obligations.JalrLinksAndJumpsToRegister := by
  refine ⟨fun w hrow => decode_jalr ((row_jalr w).1 hrow), fun rd rs1 imm s => ?_⟩
  rw [exec_jalr_eq_linkAndJump]
  exact exists_linkAndJump_retires rd _ s

/-- Settles O41: the JALR's target is the link, which is even because the pc is, so clearing bit 0 keeps it. -/
theorem jalThenJalrReturnsAfterTheCall : Obligations.JalThenJalrReturnsAfterTheCall := by
  intro s t rd off heven hrd hjal
  obtain ⟨t', hnext, -, hregs, -⟩ := exists_linkAndJump_retires rd (s.pc + off.signExtend 32) s
  cases hjal.symm.trans hnext
  have hlink : readReg rd t = s.pc + 4#32 := by rw [hregs, if_neg hrd, if_pos rfl]
  have htarget : (readReg rd t + (0#12).signExtend 32) &&& 0xFFFFFFFE#32 = s.pc + 4#32 := by
    rw [hlink, show (0#12).signExtend 32 = 0#32 from rfl, BitVec.add_zero]
    exact and_clearBit0_of_even (pcPlus4_even_of_pcEven heven)
  rw [exec_jalr_eq_linkAndJump, htarget]
  exact exists_linkAndJump_zero_onlyPc _ t

end Sys2Proof.Machine

/-! The statements of 43_branches.md. The six branches are one `branchTo`; they differ in the condition. -/

namespace Sys2Proof.Machine

/-! ### The arms of `decodeBranch` (R71), by funct3 -/

theorem decodeBranch_beq {w : Word} (h : fieldFunct3 w = 0#3) :
    decodeBranch w = .instr (.beq (fieldRs1 w) (fieldRs2 w) (fieldImmB w)) := by
  simp [decodeBranch, h]

theorem decodeBranch_bne {w : Word} (h : fieldFunct3 w = 1#3) :
    decodeBranch w = .instr (.bne (fieldRs1 w) (fieldRs2 w) (fieldImmB w)) := by
  simp [decodeBranch, h]

theorem decodeBranch_blt {w : Word} (h : fieldFunct3 w = 4#3) :
    decodeBranch w = .instr (.blt (fieldRs1 w) (fieldRs2 w) (fieldImmB w)) := by
  simp [decodeBranch, h]

theorem decodeBranch_bge {w : Word} (h : fieldFunct3 w = 5#3) :
    decodeBranch w = .instr (.bge (fieldRs1 w) (fieldRs2 w) (fieldImmB w)) := by
  simp [decodeBranch, h]

theorem decodeBranch_bltu {w : Word} (h : fieldFunct3 w = 6#3) :
    decodeBranch w = .instr (.bltu (fieldRs1 w) (fieldRs2 w) (fieldImmB w)) := by
  simp [decodeBranch, h]

theorem decodeBranch_bgeu {w : Word} (h : fieldFunct3 w = 7#3) :
    decodeBranch w = .instr (.bgeu (fieldRs1 w) (fieldRs2 w) (fieldImmB w)) := by
  simp [decodeBranch, h]

/-- A word of a branch row decodes to the row's branch, and the offset's sign extension is immB (R65). -/
theorem exists_decode_of_branchRow {w : Word} {f : BitVec 3} {mk : BitVec 13 → Instr}
    (hrow : fieldOpcode w = opBranch ∧ fieldFunct3 w = f)
    (harm : fieldFunct3 w = f → decodeBranch w = .instr (mk (fieldImmB w))) :
    ∃ off, decode w = .instr (mk off) ∧ off.signExtend 32 = immB w := by
  obtain ⟨hopcode, hfunct3⟩ := hrow
  exact ⟨fieldImmB w, (decode_branch hopcode).trans (harm hfunct3), rfl⟩

/-! ### The effect of a branch (R130) -/

theorem exec_beq_eq_branchTo (rs1 rs2 : RegIdx) (off : BitVec 13) (s : State) :
    exec (.beq rs1 rs2 off) s = branchTo (readReg rs1 s == readReg rs2 s) (s.pc + off.signExtend 32) s := rfl

theorem exec_bne_eq_branchTo (rs1 rs2 : RegIdx) (off : BitVec 13) (s : State) :
    exec (.bne rs1 rs2 off) s = branchTo (readReg rs1 s != readReg rs2 s) (s.pc + off.signExtend 32) s := rfl

theorem exec_blt_eq_branchTo (rs1 rs2 : RegIdx) (off : BitVec 13) (s : State) :
    exec (.blt rs1 rs2 off) s
      = branchTo (ltSigned (readReg rs1 s) (readReg rs2 s)) (s.pc + off.signExtend 32) s := rfl

theorem exec_bge_eq_branchTo (rs1 rs2 : RegIdx) (off : BitVec 13) (s : State) :
    exec (.bge rs1 rs2 off) s
      = branchTo (!ltSigned (readReg rs1 s) (readReg rs2 s)) (s.pc + off.signExtend 32) s := rfl

theorem exec_bltu_eq_branchTo (rs1 rs2 : RegIdx) (off : BitVec 13) (s : State) :
    exec (.bltu rs1 rs2 off) s
      = branchTo (ltUnsigned (readReg rs1 s) (readReg rs2 s)) (s.pc + off.signExtend 32) s := rfl

theorem exec_bgeu_eq_branchTo (rs1 rs2 : RegIdx) (off : BitVec 13) (s : State) :
    exec (.bgeu rs1 rs2 off) s
      = branchTo (!ltUnsigned (readReg rs1 s) (readReg rs2 s)) (s.pc + off.signExtend 32) s := rfl

theorem not_ltSigned_iff (a b : Word) : (!ltSigned a b) = true ↔ a.toInt ≥ b.toInt := by
  rw [Bool.not_eq_true', ltSigned_eq_false]

theorem not_ltUnsigned_iff (a b : Word) : (!ltUnsigned a b) = true ↔ a.toNat ≥ b.toNat := by
  rw [Bool.not_eq_true', ltUnsigned_eq_false]

/-- A branch whose comparator decides `p` completes and sets only the pc, to the target exactly when `p` holds. -/
theorem exists_branchTo_onlyPc {taken : Bool} {p : Prop} [Decidable p] (hp : taken = true ↔ p) (target : Word)
    (s : State) :
    ∃ t, branchTo taken target s = .next t ∧ OnlyPc s t (if p then target else s.pc + 4#32) := by
  refine ⟨_, rfl, ?_⟩
  rw [if_congr hp rfl rfl]
  exact setPc_onlyPc _ s

/-- Settles O42: each row fixes the opcode and funct3, and each comparator decides the stated comparison. -/
theorem branchesCompareAndJump : Obligations.BranchesCompareAndJump := by
  refine ⟨fun w => ⟨fun hrow => ?_, fun hrow => ?_, fun hrow => ?_, fun hrow => ?_, fun hrow => ?_, fun hrow => ?_⟩,
    fun rs1 rs2 off s => ⟨?_, ?_, ?_, ?_, ?_, ?_⟩⟩
  · exact exists_decode_of_branchRow ((row_beq w).1 hrow) decodeBranch_beq
  · exact exists_decode_of_branchRow ((row_bne w).1 hrow) decodeBranch_bne
  · exact exists_decode_of_branchRow ((row_blt w).1 hrow) decodeBranch_blt
  · exact exists_decode_of_branchRow ((row_bge w).1 hrow) decodeBranch_bge
  · exact exists_decode_of_branchRow ((row_bltu w).1 hrow) decodeBranch_bltu
  · exact exists_decode_of_branchRow ((row_bgeu w).1 hrow) decodeBranch_bgeu
  · rw [exec_beq_eq_branchTo]
    exact exists_branchTo_onlyPc beq_iff_eq _ s
  · rw [exec_bne_eq_branchTo]
    exact exists_branchTo_onlyPc bne_iff_ne _ s
  · rw [exec_blt_eq_branchTo]
    exact exists_branchTo_onlyPc (ltSigned_iff _ _) _ s
  · rw [exec_bge_eq_branchTo]
    exact exists_branchTo_onlyPc (not_ltSigned_iff _ _) _ s
  · rw [exec_bltu_eq_branchTo]
    exact exists_branchTo_onlyPc (ltUnsigned_iff _ _) _ s
  · rw [exec_bgeu_eq_branchTo]
    exact exists_branchTo_onlyPc (not_ltUnsigned_iff _ _) _ s

/-! ### No data access (R138) -/

theorem outputs_fault_of_next {s t : State} (h : step s = .next t) : (outputs s).fault = none := by
  simp only [outputs, h]

/-- Settles O43: the decoder selects no data access for the opcode BRANCH, and a word without one commits no store. -/
theorem branchesNeverAccessMemory : Obligations.BranchesNeverAccessMemory := by
  intro s w hw hbranch
  have hdata : (controlOf w).data = none := by rw [control_branch hbranch]
  have hstep : step s = .next (commitWord w s) := by
    rw [step_eq_datapathStep, datapathStep_of_noData hw hdata]
  refine ⟨_, hstep, ?_, ?_, outputs_fault_of_next hstep⟩
  · rw [commitWord_of_noData hdata, commit_mem]
  · rw [outputs_data_of_fetchWord hw, dataRequest_eq_map, hdata, Option.map_none]

end Sys2Proof.Machine

/-! The statements of 44_loads.md. The five loads are one `loadTo`; they differ in the width and the extension. -/

namespace Sys2Proof.Machine

/-! ### The arms of `decodeLoad` (R71), by funct3 -/

theorem decodeLoad_lb {w : Word} (h : fieldFunct3 w = 0#3) :
    decodeLoad w = .instr (.lb (fieldRd w) (fieldRs1 w) (fieldImmI w)) := by
  simp [decodeLoad, h]

theorem decodeLoad_lh {w : Word} (h : fieldFunct3 w = 1#3) :
    decodeLoad w = .instr (.lh (fieldRd w) (fieldRs1 w) (fieldImmI w)) := by
  simp [decodeLoad, h]

theorem decodeLoad_lw {w : Word} (h : fieldFunct3 w = 2#3) :
    decodeLoad w = .instr (.lw (fieldRd w) (fieldRs1 w) (fieldImmI w)) := by
  simp [decodeLoad, h]

theorem decodeLoad_lbu {w : Word} (h : fieldFunct3 w = 4#3) :
    decodeLoad w = .instr (.lbu (fieldRd w) (fieldRs1 w) (fieldImmI w)) := by
  simp [decodeLoad, h]

theorem decodeLoad_lhu {w : Word} (h : fieldFunct3 w = 5#3) :
    decodeLoad w = .instr (.lhu (fieldRd w) (fieldRs1 w) (fieldImmI w)) := by
  simp [decodeLoad, h]

theorem decode_of_loadRow {w : Word} {f : BitVec 3} {d : Decoded} (hrow : fieldOpcode w = opLoad ∧ fieldFunct3 w = f)
    (harm : fieldFunct3 w = f → decodeLoad w = d) : decode w = d := by
  obtain ⟨hopcode, hfunct3⟩ := hrow
  exact (decode_load hopcode).trans (harm hfunct3)

/-! ### The effect of a load (R140) -/

theorem exec_lb_eq_loadTo (rd rs1 : RegIdx) (imm : BitVec 12) (s : State) :
    exec (.lb rd rs1 imm) s = loadTo .byte extByteSigned rd (readReg rs1 s + imm.signExtend 32) s := rfl

theorem exec_lh_eq_loadTo (rd rs1 : RegIdx) (imm : BitVec 12) (s : State) :
    exec (.lh rd rs1 imm) s = loadTo .half extHalfSigned rd (readReg rs1 s + imm.signExtend 32) s := rfl

theorem exec_lw_eq_loadTo (rd rs1 : RegIdx) (imm : BitVec 12) (s : State) :
    exec (.lw rd rs1 imm) s = loadTo .word extWord rd (readReg rs1 s + imm.signExtend 32) s := rfl

theorem exec_lbu_eq_loadTo (rd rs1 : RegIdx) (imm : BitVec 12) (s : State) :
    exec (.lbu rd rs1 imm) s = loadTo .byte extByteUnsigned rd (readReg rs1 s + imm.signExtend 32) s := rfl

theorem exec_lhu_eq_loadTo (rd rs1 : RegIdx) (imm : BitVec 12) (s : State) :
    exec (.lhu rd rs1 imm) s = loadTo .half extHalfUnsigned rd (readReg rs1 s + imm.signExtend 32) s := rfl

/-- An in-bounds load completes and changes only the pc and, unless it is x0, its register. -/
theorem exists_loadTo_retires {size : AccessSize} {a : Word} {s : State} (hb : inBounds s a size.bytes = true)
    (rd : RegIdx) {ext : Word → Word} {x : Word} (hext : ext (memValue s a size.bytes) = x) :
    ∃ t, loadTo size ext rd a s = .next t ∧ Retires s t rd x (s.pc + 4#32) := by
  rw [loadTo_next hb ext rd, hext]
  exact ⟨_, rfl, commit_retires rd x _ s⟩

/-! ### The load extensions over the bytes of the value read (R69) -/

theorem setWidth_sixteen_eq_append (v : Word) : v.setWidth 16 = byteOfWord v 1 ++ byteOfWord v 0 := by
  apply BitVec.eq_of_getLsbD_eq
  intro j hj
  simp only [byteOfWord, BitVec.getLsbD_append, BitVec.getLsbD_extractLsb', BitVec.getLsbD_setWidth]
  grind

theorem extByteSigned_eq_bytes (v : Word) : extByteSigned v = (byteOfWord v 0).signExtend 32 := by
  rw [extByteSigned, Memory.byteOfWord_zero]

theorem extByteUnsigned_eq_bytes (v : Word) : extByteUnsigned v = (byteOfWord v 0).setWidth 32 := by
  rw [extByteUnsigned, Memory.byteOfWord_zero]

theorem extHalfSigned_eq_bytes (v : Word) :
    extHalfSigned v = (byteOfWord v 1 ++ byteOfWord v 0).signExtend 32 := by
  rw [extHalfSigned, setWidth_sixteen_eq_append]

theorem extHalfUnsigned_eq_bytes (v : Word) :
    extHalfUnsigned v = (byteOfWord v 1 ++ byteOfWord v 0).setWidth 32 := by
  rw [extHalfUnsigned, setWidth_sixteen_eq_append]

theorem extWord_eq_bytes (v : Word) :
    extWord v = byteOfWord v 3 ++ byteOfWord v 2 ++ byteOfWord v 1 ++ byteOfWord v 0 :=
  (append_byteOfWord v).symm

/-- The byte at the address of an in-bounds access is byte 0 of its value. -/
theorem byteAt_memValue_zero {s : State} (hs : s.memSize ≤ 4294967296) {a : Word} {n : Nat} (hb : inBounds s a n = true)
    (hn : 0 < n) : byteAt s a = some (byteOfWord (memValue s a n) 0) := by
  have h := byteAt_memValue hs hb hn (by decide)
  rwa [BitVec.add_zero] at h

/-- Settles O45: each row fixes the opcode and funct3, and each load extends the bytes of one read at its address. -/
theorem loadsReadAndExtend : Obligations.LoadsReadAndExtend := by
  refine ⟨fun w => ⟨fun hrow => ?_, fun hrow => ?_, fun hrow => ?_, fun hrow => ?_, fun hrow => ?_⟩,
    fun rd rs1 imm s a hs ha => ?_⟩
  · exact decode_of_loadRow ((row_lb w).1 hrow) decodeLoad_lb
  · exact decode_of_loadRow ((row_lh w).1 hrow) decodeLoad_lh
  · exact decode_of_loadRow ((row_lw w).1 hrow) decodeLoad_lw
  · exact decode_of_loadRow ((row_lbu w).1 hrow) decodeLoad_lbu
  · exact decode_of_loadRow ((row_lhu w).1 hrow) decodeLoad_lhu
  rw [exec_lb_eq_loadTo, exec_lbu_eq_loadTo, exec_lh_eq_loadTo, exec_lhu_eq_loadTo, exec_lw_eq_loadTo, ← ha]
  refine ⟨fun hb => ?_, fun hb => ?_, fun hb => ?_, fun hb => ?_, fun hb => ?_, fun hb => ?_⟩
  · obtain ⟨t, ht, hsigned⟩ := exists_loadTo_retires (size := .byte) hb rd (extByteSigned_eq_bytes _)
    obtain ⟨t', ht', hunsigned⟩ := exists_loadTo_retires (size := .byte) hb rd (extByteUnsigned_eq_bytes _)
    exact ⟨_, t, t', byteAt_memValue_zero hs hb (by decide), ht, hsigned, ht', hunsigned⟩
  · obtain ⟨t, ht, hsigned⟩ := exists_loadTo_retires (size := .half) hb rd (extHalfSigned_eq_bytes _)
    obtain ⟨t', ht', hunsigned⟩ := exists_loadTo_retires (size := .half) hb rd (extHalfUnsigned_eq_bytes _)
    exact ⟨_, _, t, t', byteAt_memValue_zero hs hb (by decide), byteAt_memValue hs hb (k := 1) (by decide) (by decide),
      ht, hsigned, ht', hunsigned⟩
  · obtain ⟨t, ht, hword⟩ := exists_loadTo_retires (size := .word) hb rd (extWord_eq_bytes _)
    have hbyte : ∀ k, k < 4 → byteAt s (a + BitVec.ofNat 32 k) = some (byteOfWord (memValue s a 4) k) :=
      fun k hk => byteAt_memValue hs hb hk hk
    exact ⟨_, _, _, _, t, byteAt_memValue_zero hs hb (by decide), hbyte 1 (by decide), hbyte 2 (by decide),
      hbyte 3 (by decide), ht, hword⟩
  · exact ⟨loadTo_fault hb _ rd, loadTo_fault hb _ rd⟩
  · exact ⟨loadTo_fault hb _ rd, loadTo_fault hb _ rd⟩
  · exact loadTo_fault hb _ rd

end Sys2Proof.Machine

/-! The statements of 45_stores.md. The three stores are one `storeFrom`; they differ in the width. -/

namespace Sys2Proof.Machine

/-! ### The arms of `decodeStore` (R71), by funct3 -/

theorem decodeStore_sb {w : Word} (h : fieldFunct3 w = 0#3) :
    decodeStore w = .instr (.sb (fieldRs2 w) (fieldRs1 w) (fieldImmS w)) := by
  simp [decodeStore, h]

theorem decodeStore_sh {w : Word} (h : fieldFunct3 w = 1#3) :
    decodeStore w = .instr (.sh (fieldRs2 w) (fieldRs1 w) (fieldImmS w)) := by
  simp [decodeStore, h]

theorem decodeStore_sw {w : Word} (h : fieldFunct3 w = 2#3) :
    decodeStore w = .instr (.sw (fieldRs2 w) (fieldRs1 w) (fieldImmS w)) := by
  simp [decodeStore, h]

theorem decode_of_storeRow {w : Word} {f : BitVec 3} {d : Decoded} (hrow : fieldOpcode w = opStore ∧ fieldFunct3 w = f)
    (harm : fieldFunct3 w = f → decodeStore w = d) : decode w = d := by
  obtain ⟨hopcode, hfunct3⟩ := hrow
  exact (decode_store hopcode).trans (harm hfunct3)

/-! ### The effect of a store (R150) -/

theorem exec_sb_eq_storeFrom (rs2 rs1 : RegIdx) (imm : BitVec 12) (s : State) :
    exec (.sb rs2 rs1 imm) s = storeFrom .byte (readReg rs1 s + imm.signExtend 32) (readReg rs2 s) s := rfl

theorem exec_sh_eq_storeFrom (rs2 rs1 : RegIdx) (imm : BitVec 12) (s : State) :
    exec (.sh rs2 rs1 imm) s = storeFrom .half (readReg rs1 s + imm.signExtend 32) (readReg rs2 s) s := rfl

theorem exec_sw_eq_storeFrom (rs2 rs1 : RegIdx) (imm : BitVec 12) (s : State) :
    exec (.sw rs2 rs1 imm) s = storeFrom .word (readReg rs1 s + imm.signExtend 32) (readReg rs2 s) s := rfl

/-- An in-bounds store completes and changes only the pc and the bytes at its addresses. -/
theorem exists_storeFrom_stores {size : AccessSize} {a : Word} {s : State} (hw : s.mem.wf = true)
    (hs : s.memSize ≤ 4294967296) (hb : inBounds s a size.bytes = true) (v : Word) :
    ∃ t, storeFrom size a v s = .next t ∧ Stores s t a size.bytes v (s.pc + 4#32) :=
  ⟨_, storeFrom_next hb v, storeBytes_stores hw hs hb v _⟩

/-- Settles O47: each row fixes the opcode and funct3, and each store writes its width's bytes at its address or faults. -/
theorem storesWriteTheLowBytes : Obligations.StoresWriteTheLowBytes := by
  refine ⟨fun w => ⟨fun hrow => ?_, fun hrow => ?_, fun hrow => ?_⟩, fun rs2 rs1 imm s a hw hs ha => ?_⟩
  · exact decode_of_storeRow ((row_sb w).1 hrow) decodeStore_sb
  · exact decode_of_storeRow ((row_sh w).1 hrow) decodeStore_sh
  · exact decode_of_storeRow ((row_sw w).1 hrow) decodeStore_sw
  rw [exec_sb_eq_storeFrom, exec_sh_eq_storeFrom, exec_sw_eq_storeFrom, ← ha]
  refine ⟨fun hb => ?_, fun hb => ?_, fun hb => ?_, fun hb => ?_, fun hb => ?_, fun hb => ?_⟩
  · exact exists_storeFrom_stores (size := .byte) hw hs hb _
  · exact exists_storeFrom_stores (size := .half) hw hs hb _
  · exact exists_storeFrom_stores (size := .word) hw hs hb _
  · exact storeFrom_fault (size := .byte) hb _
  · exact storeFrom_fault (size := .half) hb _
  · exact storeFrom_fault (size := .word) hb _

end Sys2Proof.Machine

/-! The statements of 46_integer_ops.md. Each integer operation is one write-back; they differ in the value. -/

namespace Sys2Proof.Machine

/-! ### The arms of `decodeOpImm` (R71), by funct3 -/

theorem decodeOpImm_addi {w : Word} (h : fieldFunct3 w = 0#3) :
    decodeOpImm w = .addi (fieldRd w) (fieldRs1 w) (fieldImmI w) := by
  simp [decodeOpImm, h]

theorem decodeOpImm_slti {w : Word} (h : fieldFunct3 w = 2#3) :
    decodeOpImm w = .slti (fieldRd w) (fieldRs1 w) (fieldImmI w) := by
  simp [decodeOpImm, h]

theorem decodeOpImm_sltiu {w : Word} (h : fieldFunct3 w = 3#3) :
    decodeOpImm w = .sltiu (fieldRd w) (fieldRs1 w) (fieldImmI w) := by
  simp [decodeOpImm, h]

theorem decodeOpImm_xori {w : Word} (h : fieldFunct3 w = 4#3) :
    decodeOpImm w = .xori (fieldRd w) (fieldRs1 w) (fieldImmI w) := by
  simp [decodeOpImm, h]

theorem decodeOpImm_ori {w : Word} (h : fieldFunct3 w = 6#3) :
    decodeOpImm w = .ori (fieldRd w) (fieldRs1 w) (fieldImmI w) := by
  simp [decodeOpImm, h]

theorem decodeOpImm_andi {w : Word} (h : fieldFunct3 w = 7#3) :
    decodeOpImm w = .andi (fieldRd w) (fieldRs1 w) (fieldImmI w) := by
  simp [decodeOpImm, h]

theorem decode_of_opImmRow {w : Word} {f : BitVec 3} {i : Instr} (hrow : fieldOpcode w = opOpImm ∧ fieldFunct3 w = f)
    (harm : fieldFunct3 w = f → decodeOpImm w = i) : decode w = .instr i := by
  obtain ⟨hopcode, hfunct3⟩ := hrow
  rw [decode_opImm hopcode, harm hfunct3]

/-! ### The arms of `decodeOp` (R71), by funct3 and, where it is read, bit 30 (R72) -/

theorem decodeOp_add {w : Word} (h : fieldFunct3 w = 0#3 ∧ fieldBit30 w = false) :
    decodeOp w = .add (fieldRd w) (fieldRs1 w) (fieldRs2 w) := by
  simp [decodeOp, h]

theorem decodeOp_sub {w : Word} (h : fieldFunct3 w = 0#3 ∧ fieldBit30 w = true) :
    decodeOp w = .sub (fieldRd w) (fieldRs1 w) (fieldRs2 w) := by
  simp [decodeOp, h]

theorem decodeOp_sll {w : Word} (h : fieldFunct3 w = 1#3) :
    decodeOp w = .sll (fieldRd w) (fieldRs1 w) (fieldRs2 w) := by
  simp [decodeOp, h]

theorem decodeOp_slt {w : Word} (h : fieldFunct3 w = 2#3) :
    decodeOp w = .slt (fieldRd w) (fieldRs1 w) (fieldRs2 w) := by
  simp [decodeOp, h]

theorem decodeOp_sltu {w : Word} (h : fieldFunct3 w = 3#3) :
    decodeOp w = .sltu (fieldRd w) (fieldRs1 w) (fieldRs2 w) := by
  simp [decodeOp, h]

theorem decodeOp_xor {w : Word} (h : fieldFunct3 w = 4#3) :
    decodeOp w = .xor (fieldRd w) (fieldRs1 w) (fieldRs2 w) := by
  simp [decodeOp, h]

theorem decodeOp_srl {w : Word} (h : fieldFunct3 w = 5#3 ∧ fieldBit30 w = false) :
    decodeOp w = .srl (fieldRd w) (fieldRs1 w) (fieldRs2 w) := by
  simp [decodeOp, h]

theorem decodeOp_sra {w : Word} (h : fieldFunct3 w = 5#3 ∧ fieldBit30 w = true) :
    decodeOp w = .sra (fieldRd w) (fieldRs1 w) (fieldRs2 w) := by
  simp [decodeOp, h]

theorem decodeOp_or {w : Word} (h : fieldFunct3 w = 6#3) :
    decodeOp w = .or (fieldRd w) (fieldRs1 w) (fieldRs2 w) := by
  simp [decodeOp, h]

theorem decodeOp_and {w : Word} (h : fieldFunct3 w = 7#3) :
    decodeOp w = .and (fieldRd w) (fieldRs1 w) (fieldRs2 w) := by
  simp [decodeOp, h]

/-- A word of an OP row decodes by the arm that the row's other fields select: funct3, or funct3 and bit 30. -/
theorem decode_of_opRow {w : Word} {fields : Prop} {i : Instr} (hrow : fieldOpcode w = opOp ∧ fields)
    (harm : fields → decodeOp w = i) : decode w = .instr i := by
  obtain ⟨hopcode, hfields⟩ := hrow
  rw [decode_op hopcode, harm hfields]

/-! ### The effect of an integer operation (R160, R170) -/

section
variable (rd rs1 rs2 : RegIdx) (imm : BitVec 12) (s : State)

theorem exec_addi_eq_writeBack :
    exec (.addi rd rs1 imm) s = writeBack rd (readReg rs1 s + imm.signExtend 32) s := rfl

theorem exec_slti_eq_writeBack :
    exec (.slti rd rs1 imm) s
      = writeBack rd (if (readReg rs1 s).toInt < (imm.signExtend 32).toInt then 1#32 else 0#32) s := by
  rw [← boolWord_ltSigned]; rfl

theorem exec_sltiu_eq_writeBack :
    exec (.sltiu rd rs1 imm) s
      = writeBack rd (if (readReg rs1 s).toNat < (imm.signExtend 32).toNat then 1#32 else 0#32) s := by
  rw [← boolWord_ltUnsigned]; rfl

theorem exec_xori_eq_writeBack :
    exec (.xori rd rs1 imm) s = writeBack rd (readReg rs1 s ^^^ imm.signExtend 32) s := rfl

theorem exec_ori_eq_writeBack :
    exec (.ori rd rs1 imm) s = writeBack rd (readReg rs1 s ||| imm.signExtend 32) s := rfl

theorem exec_andi_eq_writeBack :
    exec (.andi rd rs1 imm) s = writeBack rd (readReg rs1 s &&& imm.signExtend 32) s := rfl

theorem exec_add_eq_writeBack :
    exec (.add rd rs1 rs2) s = writeBack rd (readReg rs1 s + readReg rs2 s) s := rfl

theorem exec_sub_eq_writeBack :
    exec (.sub rd rs1 rs2) s = writeBack rd (readReg rs1 s - readReg rs2 s) s := rfl

theorem exec_slt_eq_writeBack :
    exec (.slt rd rs1 rs2) s
      = writeBack rd (if (readReg rs1 s).toInt < (readReg rs2 s).toInt then 1#32 else 0#32) s := by
  rw [← boolWord_ltSigned]; rfl

theorem exec_sltu_eq_writeBack :
    exec (.sltu rd rs1 rs2) s
      = writeBack rd (if (readReg rs1 s).toNat < (readReg rs2 s).toNat then 1#32 else 0#32) s := by
  rw [← boolWord_ltUnsigned]; rfl

theorem exec_xor_eq_writeBack :
    exec (.xor rd rs1 rs2) s = writeBack rd (readReg rs1 s ^^^ readReg rs2 s) s := rfl

theorem exec_or_eq_writeBack :
    exec (.or rd rs1 rs2) s = writeBack rd (readReg rs1 s ||| readReg rs2 s) s := rfl

theorem exec_and_eq_writeBack :
    exec (.and rd rs1 rs2) s = writeBack rd (readReg rs1 s &&& readReg rs2 s) s := rfl

theorem exec_sll_eq_writeBack :
    exec (.sll rd rs1 rs2) s = writeBack rd (readReg rs1 s <<< ((readReg rs2 s).toNat % 32)) s := by
  rw [← shiftAmount_eq]; rfl

theorem exec_srl_eq_writeBack :
    exec (.srl rd rs1 rs2) s = writeBack rd (readReg rs1 s >>> ((readReg rs2 s).toNat % 32)) s := by
  rw [← shiftAmount_eq]; rfl

theorem exec_sra_eq_writeBack :
    exec (.sra rd rs1 rs2) s = writeBack rd ((readReg rs1 s).sshiftRight ((readReg rs2 s).toNat % 32)) s := by
  rw [← shiftAmount_eq]; rfl

end

/-- An instruction whose effect is a write-back completes and changes only the pc and, unless it is x0, its register. -/
theorem exists_exec_retires {i : Instr} {rd : RegIdx} {v : Word} {s : State} (h : exec i s = writeBack rd v s) :
    ∃ t, exec i s = .next t ∧ Retires s t rd v (s.pc + 4#32) := by
  rw [h]
  exact exists_writeBack_retires rd v s

/-- Settles O49: each row fixes the opcode and funct3, and each operation writes back its value. -/
theorem immediateOperationsCompute : Obligations.ImmediateOperationsCompute := by
  refine ⟨fun w => ⟨fun hrow => ?_, fun hrow => ?_, fun hrow => ?_, fun hrow => ?_, fun hrow => ?_, fun hrow => ?_⟩, ?_⟩
  · exact decode_of_opImmRow ((row_addi w).1 hrow) decodeOpImm_addi
  · exact decode_of_opImmRow ((row_slti w).1 hrow) decodeOpImm_slti
  · exact decode_of_opImmRow ((row_sltiu w).1 hrow) decodeOpImm_sltiu
  · exact decode_of_opImmRow ((row_xori w).1 hrow) decodeOpImm_xori
  · exact decode_of_opImmRow ((row_ori w).1 hrow) decodeOpImm_ori
  · exact decode_of_opImmRow ((row_andi w).1 hrow) decodeOpImm_andi
  rintro rd rs1 imm s _ rfl
  refine ⟨?_, ?_, ?_, ?_, ?_, ?_⟩
  · exact exists_exec_retires (exec_addi_eq_writeBack rd rs1 imm s)
  · exact exists_exec_retires (exec_slti_eq_writeBack rd rs1 imm s)
  · exact exists_exec_retires (exec_sltiu_eq_writeBack rd rs1 imm s)
  · exact exists_exec_retires (exec_xori_eq_writeBack rd rs1 imm s)
  · exact exists_exec_retires (exec_ori_eq_writeBack rd rs1 imm s)
  · exact exists_exec_retires (exec_andi_eq_writeBack rd rs1 imm s)

/-- Settles O51: each row fixes the opcode, funct3 and, for ADD and SUB, bit 30; each operation writes back its value. -/
theorem registerOperationsCompute : Obligations.RegisterOperationsCompute := by
  refine ⟨fun w => ⟨fun hrow => ?_, fun hrow => ?_, fun hrow => ?_, fun hrow => ?_, fun hrow => ?_, fun hrow => ?_,
    fun hrow => ?_⟩, ?_⟩
  · exact decode_of_opRow ((row_add w).1 hrow) decodeOp_add
  · exact decode_of_opRow ((row_sub w).1 hrow) decodeOp_sub
  · exact decode_of_opRow ((row_slt w).1 hrow) decodeOp_slt
  · exact decode_of_opRow ((row_sltu w).1 hrow) decodeOp_sltu
  · exact decode_of_opRow ((row_xor w).1 hrow) decodeOp_xor
  · exact decode_of_opRow ((row_or w).1 hrow) decodeOp_or
  · exact decode_of_opRow ((row_and w).1 hrow) decodeOp_and
  rintro rd rs1 rs2 s _ _ rfl rfl
  refine ⟨?_, ?_, ?_, ?_, ?_, ?_, ?_⟩
  · exact exists_exec_retires (exec_add_eq_writeBack rd rs1 rs2 s)
  · exact exists_exec_retires (exec_sub_eq_writeBack rd rs1 rs2 s)
  · exact exists_exec_retires (exec_slt_eq_writeBack rd rs1 rs2 s)
  · exact exists_exec_retires (exec_sltu_eq_writeBack rd rs1 rs2 s)
  · exact exists_exec_retires (exec_xor_eq_writeBack rd rs1 rs2 s)
  · exact exists_exec_retires (exec_or_eq_writeBack rd rs1 rs2 s)
  · exact exists_exec_retires (exec_and_eq_writeBack rd rs1 rs2 s)

/-- Settles O52: each row fixes the opcode, funct3 and, for the right shifts, bit 30; the ALU's shift amount is `x[rs2]`
modulo 32. -/
theorem registerShiftsCompute : Obligations.RegisterShiftsCompute := by
  refine ⟨fun w => ⟨fun hrow => ?_, fun hrow => ?_, fun hrow => ?_⟩, ?_⟩
  · exact decode_of_opRow ((row_sll w).1 hrow) decodeOp_sll
  · exact decode_of_opRow ((row_srl w).1 hrow) decodeOp_srl
  · exact decode_of_opRow ((row_sra w).1 hrow) decodeOp_sra
  rintro rd rs1 rs2 s _ rfl
  refine ⟨?_, ?_, ?_⟩
  · exact exists_exec_retires (exec_sll_eq_writeBack rd rs1 rs2 s)
  · exact exists_exec_retires (exec_srl_eq_writeBack rd rs1 rs2 s)
  · exact exists_exec_retires (exec_sra_eq_writeBack rd rs1 rs2 s)

/-! ### The M-extension words (R182) -/

/-- An arm of `decodeOp` for bit 30 clear reads an M-extension word as its base operation: funct7 0000001 leaves bit 30
clear. -/
theorem decode_multiplyWord {funct3 : BitVec 3} {op : RegIdx → RegIdx → RegIdx → Instr}
    (harm : ∀ w, fieldFunct3 w = funct3 ∧ fieldBit30 w = false →
      decodeOp w = op (fieldRd w) (fieldRs1 w) (fieldRs2 w)) (rd rs1 rs2 : RegIdx) :
    decode (encR 1#7 rs2 rs1 funct3 rd opOp) = .instr (op rd rs1 rs2) := by
  have hbit30 : fieldBit30 (encR 1#7 rs2 rs1 funct3 rd opOp) = false := fieldBit30_encR ..
  rw [decode_op (fieldOpcode_encR ..), harm _ ⟨fieldFunct3_encR .., hbit30⟩, fieldRd_encR, fieldRs1_encR, fieldRs2_encR]

/-- The standard encodings of OP have funct7 0000000 or 0100000. -/
theorem fieldFunct7_of_matchesStd_op {w : Word} (hstd : rows37.any (fun r => r.matchesStd w) = true)
    (hop : fieldOpcode w = opOp) : fieldFunct7 w = 0#7 ∨ fieldFunct7 w = 32#7 := by
  obtain ⟨-, -, -, -, hbit30Read, hbit30Ignored⟩ := (std37_iff w).1 hstd
  by_cases h : fieldFunct3 w = 0#3 ∨ fieldFunct3 w = 5#3
  · exact hbit30Read hop h
  · rw [not_or] at h
    exact .inl (hbit30Ignored hop h.1 h.2)

/-- An OP word with any other funct7 has decode_status ALIAS (R73, R77). -/
theorem decodeStatus_op_aliased {w : Word} (hop : fieldOpcode w = opOp)
    (hfunct7 : ¬ (fieldFunct7 w = 0#7 ∨ fieldFunct7 w = 32#7)) : decodeStatus w = .aliased := by
  have hblock : recognized w := by simp only [recognized, hop, or_true]
  unfold decodeStatus
  rw [if_neg fun hstd => hfunct7 (fieldFunct7_of_matchesStd_op hstd hop), if_pos ((rows37_iff w).2 hblock)]

/-- Settles O7: funct3 alone selects the operation, bit 30 being clear, and funct7 0000001 is no standard one. -/
theorem multiplyWordsAliasBaseOperations : Obligations.MultiplyWordsAliasBaseOperations := by
  intro rd rs1 rs2
  refine ⟨?_, ?_, ?_, ?_, ?_, ?_, ?_, ?_, fun funct3 => ?_⟩
  · exact decode_multiplyWord (fun _ => decodeOp_add) rd rs1 rs2
  · exact decode_multiplyWord (fun _ h => decodeOp_sll h.1) rd rs1 rs2
  · exact decode_multiplyWord (fun _ h => decodeOp_slt h.1) rd rs1 rs2
  · exact decode_multiplyWord (fun _ h => decodeOp_sltu h.1) rd rs1 rs2
  · exact decode_multiplyWord (fun _ h => decodeOp_xor h.1) rd rs1 rs2
  · exact decode_multiplyWord (fun _ => decodeOp_srl) rd rs1 rs2
  · exact decode_multiplyWord (fun _ h => decodeOp_or h.1) rd rs1 rs2
  · exact decode_multiplyWord (fun _ h => decodeOp_and h.1) rd rs1 rs2
  · refine decodeStatus_op_aliased (fieldOpcode_encR ..) ?_
    rw [fieldFunct7_encR]
    decide

end Sys2Proof.Machine

/-! The statements of 47_no_effect.md. Every word outside the nine opcodes is one write-back of 0. -/

namespace Sys2Proof.Machine

/-! ### The unrecognized path (R200) -/

/-- A row of the 37 fixes one of the nine opcodes (R70, R71). -/
theorem opcode_mem_of_recognized {w : Word} (h : recognized w) : fieldOpcode w ∈ recognizedOpcodes := by
  simp only [recognizedOpcodes, List.mem_cons, List.not_mem_nil, or_false]
  unfold recognized at h
  tauto

/-- decode_status of a word outside the nine opcodes (R77). -/
theorem decodeStatus_other {w : Word} (h : fieldOpcode w ∉ recognizedOpcodes) :
    decodeStatus w = .noEffect ∨ decodeStatus w = .unrecognized := by
  rw [decodeStatus_of_not_recognized (mt opcode_mem_of_recognized h)]
  exact ite_eq_or_eq ..

theorem outputs_data_other {s : State} {w : Word} (hw : fetchWord s = some w)
    (h : fieldOpcode w ∉ recognizedOpcodes) : (outputs s).data = none := by
  rw [outputs_data_of_fetchWord hw, dataRequest_eq_map, control_other h]
  rfl

theorem step_other {s : State} {w : Word} (hw : fetchWord s = some w) (h : fieldOpcode w ∉ recognizedOpcodes) :
    step s = writeBack (fieldRd w) 0#32 s := by
  rw [step_of_fetchWord hw, execDecoded_other h]

/-- Without a destination register only the pc changes (R23). -/
theorem exists_writeBack_zero_onlyPc (v : Word) (s : State) :
    ∃ t, writeBack 0#5 v s = .next t ∧ OnlyPc s t (s.pc + 4#32) :=
  ⟨_, rfl, setPc_onlyPc _ s⟩

/-- Settles O55: the decoder selects no data access for such a word, and its effect is the write-back of 0. -/
theorem unrecognizedWordsZeroRdAndAdvance : Obligations.UnrecognizedWordsZeroRdAndAdvance := by
  intro s w hw h
  refine ⟨outputs_data_other hw h, decodeStatus_other h, ?_⟩
  rw [step_other hw h]
  exact exists_writeBack_retires (fieldRd w) _ s

/-! ### FENCE, ECALL and EBREAK (R201 to R203) -/

theorem decode_fence_of_row {w : Word} (hrow : w &&& 0x0000707F#32 = 0x0000000F#32) :
    decode w = .instr (.fence (fieldRd w) (fieldRs1 w) (w.extractLsb' 28 4) (w.extractLsb' 24 4)
      (w.extractLsb' 20 4)) := by
  rw [decode_other (opcode_not_mem_of_noEffectWord (.inl hrow))]
  exact if_pos ((row_fence w).1 hrow)

theorem exec_fence_eq_writeBack (rd rs1 : RegIdx) (fm pred succ : BitVec 4) (s : State) :
    exec (.fence rd rs1 fm pred succ) s = writeBack rd 0#32 s := rfl

theorem exec_ecall_eq_writeBack (s : State) : exec .ecall s = writeBack 0#5 0#32 s := rfl

theorem exec_ebreak_eq_writeBack (s : State) : exec .ebreak s = writeBack 0#5 0#32 s := rfl

/-- Settles O54: each of the three is the write-back of 0, to x0 in ECALL and EBREAK. -/
theorem fenceEcallEbreakOnlyAdvance : Obligations.FenceEcallEbreakOnlyAdvance := by
  refine ⟨fun w hrow => decode_fence_of_row hrow, by decide, by decide, fun rd rs1 fm pred succ s => ⟨?_, ?_, ?_, ?_⟩⟩
  · exact exists_exec_retires (exec_fence_eq_writeBack rd rs1 fm pred succ s)
  · rw [exec_fence_eq_writeBack]
    exact exists_writeBack_zero_onlyPc _ s
  · rw [exec_ecall_eq_writeBack]
    exact exists_writeBack_zero_onlyPc _ s
  · rw [exec_ebreak_eq_writeBack]
    exact exists_writeBack_zero_onlyPc _ s

/-! ### The corner words (R205) -/

/-- Settles O56: neither word has one of the nine opcodes; their rd fields name x0 and x31. -/
theorem allZeroAndAllOneWords : Obligations.AllZeroAndAllOneWords := by
  intro s
  refine ⟨fun hw => ?_, fun hw => ?_⟩
  · have hrd : fieldRd 0x00000000#32 = 0#5 := by decide
    rw [step_other hw (by decide), hrd]
    exact exists_writeBack_zero_onlyPc _ s
  · have hrd : fieldRd 0xFFFFFFFF#32 = 31#5 := by decide
    rw [step_other hw (by decide), hrd]
    exact exists_writeBack_retires _ _ s

end Sys2Proof.Machine

/-! SUPPORT. A word rebuilt from what it decodes to (R62 to R73), and the decoder against each row of the opcode table. -/

namespace Sys2Proof.Machine

/-! ### The arms of `decodeOpImm` for the shifts, by funct3 and, where it is read, bit 30 (R71, R72) -/

theorem decodeOpImm_slli {w : Word} (h : fieldFunct3 w = 1#3) :
    decodeOpImm w = .slli (fieldRd w) (fieldRs1 w) (fieldRs2 w) := by
  simp [decodeOpImm, h]

theorem decodeOpImm_srli {w : Word} (h : fieldFunct3 w = 5#3 ∧ fieldBit30 w = false) :
    decodeOpImm w = .srli (fieldRd w) (fieldRs1 w) (fieldRs2 w) := by
  simp [decodeOpImm, h]

theorem decodeOpImm_srai {w : Word} (h : fieldFunct3 w = 5#3 ∧ fieldBit30 w = true) :
    decodeOpImm w = .srai (fieldRd w) (fieldRs1 w) (fieldRs2 w) := by
  simp [decodeOpImm, h]

/-- A word of an immediate shift's row decodes by the arm that funct3, or funct3 and bit 30, select. -/
theorem decode_of_immShiftRow {w : Word} {fields : Prop} {i : Instr} (hrow : fieldOpcode w = opOpImm ∧ fields)
    (harm : fields → decodeOpImm w = i) : decode w = .instr i := by
  obtain ⟨hopcode, hfields⟩ := hrow
  rw [decode_opImm hopcode, harm hfields]

/-! ### The formats of R62 over a word's own fields, some of them known -/

section
variable {w : Word} {opcode : BitVec 7} {funct3 : BitVec 3} (hopcode : fieldOpcode w = opcode)
include hopcode

theorem encU_of_fields : encU (fieldImmU w) (fieldRd w) opcode = w := by
  rw [← hopcode, encU_fields]

theorem encJ_of_fields : encJ (fieldImmJ w) (fieldRd w) opcode = w := by
  rw [← hopcode, encJ_fields]

variable (hfunct3 : fieldFunct3 w = funct3)
include hfunct3

theorem encI_of_fields : encI (fieldImmI w) (fieldRs1 w) funct3 (fieldRd w) opcode = w := by
  rw [← hopcode, ← hfunct3, encI_fields]

theorem encS_of_fields : encS (fieldImmS w) (fieldRs2 w) (fieldRs1 w) funct3 opcode = w := by
  rw [← hopcode, ← hfunct3, encS_fields]

theorem encB_of_fields : encB (fieldImmB w) (fieldRs2 w) (fieldRs1 w) funct3 opcode = w := by
  rw [← hopcode, ← hfunct3, encB_fields]

theorem encR_of_fields {funct7 : BitVec 7} (hfunct7 : fieldFunct7 w = funct7) :
    encR funct7 (fieldRs2 w) (fieldRs1 w) funct3 (fieldRd w) opcode = w := by
  rw [← hopcode, ← hfunct3, ← hfunct7, encR_fields]

end

/-! ### The standard values of the ignored bits (R73) -/

/-- The ignored bits of `w` have their standard values (`std_match`): JALR's funct3, and funct7 of the words that have
one. -/
structure StandardBits (w : Word) : Prop where
  jalr : fieldOpcode w = opJalr → fieldFunct3 w = 0#3
  slli : fieldOpcode w = opOpImm → fieldFunct3 w = 1#3 → fieldFunct7 w = 0#7
  rightShift : fieldOpcode w = opOpImm → fieldFunct3 w = 5#3 → fieldFunct7 w = 0#7 ∨ fieldFunct7 w = 32#7
  bit30Read : fieldOpcode w = opOp → fieldFunct3 w = 0#3 ∨ fieldFunct3 w = 5#3 →
    fieldFunct7 w = 0#7 ∨ fieldFunct7 w = 32#7
  bit30Ignored : fieldOpcode w = opOp → fieldFunct3 w ≠ 0#3 → fieldFunct3 w ≠ 5#3 → fieldFunct7 w = 0#7

theorem standardBits_of_ok {w : Word} (h : decodeStatus w = .ok) : StandardBits w := by
  have hstd : rows37.any (fun r => r.matchesStd w) = true := by
    unfold decodeStatus at h
    split_ifs at h
    assumption
  obtain ⟨-, hjalr, hslli, hshift, hread, hignored⟩ := (std37_iff w).1 hstd
  exact ⟨hjalr, hslli, hshift, hread, hignored⟩

theorem standardBits_of_other {w : Word} (h : fieldOpcode w ∉ recognizedOpcodes) : StandardBits w := by
  simp only [recognizedOpcodes, List.mem_cons, List.not_mem_nil, or_false, not_or] at h
  obtain ⟨-, -, -, hjalr, -, -, -, hopImm, hop⟩ := h
  exact ⟨fun c => absurd c hjalr, fun c => absurd c hopImm, fun c => absurd c hopImm, fun c => absurd c hop,
    fun c => absurd c hop⟩

/-- The words of decode_status NO_EFFECT are outside the nine opcodes (R77). -/
theorem opcode_not_mem_of_noEffect {w : Word} (h : decodeStatus w = .noEffect) : fieldOpcode w ∉ recognizedOpcodes := by
  by_cases hr : recognized w
  · rcases decodeStatus_of_recognized hr with c | c <;> rw [c] at h <;> cases h
  · rw [decodeStatus_of_not_recognized hr] at h
    split_ifs at h with hn
    exact opcode_not_mem_of_noEffectWord hn

/-- Of the two standard values of funct7, bit 30 tells which. -/
theorem fieldFunct7_of_bit30_clear {w : Word} (h7 : fieldFunct7 w = 0#7 ∨ fieldFunct7 w = 32#7)
    (hb : fieldBit30 w = false) : fieldFunct7 w = 0#7 := by
  rcases h7 with h7 | h7
  · exact h7
  · rw [fieldBit30_eq, h7] at hb
    cases hb

theorem fieldFunct7_of_bit30_set {w : Word} (h7 : fieldFunct7 w = 0#7 ∨ fieldFunct7 w = 32#7)
    (hb : fieldBit30 w = true) : fieldFunct7 w = 32#7 := by
  rcases h7 with h7 | h7
  · rw [fieldBit30_eq, h7] at hb
    cases hb
  · exact h7

/-! ### The encoding of what a word decodes to -/

theorem encode_of_decodeBranch {w : Word} {i : Instr} (ho : fieldOpcode w = opBranch) (h : decodeBranch w = .instr i) :
    encode i = w := by
  unfold decodeBranch at h
  split_ifs at h <;> cases h <;> exact encB_of_fields ho (by assumption)

theorem encode_of_decodeLoad {w : Word} {i : Instr} (ho : fieldOpcode w = opLoad) (h : decodeLoad w = .instr i) :
    encode i = w := by
  unfold decodeLoad at h
  split_ifs at h <;> cases h <;> exact encI_of_fields ho (by assumption)

theorem encode_of_decodeStore {w : Word} {i : Instr} (ho : fieldOpcode w = opStore) (h : decodeStore w = .instr i) :
    encode i = w := by
  unfold decodeStore at h
  split_ifs at h <;> cases h <;> exact encS_of_fields ho (by assumption)

theorem encode_decodeOpImm {w : Word} (ho : fieldOpcode w = opOpImm) (hstd : StandardBits w) :
    encode (decodeOpImm w) = w := by
  rcases funct3_cases (fieldFunct3 w) with hf | hf | hf | hf | hf | hf | hf | hf
  · rw [decodeOpImm_addi hf]; exact encI_of_fields ho hf
  · rw [decodeOpImm_slli hf]; exact encR_of_fields ho hf (hstd.slli ho hf)
  · rw [decodeOpImm_slti hf]; exact encI_of_fields ho hf
  · rw [decodeOpImm_sltiu hf]; exact encI_of_fields ho hf
  · rw [decodeOpImm_xori hf]; exact encI_of_fields ho hf
  · have h7 := hstd.rightShift ho hf
    cases hb : fieldBit30 w
    · rw [decodeOpImm_srli ⟨hf, hb⟩]; exact encR_of_fields ho hf (fieldFunct7_of_bit30_clear h7 hb)
    · rw [decodeOpImm_srai ⟨hf, hb⟩]; exact encR_of_fields ho hf (fieldFunct7_of_bit30_set h7 hb)
  · rw [decodeOpImm_ori hf]; exact encI_of_fields ho hf
  · rw [decodeOpImm_andi hf]; exact encI_of_fields ho hf

theorem encode_decodeOp {w : Word} (ho : fieldOpcode w = opOp) (hstd : StandardBits w) :
    encode (decodeOp w) = w := by
  have hignored := hstd.bit30Ignored ho
  rcases funct3_cases (fieldFunct3 w) with hf | hf | hf | hf | hf | hf | hf | hf
  · have h7 := hstd.bit30Read ho (.inl hf)
    cases hb : fieldBit30 w
    · rw [decodeOp_add ⟨hf, hb⟩]; exact encR_of_fields ho hf (fieldFunct7_of_bit30_clear h7 hb)
    · rw [decodeOp_sub ⟨hf, hb⟩]; exact encR_of_fields ho hf (fieldFunct7_of_bit30_set h7 hb)
  · rw [decodeOp_sll hf]; exact encR_of_fields ho hf (hignored (by simp [hf]) (by simp [hf]))
  · rw [decodeOp_slt hf]; exact encR_of_fields ho hf (hignored (by simp [hf]) (by simp [hf]))
  · rw [decodeOp_sltu hf]; exact encR_of_fields ho hf (hignored (by simp [hf]) (by simp [hf]))
  · rw [decodeOp_xor hf]; exact encR_of_fields ho hf (hignored (by simp [hf]) (by simp [hf]))
  · have h7 := hstd.bit30Read ho (.inr hf)
    cases hb : fieldBit30 w
    · rw [decodeOp_srl ⟨hf, hb⟩]; exact encR_of_fields ho hf (fieldFunct7_of_bit30_clear h7 hb)
    · rw [decodeOp_sra ⟨hf, hb⟩]; exact encR_of_fields ho hf (fieldFunct7_of_bit30_set h7 hb)
  · rw [decodeOp_or hf]; exact encR_of_fields ho hf (hignored (by simp [hf]) (by simp [hf]))
  · rw [decodeOp_and hf]; exact encR_of_fields ho hf (hignored (by simp [hf]) (by simp [hf]))

theorem encode_of_decodeOther {w : Word} {i : Instr} (h : decodeOther w = .instr i) : encode i = w := by
  unfold decodeOther at h
  split_ifs at h with hfence hecall hebreak <;> cases h
  · exact encFence_fields hfence.1 hfence.2
  · exact hecall.symm
  · exact hebreak.symm

/-- Encoding inverts decoding where the ignored bits have their standard values. -/
theorem encode_of_decode {w : Word} {i : Instr} (hstd : StandardBits w) (h : decode w = .instr i) : encode i = w := by
  rcases opcode_cases w with ho | ho | ho | ho | ho | ho | ho | ho | ho | ho
  · rw [decode_lui ho] at h; cases h; exact encU_of_fields ho
  · rw [decode_auipc ho] at h; cases h; exact encU_of_fields ho
  · rw [decode_jal ho] at h; cases h; exact encJ_of_fields ho
  · rw [decode_jalr ho] at h; cases h; exact encI_of_fields ho (hstd.jalr ho)
  · exact encode_of_decodeBranch ho (decode_branch ho ▸ h)
  · exact encode_of_decodeLoad ho (decode_load ho ▸ h)
  · exact encode_of_decodeStore ho (decode_store ho ▸ h)
  · rw [decode_opImm ho] at h; cases h; exact encode_decodeOpImm ho hstd
  · rw [decode_op ho] at h; cases h; exact encode_decodeOp ho hstd
  · exact encode_of_decodeOther (decode_other ho ▸ h)

/-- Settles O2: a word with decode_status OK or NO_EFFECT has the standard values in its ignored bits, and every other bit is
in a field of what it decodes to. -/
theorem encodeOfDecodeIsTheStandardWord : Obligations.EncodeOfDecodeIsTheStandardWord := by
  rintro w i h (hok | hnoEffect)
  · exact encode_of_decode (standardBits_of_ok hok) h
  · exact encode_of_decode (standardBits_of_other (opcode_not_mem_of_noEffect hnoEffect)) h

/-! ### The rows of the opcode table -/

/-- A word that the block's test of the row accepts decodes to an instruction of the row. -/
def DecodesByRow (w : Word) (r : OpRow) : Prop :=
  r.matchesBlock w = true → ∃ i, decode w = .instr i ∧ i.mnemonic = r.mnemonic

/-- From what a row's mask and value fix of the fields, and what the decoder answers for those fields. -/
theorem decodesByRow_of_fields {w : Word} {r : OpRow} {fields : Prop} {i : Instr} (hrow : w &&& r.mask = r.value ↔ fields)
    (harm : fields → decode w = .instr i) (hm : i.mnemonic = r.mnemonic) : DecodesByRow w r :=
  fun h => ⟨i, harm (hrow.1 (eq_of_beq h)), hm⟩

theorem decode_of_branchRow {w : Word} {f : BitVec 3} {d : Decoded} (hrow : fieldOpcode w = opBranch ∧ fieldFunct3 w = f)
    (harm : fieldFunct3 w = f → decodeBranch w = d) : decode w = d := by
  obtain ⟨hopcode, hfunct3⟩ := hrow
  exact (decode_branch hopcode).trans (harm hfunct3)

section
variable (w : Word)

theorem decodesByRow_upperAndJump : ∀ r ∈ rowsUpperAndJump, DecodesByRow w r := by
  simp only [rowsUpperAndJump, List.forall_mem_cons]
  refine ⟨?_, ?_, ?_, ?_, nofun⟩
  · exact decodesByRow_of_fields (row_lui w) decode_lui rfl
  · exact decodesByRow_of_fields (row_auipc w) decode_auipc rfl
  · exact decodesByRow_of_fields (row_jal w) decode_jal rfl
  · exact decodesByRow_of_fields (row_jalr w) decode_jalr rfl

theorem decodesByRow_branch : ∀ r ∈ rowsBranch, DecodesByRow w r := by
  simp only [rowsBranch, List.forall_mem_cons]
  refine ⟨?_, ?_, ?_, ?_, ?_, ?_, nofun⟩
  · exact decodesByRow_of_fields (row_beq w) (decode_of_branchRow · decodeBranch_beq) rfl
  · exact decodesByRow_of_fields (row_bne w) (decode_of_branchRow · decodeBranch_bne) rfl
  · exact decodesByRow_of_fields (row_blt w) (decode_of_branchRow · decodeBranch_blt) rfl
  · exact decodesByRow_of_fields (row_bge w) (decode_of_branchRow · decodeBranch_bge) rfl
  · exact decodesByRow_of_fields (row_bltu w) (decode_of_branchRow · decodeBranch_bltu) rfl
  · exact decodesByRow_of_fields (row_bgeu w) (decode_of_branchRow · decodeBranch_bgeu) rfl

theorem decodesByRow_load : ∀ r ∈ rowsLoad, DecodesByRow w r := by
  simp only [rowsLoad, List.forall_mem_cons]
  refine ⟨?_, ?_, ?_, ?_, ?_, nofun⟩
  · exact decodesByRow_of_fields (row_lb w) (decode_of_loadRow · decodeLoad_lb) rfl
  · exact decodesByRow_of_fields (row_lh w) (decode_of_loadRow · decodeLoad_lh) rfl
  · exact decodesByRow_of_fields (row_lw w) (decode_of_loadRow · decodeLoad_lw) rfl
  · exact decodesByRow_of_fields (row_lbu w) (decode_of_loadRow · decodeLoad_lbu) rfl
  · exact decodesByRow_of_fields (row_lhu w) (decode_of_loadRow · decodeLoad_lhu) rfl

theorem decodesByRow_store : ∀ r ∈ rowsStore, DecodesByRow w r := by
  simp only [rowsStore, List.forall_mem_cons]
  refine ⟨?_, ?_, ?_, nofun⟩
  · exact decodesByRow_of_fields (row_sb w) (decode_of_storeRow · decodeStore_sb) rfl
  · exact decodesByRow_of_fields (row_sh w) (decode_of_storeRow · decodeStore_sh) rfl
  · exact decodesByRow_of_fields (row_sw w) (decode_of_storeRow · decodeStore_sw) rfl

theorem decodesByRow_opImm : ∀ r ∈ rowsOpImm, DecodesByRow w r := by
  simp only [rowsOpImm, List.forall_mem_cons]
  refine ⟨?_, ?_, ?_, ?_, ?_, ?_, ?_, ?_, ?_, nofun⟩
  · exact decodesByRow_of_fields (row_addi w) (decode_of_opImmRow · decodeOpImm_addi) rfl
  · exact decodesByRow_of_fields (row_slti w) (decode_of_opImmRow · decodeOpImm_slti) rfl
  · exact decodesByRow_of_fields (row_sltiu w) (decode_of_opImmRow · decodeOpImm_sltiu) rfl
  · exact decodesByRow_of_fields (row_xori w) (decode_of_opImmRow · decodeOpImm_xori) rfl
  · exact decodesByRow_of_fields (row_ori w) (decode_of_opImmRow · decodeOpImm_ori) rfl
  · exact decodesByRow_of_fields (row_andi w) (decode_of_opImmRow · decodeOpImm_andi) rfl
  · exact decodesByRow_of_fields (row_slli w) (decode_of_immShiftRow · decodeOpImm_slli) rfl
  · exact decodesByRow_of_fields (row_srli w) (decode_of_immShiftRow · decodeOpImm_srli) rfl
  · exact decodesByRow_of_fields (row_srai w) (decode_of_immShiftRow · decodeOpImm_srai) rfl

theorem decodesByRow_op : ∀ r ∈ rowsOp, DecodesByRow w r := by
  simp only [rowsOp, List.forall_mem_cons]
  refine ⟨?_, ?_, ?_, ?_, ?_, ?_, ?_, ?_, ?_, ?_, nofun⟩
  · exact decodesByRow_of_fields (row_add w) (decode_of_opRow · decodeOp_add) rfl
  · exact decodesByRow_of_fields (row_sub w) (decode_of_opRow · decodeOp_sub) rfl
  · exact decodesByRow_of_fields (row_sll w) (decode_of_opRow · decodeOp_sll) rfl
  · exact decodesByRow_of_fields (row_slt w) (decode_of_opRow · decodeOp_slt) rfl
  · exact decodesByRow_of_fields (row_sltu w) (decode_of_opRow · decodeOp_sltu) rfl
  · exact decodesByRow_of_fields (row_xor w) (decode_of_opRow · decodeOp_xor) rfl
  · exact decodesByRow_of_fields (row_srl w) (decode_of_opRow · decodeOp_srl) rfl
  · exact decodesByRow_of_fields (row_sra w) (decode_of_opRow · decodeOp_sra) rfl
  · exact decodesByRow_of_fields (row_or w) (decode_of_opRow · decodeOp_or) rfl
  · exact decodesByRow_of_fields (row_and w) (decode_of_opRow · decodeOp_and) rfl

theorem row_ecall : w &&& 0xFFFFFFFF#32 = 0x00000073#32 ↔ w = 0x00000073#32 := by
  rw [show 0xFFFFFFFF#32 = BitVec.allOnes 32 from rfl, BitVec.and_allOnes]

theorem row_ebreak : w &&& 0xFFFFFFFF#32 = 0x00100073#32 ↔ w = 0x00100073#32 := by
  rw [show 0xFFFFFFFF#32 = BitVec.allOnes 32 from rfl, BitVec.and_allOnes]

theorem decodesByRow_noEffect : ∀ r ∈ rowsNoEffect, DecodesByRow w r := by
  simp only [rowsNoEffect, List.forall_mem_cons]
  refine ⟨?_, ?_, ?_, nofun⟩
  · exact decodesByRow_of_fields .rfl decode_fence_of_row rfl
  · exact decodesByRow_of_fields (i := .ecall) (row_ecall w) (by rintro rfl; decide) rfl
  · exact decodesByRow_of_fields (i := .ebreak) (row_ebreak w) (by rintro rfl; decide) rfl

/-- Every row of the table, group by group. -/
theorem decodesByRow_of_mem : ∀ r ∈ opRows, DecodesByRow w r := by
  simp only [opRows, rows37, List.forall_mem_append]
  exact ⟨⟨⟨⟨⟨⟨decodesByRow_upperAndJump w, decodesByRow_branch w⟩, decodesByRow_load w⟩, decodesByRow_store w⟩,
    decodesByRow_opImm w⟩, decodesByRow_op w⟩, decodesByRow_noEffect w⟩

end

/-- A word of FENCE, ECALL or EBREAK matches its row. -/
theorem exists_row_of_noEffectWord {w : Word} (h : noEffectWord w) : ∃ r ∈ rowsNoEffect, r.matchesBlock w = true := by
  rcases h with h | rfl | rfl
  · exact ⟨_, List.mem_cons_self, beq_iff_eq.2 h⟩
  · decide
  · decide

/-- A word that decodes to an instruction matches some row: the words that match none are outside the table. -/
theorem exists_row_of_decode {w : Word} {i : Instr} (h : decode w = .instr i) :
    ∃ r ∈ opRows, r.matchesBlock w = true := by
  by_cases hr : recognized w
  · obtain ⟨r, hmem, hmatch⟩ := List.any_eq_true.1 ((rows37_iff w).2 hr)
    exact ⟨r, List.mem_append_left _ hmem, hmatch⟩
  · by_cases hn : noEffectWord w
    · obtain ⟨r, hmem, hmatch⟩ := exists_row_of_noEffectWord hn
      exact ⟨r, List.mem_append_right _ hmem, hmatch⟩
    · obtain ⟨u, hu⟩ := exists_unlisted_of_noRow hr hn
      rw [hu] at h
      cases h

/-- Settles O4: a word decodes by each row it matches, and the decoder has one answer, so the row that a decoded word matches
has its mnemonic. -/
theorem decoderAgreesWithTheOpcodeTable : Obligations.DecoderAgreesWithTheOpcodeTable := by
  intro w
  refine ⟨fun i h => ?_, decodesByRow_of_mem w⟩
  obtain ⟨r, hmem, hmatch⟩ := exists_row_of_decode h
  obtain ⟨j, hj, hm⟩ := decodesByRow_of_mem w r hmem hmatch
  cases h.symm.trans hj
  exact ⟨r, hmem, hm.symm, hmatch⟩

end Sys2Proof.Machine

/-! The statements on the words whose funct3 has no row, on the immediate shifts, and on sample words. -/

namespace Sys2Proof.Machine

/-! ### Reserved words (R137, R146, R154) -/

theorem decodeStatus_of_unlisted {w : Word} {u : Unlisted} (h : decode w = .unlisted u) :
    decodeStatus w = .unrecognized :=
  (decodeStatusAgreesWithTheDecoder w).1.2 ⟨u, h⟩

theorem outputs_data_of_noData {s : State} {w : Word} (hw : fetchWord s = some w) (hd : (controlOf w).data = none) :
    (outputs s).data = none := by
  rw [outputs_data_of_fetchWord hw, dataRequest_eq_map, hd, Option.map_none]

theorem exists_advance_onlyPc (s : State) : ∃ t, advance s = .next t ∧ OnlyPc s t (s.pc + 4#32) :=
  ⟨_, rfl, setPc_onlyPc _ s⟩

theorem decode_reservedBranch {w : Word} (ho : fieldOpcode w = opBranch)
    (hf : fieldFunct3 w = 2#3 ∨ fieldFunct3 w = 3#3) : decode w = .unlisted .reservedBranch := by
  rw [decode_branch ho]
  rcases hf with hf | hf <;> simp [decodeBranch, hf]

theorem decode_reservedLoad {w : Word} (ho : fieldOpcode w = opLoad)
    (hf : fieldFunct3 w = 3#3 ∨ fieldFunct3 w = 6#3 ∨ fieldFunct3 w = 7#3) :
    decode w = .unlisted (.reservedLoad (fieldRd w)) := by
  rw [decode_load ho]
  rcases hf with hf | hf | hf <;> simp [decodeLoad, hf]

theorem loadSize_reserved {f : BitVec 3} (hf : f = 3#3 ∨ f = 6#3 ∨ f = 7#3) : loadSize f = none := by
  rcases hf with rfl | rfl | rfl <;> rfl

theorem decode_reservedStore {w : Word} (ho : fieldOpcode w = opStore) (h0 : fieldFunct3 w ≠ 0#3)
    (h1 : fieldFunct3 w ≠ 1#3) (h2 : fieldFunct3 w ≠ 2#3) : decode w = .unlisted .reservedStore := by
  rw [decode_store ho, decodeStore, if_neg h0, if_neg h1, if_neg h2]

theorem storeSize_reserved {f : BitVec 3} (h0 : f ≠ 0#3) (h1 : f ≠ 1#3) (h2 : f ≠ 2#3) : storeSize f = none := by
  rw [storeSize, if_neg h0, if_neg h1, if_neg h2]

/-- Settles O44: the decoder names the word as outside the table, and its effect is to advance. -/
theorem reservedBranchesAreNeverTaken : Obligations.ReservedBranchesAreNeverTaken := by
  intro s w hw ho hf
  have hdecode := decode_reservedBranch ho hf
  refine ⟨decodeStatus_of_unlisted hdecode, ?_⟩
  rw [step_of_fetchWord hw, hdecode]
  exact exists_advance_onlyPc s

/-- Settles O46: a LOAD without a width selects no data access, and its effect is the write-back of 0. -/
theorem reservedLoadsWriteZero : Obligations.ReservedLoadsWriteZero := by
  intro s w hw ho hf
  have hsize := loadSize_reserved hf
  have hdata : (controlOf w).data = none := by rw [control_reservedLoad ho hsize, controlZero]
  refine ⟨decodeStatus_of_unlisted (decode_reservedLoad ho hf), outputs_data_of_noData hw hdata, ?_⟩
  rw [step_of_fetchWord hw, execDecoded_reservedLoad ho hsize]
  exact exists_writeBack_retires _ _ s

/-- Settles O48: a STORE without a width selects no data access, and its effect is to advance. -/
theorem reservedStoresOnlyAdvance : Obligations.ReservedStoresOnlyAdvance := by
  intro s w hw ho h0 h1 h2
  have hsize := storeSize_reserved h0 h1 h2
  have hdata : (controlOf w).data = none := by rw [control_reservedStore ⟨ho, hsize⟩]
  refine ⟨decodeStatus_of_unlisted (decode_reservedStore ho h0 h1 h2), outputs_data_of_noData hw hdata, ?_⟩
  rw [step_of_fetchWord hw, execDecoded_reservedStore ho hsize]
  exact exists_advance_onlyPc s

/-! ### The immediate shifts (R167 to R169) -/

section
variable (rd rs1 : RegIdx) (shamt : BitVec 5) (s : State)

theorem exec_slli_eq_writeBack :
    exec (.slli rd rs1 shamt) s = writeBack rd (readReg rs1 s <<< shamt.toNat) s := by
  rw [← shiftAmount_shamtOperand]; rfl

theorem exec_srli_eq_writeBack :
    exec (.srli rd rs1 shamt) s = writeBack rd (readReg rs1 s >>> shamt.toNat) s := by
  rw [← shiftAmount_shamtOperand]; rfl

theorem exec_srai_eq_writeBack :
    exec (.srai rd rs1 shamt) s = writeBack rd ((readReg rs1 s).sshiftRight shamt.toNat) s := by
  rw [← shiftAmount_shamtOperand]; rfl

end

/-- Settles O50: each row fixes the opcode, funct3 and, for the right shifts, bit 30; the ALU's shift amount is the shamt
field. -/
theorem immediateShiftsCompute : Obligations.ImmediateShiftsCompute := by
  refine ⟨fun w => ⟨fun hrow => ?_, fun hrow => ?_, fun hrow => ?_⟩, fun rd rs1 shamt s => ⟨?_, ?_, ?_⟩⟩
  · exact decode_of_immShiftRow ((row_slli w).1 hrow) decodeOpImm_slli
  · exact decode_of_immShiftRow ((row_srli w).1 hrow) decodeOpImm_srli
  · exact decode_of_immShiftRow ((row_srai w).1 hrow) decodeOpImm_srai
  · exact exists_exec_retires (exec_slli_eq_writeBack rd rs1 shamt s)
  · exact exists_exec_retires (exec_srli_eq_writeBack rd rs1 shamt s)
  · exact exists_exec_retires (exec_srai_eq_writeBack rd rs1 shamt s)

/-- Settles O10: ten fixed words, evaluated. -/
theorem sampleWordsDecodeAsWritten : Obligations.SampleWordsDecodeAsWritten := by
  refine ⟨?_, ?_, ?_, ?_, ?_, ?_, ?_, ?_, ?_, ?_⟩ <;> decide

end Sys2Proof.Machine

/-! The statements of 60_exceptions.md and 70_reset_and_hazards.md: faults, reset, launch, the run driver and the
reporter. -/

namespace Sys2Proof.Machine

/-! ### Faults (R211, R214) -/

/-- A step of a fetched word faults exactly when the word's data access is out of bounds. -/
theorem step_eq_fault_iff_of_fetchWord {s : State} {w : Word} (hw : fetchWord s = some w) (f : Fault) :
    step s = .fault f ↔ ∃ d, (controlOf w).data = some d ∧ inBounds s (aluOutput w s) d.size.bytes = false
      ∧ f = .outOfBounds (if d.we then .store else .load) (aluOutput w s) := by
  constructor
  · intro h
    rcases step_cases_of_fetchWord hw with ⟨-, hnext⟩ | ⟨d, hd, hb, hfault⟩
    · rw [hnext] at h; cases h
    · rw [hfault] at h; cases h; exact ⟨d, hd, hb, rfl⟩
  · rintro ⟨d, hd, hb, rfl⟩
    exact step_of_access_outOfBounds hw hd hb

/-- The data access of a fetched word that faults is a LOAD's or a STORE's, at `x[rs1]` + immediate. -/
theorem step_eq_fault_iff_loadOrStore {s : State} {w : Word} (hw : fetchWord s = some w) (f : Fault) :
    step s = .fault f ↔
      (fieldOpcode w = opLoad ∧ f = .outOfBounds .load (readReg (fieldRs1 w) s + immI w)
        ∧ ∃ size, loadSize (fieldFunct3 w) = some size ∧ inBounds s (readReg (fieldRs1 w) s + immI w) size.bytes = false)
      ∨ (fieldOpcode w = opStore ∧ f = .outOfBounds .store (readReg (fieldRs1 w) s + immS w)
        ∧ ∃ size, storeSize (fieldFunct3 w) = some size
          ∧ inBounds s (readReg (fieldRs1 w) s + immS w) size.bytes = false) := by
  rw [step_eq_fault_iff_of_fetchWord hw]
  constructor
  · rintro ⟨⟨we, size⟩, hd, hb, rfl⟩
    rw [aluOutput_of_data hd] at hb ⊢
    rcases (control_data_eq_some_iff w _).1 hd with ⟨ho, rfl, hsize⟩ | ⟨ho, rfl, hsize⟩
    · exact .inl ⟨ho, rfl, size, hsize, hb⟩
    · exact .inr ⟨ho, rfl, size, hsize, hb⟩
  · rintro (⟨ho, rfl, size, hsize, hb⟩ | ⟨ho, rfl, size, hsize, hb⟩)
    · have hd : (controlOf w).data = some ⟨false, size⟩ := (control_data_eq_some_iff w _).2 (.inl ⟨ho, rfl, hsize⟩)
      exact ⟨_, hd, by rw [aluOutput_of_data hd]; exact hb, by rw [aluOutput_of_data hd]; rfl⟩
    · have hd : (controlOf w).data = some ⟨true, size⟩ := (control_data_eq_some_iff w _).2 (.inr ⟨ho, rfl, hsize⟩)
      exact ⟨_, hd, by rw [aluOutput_of_data hd]; exact hb, by rw [aluOutput_of_data hd]; rfl⟩

theorem step_of_noFetch {s : State} (h : fetchWord s = none) : step s = .fault (.outOfBounds .fetch s.pc) := by
  rw [step, h]; rfl

/-- Settles O23: without a fetched word the step faults at its fetch; with one, only at that word's data access. -/
theorem stepFaultsExactlyOnOutOfBoundsAccess : Obligations.StepFaultsExactlyOnOutOfBoundsAccess := by
  intro s f
  cases hw : fetchWord s with
  | none =>
    rw [step_of_noFetch hw]
    constructor
    · intro h
      cases h
      exact .inl ⟨rfl, rfl⟩
    · rintro (⟨-, rfl⟩ | ⟨w, hw', -⟩)
      · rfl
      · cases hw'
  | some w =>
    rw [step_eq_fault_iff_loadOrStore hw]
    constructor
    · exact fun h => .inr ⟨w, rfl, h⟩
    · rintro (⟨hnone, -⟩ | ⟨w', hw', h⟩)
      · cases hnone
      · cases hw'
        exact h

/-! ### Reset and launch (R230 to R234) -/

/-- Settles O30, part by part, by evaluation: the reset state is one fixed state. -/
theorem resetSatisfiesTheInvariant : Obligations.ResetSatisfiesTheInvariant where
  legal := by decide
  memWf := rfl
  memWithin := rfl
  zeroCell := by decide
  pcEven := by decide

theorem regCell_rst (r : RegIdx) (s : State) : regCell r s.rst = 0#32 := Vector.getElem_replicate _

/-- Settles O31: `rst` replaces the registers and the pc and no other field. -/
theorem rstZeroesRegistersAndJumpsToBase : Obligations.RstZeroesRegistersAndJumpsToBase := by
  intro s
  exact ⟨fun r => readReg_rst r s, fun r => regCell_rst r s, rfl, fun _ => rfl, rfl, rfl, rfl⟩

theorem Inv.writeReg {s : State} (h : Inv s) (r : RegIdx) (v : Word) : Inv (writeReg r v s) where
  legal := by simpa using h.legal
  memWf := by simpa using h.memWf
  memWithin := by simpa using h.memWithin
  zeroCell := by simpa using h.zeroCell
  pcEven := by simpa [Machine.pcEven] using h.pcEven

theorem Inv.loadImage {s : State} (h : Inv s) {image : List Byte} (hlen : image.length ≤ s.memSize) :
    Inv (loadImage image s) where
  legal := h.legal
  memWf := Memory.wf_writeBytes h.memWf 0 image
  memWithin := Memory.within_writeBytes h.memWithin 0 image (by omega)
  zeroCell := h.zeroCell
  pcEven := h.pcEven

/-- Argument words inside the buffer keep the invariant. -/
theorem Inv.writeArgWords {ws : List (Word × Word)} {s : State} (h : Inv s)
    (hb : ∀ c ∈ ws, inBounds s c.1 4 = true) : Inv (writeArgWords ws s) := by
  induction ws generalizing s with
  | nil => exact h
  | cons c ws ih =>
    exact ih (h.storeBytes (hb c List.mem_cons_self) c.2) fun c' hc' => hb c' (List.mem_cons_of_mem c hc')

theorem Inv.marshalArguments {s : State} (h : Inv s) {a : Arguments} (hb : ∀ c ∈ a.words, inBounds s c.1 4 = true) :
    Inv (marshalArguments a s) :=
  (((h.writeArgWords hb).writeReg _ _).writeReg _ _).writeReg _ _

/-- The created state's parameters and content meet the launch premises, its registers are 0 and its pc is the even BASE. -/
theorem Launch.inv_created {l : Launch} (hlegal : Config.legal l.base l.memSize = true) (hwf : l.content.wf = true)
    (hwithin : l.content.within l.memSize = true) : Inv l.created where
  legal := hlegal
  memWf := hwf
  memWithin := hwithin
  zeroCell := regCell_rst ..
  pcEven := by
    simp only [Config.legal, Bool.and_eq_true] at hlegal
    exact hlegal.1.1.2

/-- Settles O32: the created state satisfies the invariant, and the loader and the marshaler write inside the buffer. -/
theorem launchStatesSatisfyTheInvariant : Obligations.LaunchStatesSatisfyTheInvariant := by
  intro argMax l hok
  simp only [Launch.ok, Bool.and_eq_true, decide_eq_true_eq] at hok
  obtain ⟨⟨⟨⟨hlegal, hwf⟩, hwithin⟩, himage⟩, hargs⟩ := hok
  have hloaded : Inv (loadImage l.image l.created) :=
    (Launch.inv_created hlegal hwf hwithin).loadImage (himage.trans (Nat.div_le_self ..))
  cases ha : l.args with
  | none => rw [Launch.state_of_none ha]; exact hloaded
  | some a =>
    rw [Launch.state_of_some ha]
    refine hloaded.marshalArguments fun c hc => ?_
    simp only [ha, Bool.and_eq_true, List.all_eq_true] at hargs
    have hc := hargs.2 c hc
    rw [Launch.argInStack, Bool.and_eq_true] at hc
    exact hc.2

/-! ### The run driver (R213, R235) -/

theorem run_succ_of_next {s t : State} (h : step s = .next t) (k : Nat) :
    Host.Core.run core (k + 1) s = Host.Core.run core k t := by
  have h' : core.step s = .next t := h
  simp only [Host.Core.run, h']

theorem run_succ_of_fault {s : State} {f : Fault} (h : step s = .fault f) (k : Nat) :
    Host.Core.run core (k + 1) s = .fault f := by
  have h' : core.step s = .fault f := h
  simp only [Host.Core.run, h']

/-- The outcomes of a step: none is refused. -/
theorem step_next_or_fault (s : State) : (∃ t, step s = .next t) ∨ ∃ f, step s = .fault f := by
  cases h : step s with
  | next t => exact .inl ⟨t, rfl⟩
  | fault f => exact .inr ⟨f, rfl⟩
  | refused r => exact absurd h (stepNeverRefuses s r)

/-- What each status says of a driven run of at most `n` steps from `s` (R235). -/
def StandsAfter (n : Nat) (s : State) : RunStatus → Prop
  | .halted t => t.pc = 0#32 ∧ ∃ k, k ≤ n ∧ Host.Core.run core k s = .next t
  | .faulted t f => t.pc ≠ 0#32 ∧ step t = .fault f ∧ ∃ k, k < n ∧ Host.Core.run core k s = .next t
  | .running t => t.pc ≠ 0#32 ∧ Host.Core.run core n s = .next t
  | .refused _ _ => False

/-- A completed step in front of a run. -/
theorem StandsAfter.of_next {n : Nat} {s t : State} (h : step s = .next t) {r : RunStatus} (ht : StandsAfter n t r) :
    StandsAfter (n + 1) s r := by
  cases r with
  | halted u =>
    obtain ⟨hpc, k, hk, hrun⟩ := ht
    exact ⟨hpc, k + 1, by omega, (run_succ_of_next h k).trans hrun⟩
  | faulted u f =>
    obtain ⟨hpc, hfault, k, hk, hrun⟩ := ht
    exact ⟨hpc, hfault, k + 1, by omega, (run_succ_of_next h k).trans hrun⟩
  | running u =>
    obtain ⟨hpc, hrun⟩ := ht
    exact ⟨hpc, (run_succ_of_next h n).trans hrun⟩
  | refused u r => exact ht

theorem drive_standsAfter (n : Nat) (s : State) : StandsAfter n s (drive n s) := by
  induction n generalizing s with
  | zero =>
    rw [drive]
    split
    · next hpc => exact ⟨hpc, 0, le_rfl, rfl⟩
    · next hpc => exact ⟨hpc, rfl⟩
  | succ n ih =>
    by_cases hpc : s.pc = 0#32
    · rw [drive_of_pc_zero hpc]
      exact ⟨hpc, 0, Nat.zero_le _, rfl⟩
    · rcases step_next_or_fault s with ⟨t, h⟩ | ⟨f, h⟩
      · rw [drive_of_next hpc h]
        exact .of_next h (ih t)
      · rw [drive_of_fault hpc h]
        exact ⟨hpc, h, 0, Nat.succ_pos n, rfl⟩

theorem standsAfter_of_drive {n : Nat} {s : State} {r : RunStatus} (h : drive n s = r) : StandsAfter n s r :=
  h ▸ drive_standsAfter n s

/-- Settles O34, by what the run's status says. -/
theorem driverStopsAtZeroPcOrFirstFault : Obligations.DriverStopsAtZeroPcOrFirstFault := by
  intro n s t
  exact ⟨standsAfter_of_drive, fun _ => standsAfter_of_drive, standsAfter_of_drive, fun _ => standsAfter_of_drive⟩

/-- A run that has stopped stands the same after more steps. -/
theorem drive_of_le {n m : Nat} {s : State} (hstopped : ∀ t, drive n s ≠ .running t) (hnm : n ≤ m) :
    drive m s = drive n s := by
  induction n generalizing m s with
  | zero =>
    by_cases hpc : s.pc = 0#32
    · rw [drive_of_pc_zero hpc, drive_of_pc_zero hpc]
    · exact absurd (if_neg hpc) (hstopped s)
  | succ n ih =>
    obtain ⟨m, rfl⟩ : ∃ k, m = k + 1 := ⟨m - 1, by omega⟩
    by_cases hpc : s.pc = 0#32
    · rw [drive_of_pc_zero hpc, drive_of_pc_zero hpc]
    · rcases step_next_or_fault s with ⟨t, h⟩ | ⟨f, h⟩
      · rw [drive_of_next hpc h] at hstopped ⊢
        rw [drive_of_next hpc h]
        exact ih hstopped (by omega)
      · rw [drive_of_fault hpc h, drive_of_fault hpc h]

/-- Settles O35: a stopped run stands the same after more steps, and the state of a fault is the one before its step. -/
theorem faultedAndHaltedRunsStayAsTheyAre : Obligations.FaultedAndHaltedRunsStayAsTheyAre := by
  intro n m s t hnm
  refine ⟨fun f hr => ⟨?_, ?_⟩, fun hr => ?_⟩
  · rw [drive_of_le (by simp [hr]) hnm, hr]
  · obtain ⟨hpc, hfault, -⟩ := standsAfter_of_drive hr
    exact drive_of_fault hpc hfault m
  · rw [drive_of_le (by simp [hr]) hnm, hr]

/-! ### The reporter (R237) -/

/-- Settles O57, part by part: the report's word by the pc's region, and its stack by what the dump reads as and lists. -/
theorem reportShowsTheState : Obligations.ReportShowsTheState := by
  intro s
  refine ⟨rfl, fun h => ?_, fun h => ?_, fun r hr => (readReg_of_ne hr s).symm, fun a hstack hb => ?_, fun c hc => ?_,
    wf_stackDump⟩
  · rw [report_word, if_pos ((inText_iff s).2 h)]
  · rw [report_word, if_neg (mt (inText_iff s).1 (Nat.not_lt.2 h))]
  · have hin : inStack s.memSize (translate s a) = true :=
      (inStack_iff ..).2 ⟨hstack, by rw [inBounds_iff] at hb; omega⟩
    rw [byteAt, if_pos hb, report_stack, read_stackDump, if_pos hin]
  · exact (inStack_iff ..).1 (List.mem_filter.1 hc).2

/-- The driver activates step `k` when it may: the steps before it all completed and no state up to it had pc = 0. -/
def Activates (k : Nat) (s : State) : Prop := ∀ j, j ≤ k → ∃ t, Host.Core.run core j s = .next t ∧ t.pc ≠ 0#32

theorem not_activates_of_pc_zero {s : State} (h : s.pc = 0#32) (k : Nat) : ¬ Activates k s := by
  intro hk
  obtain ⟨t, hrun, hpc⟩ := hk 0 (Nat.zero_le k)
  cases hrun
  exact hpc h

theorem activates_zero {s : State} (h : s.pc ≠ 0#32) : Activates 0 s := by
  intro j hj
  obtain rfl := Nat.le_zero.1 hj
  exact ⟨s, rfl, h⟩

theorem activates_succ_of_next {s t : State} (hpc : s.pc ≠ 0#32) (h : step s = .next t) (k : Nat) :
    Activates (k + 1) s ↔ Activates k t := by
  constructor
  · intro hs j hj
    rw [← run_succ_of_next h]
    exact hs (j + 1) (by omega)
  · intro ht j hj
    cases j with
    | zero => exact ⟨s, rfl, hpc⟩
    | succ j =>
      rw [run_succ_of_next h]
      exact ht j (by omega)

theorem not_activates_succ_of_fault {s : State} {f : Fault} (h : step s = .fault f) (k : Nat) :
    ¬ Activates (k + 1) s := by
  intro hk
  obtain ⟨t, hrun, -⟩ := hk 1 (by omega)
  rw [run_succ_of_fault h] at hrun
  cases hrun

theorem driveReporting_snd (n : Nat) (s : State) : (driveReporting n s).2 = drive n s := by
  induction n generalizing s with
  | zero => rfl
  | succ n ih =>
    by_cases hpc : s.pc = 0#32
    · rw [driveReporting_of_pc_zero hpc, drive_of_pc_zero hpc]
    · rcases step_next_or_fault s with ⟨t, h⟩ | ⟨f, h⟩
      · rw [driveReporting_of_next hpc h, drive_of_next hpc h]
        exact ih t
      · rw [driveReporting_of_fault hpc h, drive_of_fault hpc h]

/-- There is a report for each step that the driver activates. -/
theorem lt_length_driveReporting_iff (n : Nat) (s : State) (k : Nat) :
    k < (driveReporting n s).1.length ↔ k < n ∧ Activates k s := by
  induction n generalizing s k with
  | zero => simp [driveReporting]
  | succ n ih =>
    by_cases hpc : s.pc = 0#32
    · simp [driveReporting_of_pc_zero hpc, not_activates_of_pc_zero hpc]
    · rcases step_next_or_fault s with ⟨t, h⟩ | ⟨f, h⟩
      · rw [driveReporting_of_next hpc h]
        cases k with
        | zero => simp [activates_zero hpc]
        | succ k => simp [activates_succ_of_next hpc h, ih]
      · rw [driveReporting_of_fault hpc h]
        cases k with
        | zero => simp [activates_zero hpc]
        | succ k => simp [not_activates_succ_of_fault h]

/-- The report of step `k` shows the state that the step leaves. -/
theorem getElem_driveReporting (n : Nat) (s : State) (k : Nat) (hk : k < (driveReporting n s).1.length) (t : State)
    (hrun : Host.Core.run core k s = .next t) :
    (∃ u, step t = .next u ∧ (driveReporting n s).1[k] = report u)
      ∨ (∃ f, step t = .fault f ∧ (driveReporting n s).1[k] = report t) := by
  induction n generalizing s k with
  | zero => cases hk
  | succ n ih =>
    by_cases hpc : s.pc = 0#32
    · simp [driveReporting_of_pc_zero hpc] at hk
    · rcases step_next_or_fault s with ⟨u, h⟩ | ⟨f, h⟩
      · simp only [driveReporting_of_next hpc h] at hk ⊢
        cases k with
        | zero =>
          cases hrun
          exact .inl ⟨u, h, rfl⟩
        | succ k =>
          rw [run_succ_of_next h] at hrun
          exact ih u k (Nat.lt_of_succ_lt_succ hk) hrun
      · simp only [driveReporting_of_fault hpc h] at hk ⊢
        obtain rfl : k = 0 := Nat.lt_one_iff.1 hk
        cases hrun
        exact .inr ⟨f, h, rfl⟩

/-- Settles O58: by induction on the steps, the same run, a report for each step activated, and what it shows. -/
theorem reporterFollowsEachStepAndChangesNothing : Obligations.ReporterFollowsEachStepAndChangesNothing :=
  fun n s => ⟨driveReporting_snd n s, lt_length_driveReporting_iff n s, getElem_driveReporting n s⟩

end Sys2Proof.Machine
